-- ==== Sys2Proof/Word.lean ====
section
/-! DEFINITION. The unsigned integer widths of rule R9 (`00_scope.md`). -/

namespace Sys2Proof

/-- One byte, `u8` of rule R9. -/
abbrev Byte := BitVec 8

/-- `u16`, the width of the operands `flen`, `plen`, `len` and `bsz` (rule R91). -/
abbrev U16 := BitVec 16

/-- `u24`, the width of a remote address (rule R7). -/
abbrev U24 := BitVec 24

/-- `u32`, the width of the other operands of rule R91 and of `STATUS`. -/
abbrev U32 := BitVec 32

/-- `u33`, the width of a padded size (rules R27 and R91). -/
abbrev U33 := BitVec 33

end Sys2Proof
end

