-- ==== Sys2Proof/Config.lean ====
section
/-! DEFINITION. The named parameters of rule R8 (`00_scope.md`), the shape of a stream answer
(rules R58, R59) and the free draws that stand for the answers no rule fixes. -/

namespace Sys2Proof

/-- The parameters of rule R8, all but `READ_TIMEOUT`, which rule R213 keeps out of the model.
A state carries one record of them, and no step changes it (log entry 2). -/
structure Config where
  /-- `OP_GET`. -/
  opGet : Byte
  /-- `OP_VGET`. -/
  opVget : Byte
  /-- `OP_IOVM_EXEC`; `none` is the unconfigured block of rule R112. -/
  opIovm : Option Byte
  /-- `SPACE_FILE`. -/
  spaceFile : Byte
  /-- `SPACE_SNES`, the one selector GET and VGET frames carry (rule R51). -/
  spaceSnes : Byte
  /-- `SPACE_MSU`. -/
  spaceMsu : Byte
  /-- `SPACE_CMD`. -/
  spaceCmd : Byte
  /-- `SPACE_CONFIG`. -/
  spaceConfig : Byte
  /-- `IOVM_SPACE`; `none` is the unconfigured block of rule R112. -/
  iovmSpace : Option Byte
  /-- `FLAG_SKIP_RESET`. -/
  flagSkipReset : Byte
  /-- `FLAG_ONLY_RESET`. -/
  flagOnlyReset : Byte
  /-- `FLAG_CLR_X`. -/
  flagClrX : Byte
  /-- `FLAG_SET_X`. -/
  flagSetX : Byte
  /-- `FLAG_STREAM_BURST`. -/
  flagStreamBurst : Byte
  /-- `FLAG_NO_RESPONSE`. -/
  flagNoResponse : Byte
  /-- `FLAG_DATA_64B`. -/
  flagData64b : Byte
  /-- `ACC_CAP`, the capacity of the accumulator in bytes. -/
  accCap : Nat
  /-- `MISMATCH_IS_ERROR`. -/
  mismatchIsError : Bool
deriving DecidableEq, Repr

/-- The default column of rule R8. The opcode, space and flag codes are the spec's own
"from general knowledge" values (PRESUMED, log entry 3); the two OPEN codes are left
unconfigured and `ACC_CAP` is the value rule R8 says a model may take (DESIGN CHOICE,
log entries 4 and 5). -/
def Config.default : Config where
  opGet := 0x00
  opVget := 0x02
  opIovm := none
  spaceFile := 0x00
  spaceSnes := 0x01
  spaceMsu := 0x02
  spaceCmd := 0x03
  spaceConfig := 0x04
  iovmSpace := none
  flagSkipReset := 0x01
  flagOnlyReset := 0x02
  flagClrX := 0x04
  flagSetX := 0x08
  flagStreamBurst := 0x10
  flagNoResponse := 0x40
  flagData64b := 0x80
  accCap := 2 ^ 32 + 512
  mismatchIsError := false

/-- The opcode bytes the block knows: two, or three when IOVM_EXEC is configured. -/
abbrev Config.opcodes (c : Config) : List Byte :=
  c.opGet :: c.opVget :: c.opIovm.toList

/-- The five address-space selectors of rule R51. -/
abbrev Config.spaces (c : Config) : List Byte :=
  [c.spaceFile, c.spaceSnes, c.spaceMsu, c.spaceCmd, c.spaceConfig]

/-- The seven named flag masks of rule R34. -/
abbrev Config.flags (c : Config) : List Byte :=
  [c.flagSkipReset, c.flagOnlyReset, c.flagClrX, c.flagSetX, c.flagStreamBurst,
    c.flagNoResponse, c.flagData64b]

/-- The constraint column of rule R8: codes pairwise distinct, each flag a single bit,
`ACC_CAP` a multiple of 512 and at least 2048. -/
abbrev Config.Valid (c : Config) : Prop :=
  c.opcodes.Nodup ∧ c.spaces.Nodup ∧ c.flags.Nodup ∧
  (∀ f ∈ c.flags, f ∈ ([0x01, 0x02, 0x04, 0x08, 0x10, 0x20, 0x40, 0x80] : List Byte)) ∧
  c.accCap % 512 = 0 ∧ 2048 ≤ c.accCap

/-- The `err` component of a stream answer (rules R58, R59). -/
inductive IoStatus where
  | ok
  | error
deriving DecidableEq, Repr, Inhabited

/-- The answer `(n, err)` of one `StreamWrite` (rule R58). -/
structure WriteAnswer where
  /-- The count of bytes the stream says it took. -/
  n : Nat
  /-- Whether the call succeeded. -/
  err : IoStatus
deriving DecidableEq, Repr, Inhabited

/-- The answer `(bytes, err)` of one `StreamRead` (rule R59). -/
structure ReadAnswer where
  /-- The bytes the stream returned. -/
  bytes : List Byte
  /-- Whether the call succeeded. -/
  err : IoStatus
deriving DecidableEq, Repr, Inhabited

/-- The free answer to the `k`-th unscripted stream call, when it is a write. Rule R58: the
answer is a draw, and a model must admit every one; nothing constrains this constant (log
entry 6). -/
opaque Config.drawWrite : Nat → WriteAnswer

/-- The free answer to the `k`-th unscripted stream call, when it is a read (rule R59, log
entry 6). -/
opaque Config.drawRead : Nat → ReadAnswer

end Sys2Proof
end

