-- ==== Sys2Proof/Syntax.lean ====
section
/-! DEFINITION. The whole syntax: one constructor of `Instr` for each row of
`spec/opcode_table.json`, and the inputs by which the outside world drives the block (rules
R90, R195). -/

namespace Sys2Proof

/-- A block size, exactly one of 64 and 512 (rule R7). -/
inductive BlockSize where
  | b64
  | b512
deriving DecidableEq, Repr

/-- One row of the opcode table each. A list operand carries its own length, so the count
operands `n`, `plen` and `len` of rule R91 are the lengths of the lists beside them. -/
inductive Instr where
  /-- `ENCODE_VGET n, size, addr` (rule R101): the slots as pairs `(size, addr)`. -/
  | encodeVget (slots : List (U32 × U32))
  /-- `ENCODE_VGET_CONTIG addr, chunk, count` (rule R104). -/
  | encodeVgetContig (addr chunk : U32) (count : Byte)
  /-- `ENCODE_GET addr, size` (rule R108). -/
  | encodeGet (addr size : U32)
  /-- `ENCODE_IOVM flen, plen, prog` (rule R111). -/
  | encodeIovm (flen : U16) (prog : List Byte)
  /-- `DECODE_FRAME len, bytes` (rule R115). -/
  | decodeFrame (bytes : List Byte)
  /-- `PADDED_SIZE size, bsz` (rule R120). -/
  | paddedSize (size : U32) (bsz : U16)
  /-- `READ_FRAME` (rule R122). -/
  | readFrame
  /-- `WRITE_FRAME` (rule R130). -/
  | writeFrame
  /-- `READ_RESPONSE e, bsz` (rules R140 to R142). -/
  | readResponse (e : U32) (bsz : U16)
  /-- `READ_RESULT off, cnt` (rule R150). -/
  | readResult (off cnt : U32)
  /-- `READ_STATUS` (rule R151). -/
  | readStatus
  /-- `TRANSACT_GET addr, size` (rule R155). -/
  | transactGet (addr size : U32)
  /-- `TRANSACT_VGET n, size, addr` (rule R156). -/
  | transactVget (slots : List (U32 × U32))
  /-- `READ_EXACT B` (rule R135), the micro-operation without a command code. -/
  | readExact (b : BlockSize)
  /-- A GET frame on the wire (rule R73), handed to the frame decoder: `pre` is bytes 7..251
  and `post` bytes 260..511. -/
  | getWireFrame (space flags : Byte) (pre : List Byte) (size addr : U32) (post : List Byte)
  /-- A VGET frame on the wire (rule R72), handed to the frame decoder: `pre` is bytes 7..31
  and the slots are pairs `(size, address)`. -/
  | vgetWireFrame (space flags : Byte) (pre : List Byte) (slots : List (Byte × U24))
  /-- An IOVM_EXEC frame on the wire (rule R74), handed to the frame decoder: byte 7 is the
  length of `prog` and `tail` the bytes after the program. -/
  | iovmWireFrame (op space flags : Byte) (prog tail : List Byte)
deriving DecidableEq, Repr

/-- What the outside world does to the block, one item for each action. The record layout of a
command is log entry 7. -/
inductive HostInput where
  /-- A command, as one record: its code byte and its operand bytes (rules R90, R91). -/
  | command (record : List Byte)
  /-- A wire frame handed to the block's frame decoder (log entry 8). -/
  | frame (bytes : List Byte)
  /-- The reset input of rule R195. -/
  | reset
  /-- A command that the reset input cuts after `calls` of its stream calls (rule R195). -/
  | cutCommand (record : List Byte) (calls : Nat)
deriving DecidableEq, Repr

end Sys2Proof
end

