-- ==== Sys2Proof/Machine/Layout.lean ====
section
/-! DEFINITION. Byte order and frame layouts: the field encoders of rule R11 with their
inverses (rule R79), and the wire layouts of rules R71 to R75. -/

namespace Sys2Proof.Machine

/-- `zeros(n)` of rule R10. -/
def zeros (n : Nat) : List Byte := List.replicate n 0

/-- Byte `i` of a byte string. Every rule that indexes a string has checked its length first,
so the default is never what a rule reads. -/
def byteAt (bs : List Byte) (i : Nat) : Byte := bs.getD i 0

/-- `s[a:b]`, the half-open slice of rule R10. -/
def slice (bs : List Byte) (a b : Nat) : List Byte := (bs.drop a).take (b - a)

/-- The two bytes of a 16-bit operand field, most significant first (log entry 7). -/
def be16 (v : U16) : List Byte := [v.extractLsb' 8 8, v.extractLsb' 0 8]

/-- `BE24` of rule R11. -/
def be24 (v : U24) : List Byte := [v.extractLsb' 16 8, v.extractLsb' 8 8, v.extractLsb' 0 8]

/-- `BE32` of rule R11. -/
def be32 (v : U32) : List Byte :=
  [v.extractLsb' 24 8, v.extractLsb' 16 8, v.extractLsb' 8 8, v.extractLsb' 0 8]

/-- The inverse of `be16`. -/
def ofBe16 (b0 b1 : Byte) : U16 := b0 ++ b1

/-- `beval` of three bytes (rule R11). -/
def ofBe24 (b0 b1 b2 : Byte) : U24 := b0 ++ b1 ++ b2

/-- `beval` of four bytes (rule R11). -/
def ofBe32 (b0 b1 b2 b3 : Byte) : U32 := b0 ++ b1 ++ b2 ++ b3

/-- The 24-bit field at offset `i` of a frame (rule R79). -/
def be24At (bs : List Byte) (i : Nat) : U24 :=
  ofBe24 (byteAt bs i) (byteAt bs (i + 1)) (byteAt bs (i + 2))

/-- The 32-bit field at offset `i` of a frame (rule R79). -/
def be32At (bs : List Byte) (i : Nat) : U32 :=
  ofBe32 (byteAt bs i) (byteAt bs (i + 1)) (byteAt bs (i + 2)) (byteAt bs (i + 3))

/-- The magic tag "USBA" (rules R10, R71). -/
def magic : List Byte := [0x55, 0x53, 0x42, 0x41]

/-- `hdr(op, space, flags)`, bytes 0..6 of every frame (rules R71, R100). -/
def header (op space flags : Byte) : List Byte := magic ++ [op, space, flags]

/-- One four-byte slot of a VGET frame (rule R72). -/
def slotBytes (slot : Byte × U24) : List Byte := slot.1 :: be24 slot.2

/-- The slot area of a VGET frame (rule R72). -/
def slotsBytes : List (Byte × U24) → List Byte
  | [] => []
  | slot :: rest => slotBytes slot ++ slotsBytes rest

/-- The VGET layout of rule R72. -/
def vgetFrame (op space flags : Byte) (pre : List Byte) (slots : List (Byte × U24)) : List Byte :=
  header op space flags ++ pre ++ slotsBytes slots

/-- The GET layout of rule R73. -/
def getFrame (op space flags : Byte) (pre : List Byte) (size addr : U32) (post : List Byte) :
    List Byte :=
  header op space flags ++ pre ++ be32 size ++ be32 addr ++ post

/-- The IOVM_EXEC layout of rule R74. -/
def iovmFrame (op space flags : Byte) (prog tail : List Byte) : List Byte :=
  header op space flags ++ [BitVec.ofNat 8 prog.length] ++ prog ++ tail

end Sys2Proof.Machine
end

