-- ==== Sys2Proof/WellFormed.lean ====
section
/-! DEFINITION. Which terms of `Instr` an encoding can carry: list lengths within the count
fields of rule R91, and the fixed byte counts of the wire frames (rules R72 to R74). -/

namespace Sys2Proof

/-- The operand lists fit their count fields, and a wire frame has exactly its length. -/
def Instr.wf : Instr → Bool
  | .encodeVget slots => decide (slots.length < 2 ^ 8)
  | .encodeVgetContig _ _ _ => true
  | .encodeGet _ _ => true
  | .encodeIovm _ prog => decide (prog.length < 2 ^ 16)
  | .decodeFrame bytes => decide (bytes.length < 2 ^ 16)
  | .paddedSize _ _ => true
  | .readFrame => true
  | .writeFrame => true
  | .readResponse _ _ => true
  | .readResult _ _ => true
  | .readStatus => true
  | .transactGet _ _ => true
  | .transactVget slots => decide (slots.length < 2 ^ 8)
  | .readExact _ => true
  | .getWireFrame _ _ pre _ _ post => decide (pre.length = 245) && decide (post.length = 252)
  | .vgetWireFrame _ _ pre slots => decide (pre.length = 25) && decide (slots.length = 8)
  | .iovmWireFrame _ _ _ prog tail =>
    decide (prog.length < 2 ^ 8) &&
      (decide (8 + prog.length + tail.length = 64) || decide (8 + prog.length + tail.length = 512))

end Sys2Proof
end

