-- ==== Sys2Proof/Decode.lean ====
section
/-! DEFINITION. From what the host hands the block to an instruction, and back. A command is a
record, its code byte and then its operand fields in the order of rule R91, each most
significant byte first (log entry 7); a wire frame is read by its layout (rules R72 to R74). -/

namespace Sys2Proof

open Sys2Proof.Machine

/-- Why an input is no instruction. -/
inductive DecodeError where
  /-- The code byte is not in the table of rule R91; rule R92 says what the block does. -/
  | illegalCode (code : Byte)
  /-- The record is empty, or its operand bytes are not the fields rule R91 gives its code. -/
  | malformedRecord
  /-- The bytes are no GET, VGET or IOVM_EXEC frame; rule R80 says what the decoder does. -/
  | notAWireFrame
  /-- The input is the reset line, no instruction. -/
  | notAnInstruction
deriving DecidableEq, Repr

/-- A 16-bit operand field and the bytes after it. -/
def takeU16 : List Byte → Option (U16 × List Byte)
  | a :: b :: rest => some (ofBe16 a b, rest)
  | _ => none

/-- A 32-bit operand field and the bytes after it. -/
def takeU32 : List Byte → Option (U32 × List Byte)
  | a :: b :: c :: d :: rest => some (ofBe32 a b c d, rest)
  | _ => none

/-- Two 32-bit operand fields and the bytes after them. -/
def takeTwoU32 (bs : List Byte) : Option (U32 × U32 × List Byte) :=
  match takeU32 bs with
  | some (x, r) =>
    match takeU32 r with
    | some (y, r') => some (x, y, r')
    | none => none
  | none => none

/-- A 32-bit and a 16-bit operand field and the bytes after them. -/
def takeU32U16 (bs : List Byte) : Option (U32 × U16 × List Byte) :=
  match takeU32 bs with
  | some (x, r) =>
    match takeU16 r with
    | some (y, r') => some (x, y, r')
    | none => none
  | none => none

/-- An array of `n` 32-bit operand fields and the bytes after it. -/
def takeU32s : Nat → List Byte → Option (List U32 × List Byte)
  | 0, bs => some ([], bs)
  | n + 1, bs =>
    match takeU32 bs with
    | some (x, r) =>
      match takeU32s n r with
      | some (xs, r') => some (x :: xs, r')
      | none => none
    | none => none

/-- A string of `n` bytes and the bytes after it. -/
def takeBytes (n : Nat) (bs : List Byte) : Option (List Byte × List Byte) :=
  if n ≤ bs.length then some (bs.take n, bs.drop n) else none

/-- The operands of `ENCODE_VGET` and `TRANSACT_VGET`: `n`, then `size[0..n-1]`, then
`addr[0..n-1]` (rule R91). -/
def takeSlots : List Byte → Option (List (U32 × U32) × List Byte)
  | n :: rest =>
    match takeU32s n.toNat rest with
    | some (sizes, r) =>
      match takeU32s n.toNat r with
      | some (addrs, r') => some (sizes.zip addrs, r')
      | none => none
    | none => none
  | [] => none

/-- The operands of `ENCODE_VGET_CONTIG` (rule R91). -/
def takeContig (bs : List Byte) : Option (U32 × U32 × Byte × List Byte) :=
  match takeTwoU32 bs with
  | some (addr, chunk, count :: r) => some (addr, chunk, count, r)
  | _ => none

/-- The operands of `ENCODE_IOVM`: `flen`, `plen` and the `plen` program bytes (rule R91). -/
def takeIovm (bs : List Byte) : Option (U16 × List Byte × List Byte) :=
  match takeU16 bs with
  | some (flen, r) =>
    match takeU16 r with
    | some (plen, r') =>
      match takeBytes plen.toNat r' with
      | some (prog, r'') => some (flen, prog, r'')
      | none => none
    | none => none
  | none => none

/-- The operands of `DECODE_FRAME`: `len` and the `len` frame bytes (rule R91). -/
def takeFrame (bs : List Byte) : Option (List Byte × List Byte) :=
  match takeU16 bs with
  | some (len, r) => takeBytes len.toNat r
  | none => none

/-- The instruction of command code `code` with its operands at the head of `bs`, and the bytes
after them: the table of rule R91. The outer `none` is a code the table does not hold. -/
def parseOperands (code : Byte) (bs : List Byte) : Option (Option (Instr × List Byte)) :=
  match code.toNat with
  | 0x01 => some ((takeSlots bs).map fun p => (.encodeVget p.1, p.2))
  | 0x02 => some ((takeContig bs).map fun p => (.encodeVgetContig p.1 p.2.1 p.2.2.1, p.2.2.2))
  | 0x03 => some ((takeTwoU32 bs).map fun p => (.encodeGet p.1 p.2.1, p.2.2))
  | 0x04 => some ((takeIovm bs).map fun p => (.encodeIovm p.1 p.2.1, p.2.2))
  | 0x05 => some ((takeFrame bs).map fun p => (.decodeFrame p.1, p.2))
  | 0x06 => some ((takeU32U16 bs).map fun p => (.paddedSize p.1 p.2.1, p.2.2))
  | 0x07 => some (some (.readFrame, bs))
  | 0x10 => some (some (.writeFrame, bs))
  | 0x11 => some ((takeU32U16 bs).map fun p => (.readResponse p.1 p.2.1, p.2.2))
  | 0x12 => some ((takeTwoU32 bs).map fun p => (.readResult p.1 p.2.1, p.2.2))
  | 0x13 => some (some (.readStatus, bs))
  | 0x20 => some ((takeTwoU32 bs).map fun p => (.transactGet p.1 p.2.1, p.2.2))
  | 0x21 => some ((takeSlots bs).map fun p => (.transactVget p.1, p.2))
  | _ => none

/-- The instruction of one command record; the record is exactly the code and its operands. -/
def decodeCommand : List Byte → Except DecodeError Instr
  | [] => .error .malformedRecord
  | code :: bs =>
    match parseOperands code bs with
    | none => .error (.illegalCode code)
    | some (some (i, [])) => .ok i
    | some _ => .error .malformedRecord

/-- Consecutive slots of a VGET frame (rule R79). -/
def parseSlots : List Byte → List (Byte × U24)
  | size :: a :: b :: c :: rest => (size, ofBe24 a b c) :: parseSlots rest
  | _ => []

/-- The frame's instruction by its opcode byte and length (rules R72 to R74, R82), when it is
one of the three frames. -/
def parseFrame (c : Config) (bs : List Byte) : Option Instr :=
  if bs.take 4 = magic then
    let op := byteAt bs 4
    let space := byteAt bs 5
    let flags := byteAt bs 6
    if op = c.opVget then
      if bs.length = 64 then
        some (.vgetWireFrame space flags (slice bs 7 32) (parseSlots (slice bs 32 64)))
      else none
    else if op = c.opGet then
      if bs.length = 512 then
        some (.getWireFrame space flags (slice bs 7 252) (be32At bs 252) (be32At bs 256)
          (slice bs 260 512))
      else none
    else if c.opIovm = some op then
      if (bs.length = 64 ∨ bs.length = 512) ∧ 8 + (byteAt bs 7).toNat ≤ bs.length then
        some (.iovmWireFrame op space flags (slice bs 8 (8 + (byteAt bs 7).toNat))
          (bs.drop (8 + (byteAt bs 7).toNat)))
      else none
    else none
  else none

/-- The instruction an input stands for, under the opcode codes of `c`. -/
def decode (c : Config) : HostInput → Except DecodeError Instr
  | .command record => decodeCommand record
  | .cutCommand record _ => decodeCommand record
  | .frame bytes =>
    match parseFrame c bytes with
    | some i => .ok i
    | none => .error .notAWireFrame
  | .reset => .error .notAnInstruction

/-! The encoder. -/

/-- An array of 32-bit operand fields. -/
def u32sBytes : List U32 → List Byte
  | [] => []
  | x :: xs => be32 x ++ u32sBytes xs

/-- The operand fields of a slot list (rule R91). -/
def slotOperands (slots : List (U32 × U32)) : List Byte :=
  BitVec.ofNat 8 slots.length ::
    (u32sBytes (slots.map Prod.fst) ++ u32sBytes (slots.map Prod.snd))

/-- The record or the frame that carries an instruction; `READ_EXACT` has none (rule R91). -/
def encode (c : Config) : Instr → Option HostInput
  | .encodeVget slots => some (.command (0x01 :: slotOperands slots))
  | .encodeVgetContig addr chunk count =>
    some (.command (0x02 :: (be32 addr ++ be32 chunk ++ [count])))
  | .encodeGet addr size => some (.command (0x03 :: (be32 addr ++ be32 size)))
  | .encodeIovm flen prog =>
    some (.command (0x04 :: (be16 flen ++ be16 (BitVec.ofNat 16 prog.length) ++ prog)))
  | .decodeFrame bytes =>
    some (.command (0x05 :: (be16 (BitVec.ofNat 16 bytes.length) ++ bytes)))
  | .paddedSize size bsz => some (.command (0x06 :: (be32 size ++ be16 bsz)))
  | .readFrame => some (.command [0x07])
  | .writeFrame => some (.command [0x10])
  | .readResponse e bsz => some (.command (0x11 :: (be32 e ++ be16 bsz)))
  | .readResult off cnt => some (.command (0x12 :: (be32 off ++ be32 cnt)))
  | .readStatus => some (.command [0x13])
  | .transactGet addr size => some (.command (0x20 :: (be32 addr ++ be32 size)))
  | .transactVget slots => some (.command (0x21 :: slotOperands slots))
  | .readExact _ => none
  | .getWireFrame space flags pre size addr post =>
    some (.frame (getFrame c.opGet space flags pre size addr post))
  | .vgetWireFrame space flags pre slots => some (.frame (vgetFrame c.opVget space flags pre slots))
  | .iovmWireFrame op space flags prog tail => some (.frame (iovmFrame op space flags prog tail))

/-! The words of the opcode table. -/

/-- The low `k` bytes of `w`, the least significant first. -/
def leBytes (k w : Nat) : List Byte :=
  (List.range k).map fun i => BitVec.ofNat 8 (w >>> (8 * i))

/-- The command record of a table word: its bytes, then the operand bytes, all zero. -/
def tableRecord (nbits w : Nat) : List Byte :=
  match leBytes (nbits / 8) w with
  | [] => []
  | code :: bs =>
    match parseOperands code (bs ++ zeros 16) with
    | some (some (_, rest)) => (code :: (bs ++ zeros 16)).take (bs.length + 17 - rest.length)
    | _ => code :: bs

/-- The wire frame of a 40-bit table word. The table reads bytes 0..4 of these rows as one
big-endian number; a word whose bytes 0..3 are the magic only when read from the other end is
taken so (log entry 9). The rest of the frame is zero. -/
def tableFrame (w : Nat) : List Byte :=
  let le := leBytes 5 w
  let head := if le.take 4 = magic then le else le.reverse
  head ++ zeros ((if byteAt head 4 = Config.default.opVget then 64 else 512) - 5)

/-- The input that carries a table word. -/
def tableInput (nbits w : Nat) : HostInput :=
  if nbits = 40 then .frame (tableFrame w) else .command (tableRecord nbits w)

/-- The instruction the decoder reads from a table word under the default configuration. -/
def decodeTableWord (nbits w : Nat) : Option Instr :=
  match decode Config.default (tableInput nbits w) with
  | .ok i => some i
  | .error _ => none

end Sys2Proof
end

