-- ==== Sys2Proof/Machine/State.lean ====
section
/-! DEFINITION. Everything the block holds between commands (rules R20 to R36), the two queues
by which the outside world is given to it (the stream's answers and the host's inputs), and the
reset state (rule R38). -/

namespace Sys2Proof.Machine

/-- The transport states of rule R22. -/
inductive Phase where
  | idle
  | writing
  | awaitingAck
  | receivingBlocks
  | complete
  | failed
deriving DecidableEq, Repr

/-- The causes `ERR` holds (rule R29). -/
inductive ErrCode where
  | noError
  | writeError
  | shortWrite
  | readError
  | ackTimeout
  | shortResponse
  | mismatch
deriving DecidableEq, Repr

/-- The causes `PCAUSE` holds (rule R31). -/
inductive ProgCause where
  | noFault
  | range
  | capacity
  | busy
  | noFrame
  | unsupported
  | noResult
  | illegalCmd
  | notPending
deriving DecidableEq, Repr

/-- The verdicts `DEC_VERDICT` holds (rule R32). -/
inductive Verdict where
  | ok
  | badLength
  | badMagic
  | badOpcode
  | badProgramLength
  | noDecode
deriving DecidableEq, Repr

/-- The outcomes of `READ_EXACT` (rule R135). -/
inductive ExactOutcome where
  | full
  | timeout
  | readErr
deriving DecidableEq, Repr

/-- The events of rule R36. -/
inductive Event where
  /-- `EV_WRITE(s, n, err)`. -/
  | write (s : List Byte) (n : Nat) (err : IoStatus)
  /-- `EV_READ(m, bytes, err)`. -/
  | read (m : Nat) (bytes : List Byte) (err : IoStatus)
  /-- `EV_MISMATCH(alen, p)`. -/
  | mismatch (alen p : Nat)
  /-- `EV_COMPLETE(e)`. -/
  | complete (e : U32)
  /-- `EV_FAIL(c)`. -/
  | fail (c : ErrCode)
  /-- `EV_PROGFAULT(c)`. -/
  | progFault (c : ProgCause)
deriving DecidableEq, Repr

/-- The result column of rule R91, and the outcome `READ_EXACT` returns. -/
inductive Result where
  /-- The `STATE` a transport command returns. -/
  | phase (p : Phase)
  /-- The verdict `DECODE_FRAME` returns. -/
  | verdict (v : Verdict)
  /-- The padded size `PADDED_SIZE` returns. -/
  | padded (p : U33)
  /-- The bytes `READ_FRAME` and `READ_RESULT` return. -/
  | bytes (bs : List Byte)
  /-- The word `READ_STATUS` returns. -/
  | status (w : U32)
  /-- The outcome `READ_EXACT` returns to `READ_RESPONSE`. -/
  | exact (o : ExactOutcome)
deriving DecidableEq, Repr

/-- A buffer's contents: its written bytes by address, in strictly rising address order. An
address that is not listed holds no value (rule R38). -/
abbrev Memory := List Host.Cell

/-- The three buffers of rule R50. -/
inductive Buffer where
  | frame
  | blk
  | acc
deriving DecidableEq, Repr

/-- The decode registers of rule R32. `none` is the "no value" that `DECODE_FRAME` itself
writes (rule R115), not a missing reset value. -/
structure DecodeRegs where
  /-- `DEC_VERDICT`. -/
  verdict : Verdict
  /-- `DEC_LEN`. -/
  len : Option Nat
  /-- `DEC_OP`. -/
  op : Option Byte
  /-- `DEC_SPACE`. -/
  space : Option Byte
  /-- `DEC_FLAGS`. -/
  flags : Option Byte
  /-- `DEC_SLOT_SIZE[0..7]`. -/
  slotSize : Option (Vector Byte 8)
  /-- `DEC_SLOT_ADDR[0..7]`. -/
  slotAddr : Option (Vector U24 8)
  /-- `DEC_SIZE`. -/
  size : Option U32
  /-- `DEC_ADDR`. -/
  addr : Option U32
  /-- `DEC_PLEN`. -/
  plen : Option Byte
  /-- `DEC_PROG`. -/
  prog : Option (List Byte)
  /-- `DEC_ZERO_OK`. -/
  zeroOk : Option Bool
deriving DecidableEq, Repr

/-- The decode registers with no value in any but the verdict and the length. -/
def DecodeRegs.cleared (v : Verdict) (len : Option Nat) : DecodeRegs where
  verdict := v
  len := len
  op := none
  space := none
  flags := none
  slotSize := none
  slotAddr := none
  size := none
  addr := none
  plen := none
  prog := none
  zeroOk := none

/-- The stream as the block meets it (rules R58 to R60): the answers that are given, in call
order, and after them the draws of `Config.drawWrite` and `Config.drawRead`. The model's own
field (log entry 6). -/
structure Stream where
  /-- The given answers to the coming `StreamWrite` calls. -/
  writes : List WriteAnswer
  /-- The given answers to the coming `StreamRead` calls. -/
  reads : List ReadAnswer
  /-- How many calls have been answered by a free draw. -/
  draws : Nat
deriving DecidableEq, Repr

/-- The state of the block and of its two neighbours. -/
structure State where
  /-- The parameters of rule R8; no step changes them. -/
  cfg : Config
  /-- `STATE` (rule R22). -/
  st : Phase
  /-- `FRAME[0..511]` (rule R24). -/
  frame : Memory
  /-- `FLEN` (rule R24). -/
  flen : Nat
  /-- `FVALID` (rule R24). -/
  fvalid : Bool
  /-- `BLK[0..511]` (rule R25). -/
  blk : Memory
  /-- `BFILL` (rule R25). -/
  bfill : Nat
  /-- `ACC[0..ACC_CAP-1]` (rule R26). -/
  acc : Memory
  /-- `ALEN` (rule R26). -/
  alen : Nat
  /-- `REQ_OP` (rule R27). -/
  reqOp : Byte
  /-- `REQ_E` (rule R27). -/
  reqE : U32
  /-- `REQ_B` (rule R27). -/
  reqB : Nat
  /-- `REQ_P` (rule R27). -/
  reqP : U33
  /-- `RLEN` (rule R28). -/
  rlen : U32
  /-- `ERR` (rule R29). -/
  err : ErrCode
  /-- `WARN` (rule R30). -/
  warn : Bool
  /-- `PERR` (rule R31). -/
  perr : Bool
  /-- `PCAUSE` (rule R31). -/
  pcause : ProgCause
  /-- `DEC_*` (rule R32). -/
  dec : DecodeRegs
  /-- `H`, the event history (rule R36), oldest first. -/
  hist : List Event
  /-- The stream (rules R58, R59). -/
  stream : Stream
  /-- What the outside world does next, first item first (rule R90, log entry 7). -/
  inbox : List HostInput
  /-- The result the last command returned to the host (rule R90, log entry 10). -/
  out : Option Result
deriving DecidableEq, Repr

/-- Why the machine stops with a fault. -/
inductive Fault where
  /-- Raised by a buffer read at or past the buffer's size: rule R12 defines none there. No
  state that meets the invariant reaches it. Safe. -/
  | outsideBuffer (b : Buffer) (addr : Nat)
  /-- Raised by a read of a buffer byte that nothing has written: rule R38 gives it no value and
  has a model fault the read. No state that meets the invariant reaches it. Safe. -/
  | unwrittenByte (b : Buffer) (addr : Nat)
deriving DecidableEq, Repr

/-- Why the machine gives an input no meaning. -/
inductive Refusal where
  /-- Raised by `exec` for an instruction that has no meaning yet; no arm does. Safe. -/
  | notModelled (mnemonic : String)
  /-- Raised by `runInput` for a record that is no command: empty, or with operand bytes other
  than the fields rule R91 gives its code (or a frame longer than any `len` operand). The
  interface of rule R90 has no such input. Safe. -/
  | malformedRecord
deriving DecidableEq, Repr

/-- The reset values of rule R38, under the parameters `c`. The request registers and `RLEN`,
which rule R38 leaves unspecified, are zero (DESIGN CHOICE, log entry 1); no stream answer is
given and the host has issued nothing (rule R196). -/
def State.resetWith (c : Config) : State where
  cfg := c
  st := .idle
  frame := []
  flen := 0
  fvalid := false
  blk := []
  bfill := 0
  acc := []
  alen := 0
  reqOp := 0
  reqE := 0
  reqB := 0
  reqP := 0
  rlen := 0
  err := .noError
  warn := false
  perr := false
  pcause := .noFault
  dec := DecodeRegs.cleared .noDecode none
  hist := []
  stream := { writes := [], reads := [], draws := 0 }
  inbox := []
  out := none

/-- The machine right after reset, under the default parameters of rule R8. -/
def State.reset : State := State.resetWith Config.default

end Sys2Proof.Machine
end

