-- ==== Sys2Proof/Machine/Flags.lean ====
section
/-! DEFINITION. The numeric codes of rules R22, R29, R31 and R32 and the `STATUS` word of rule
R33. -/

namespace Sys2Proof.Machine

/-- The code of `STATE` (rule R22). -/
def Phase.code : Phase → BitVec 3
  | .idle => 0
  | .writing => 1
  | .awaitingAck => 2
  | .receivingBlocks => 3
  | .complete => 4
  | .failed => 5

/-- The code of `ERR` (rule R29). -/
def ErrCode.code : ErrCode → Byte
  | .noError => 0x00
  | .writeError => 0x01
  | .shortWrite => 0x02
  | .readError => 0x03
  | .ackTimeout => 0x04
  | .shortResponse => 0x05
  | .mismatch => 0x06

/-- The code of `PCAUSE` (rule R31). -/
def ProgCause.code : ProgCause → Byte
  | .noFault => 0x00
  | .range => 0x01
  | .capacity => 0x02
  | .busy => 0x03
  | .noFrame => 0x04
  | .unsupported => 0x05
  | .noResult => 0x06
  | .illegalCmd => 0x07
  | .notPending => 0x08

/-- The code of `DEC_VERDICT` (rule R32). -/
def Verdict.code : Verdict → Byte
  | .ok => 0x00
  | .badLength => 0x01
  | .badMagic => 0x02
  | .badOpcode => 0x03
  | .badProgramLength => 0x04
  | .noDecode => 0xFF

/-- A one-bit register as a bit. -/
def bit (b : Bool) : BitVec 1 := BitVec.ofBool b

/-- `STATUS`, from its most significant field down (rule R33). -/
def State.status (s : State) : U32 :=
  (0 : Byte) ++ s.pcause.code ++ s.err.code ++ (0 : BitVec 2) ++ bit s.perr ++ bit s.fvalid ++
    bit s.warn ++ s.st.code

end Sys2Proof.Machine
end

