-- ==== Sys2Proof/Machine/Operands.lean ====
section
/-! DEFINITION. What the operands of the commands admit and stand for: range checks, block
sizes, the padding rule, the slots of a VGET, and the frame the encoders build from them. -/

namespace Sys2Proof.Machine

/-- The bytes of a block of this size (rule R7). -/
def blockBytes : BlockSize → Nat
  | .b64 => 64
  | .b512 => 512

/-- The block size an operand `bsz` names, if it is 64 or 512. -/
def blockSize (bsz : U16) : Option BlockSize :=
  if bsz.toNat = 64 then some .b64 else if bsz.toNat = 512 then some .b512 else none

/-- `paddedSize` of rules R13 and R120, in exact arithmetic. -/
def paddedSize (size bsz : Nat) : Nat :=
  size / bsz * bsz + (if size % bsz ≠ 0 then bsz else 0)

/-- The range check of one used slot (rule R101). -/
def slotOk (slot : U32 × U32) : Bool :=
  decide (1 ≤ slot.1.toNat) && decide (slot.1.toNat ≤ 0xFF) && decide (slot.2.toNat ≤ 0xFFFFFF)

/-- The range check of `ENCODE_VGET` (rule R101). -/
def slotsOk (slots : List (U32 × U32)) : Bool :=
  decide (1 ≤ slots.length) && decide (slots.length ≤ 8) && slots.all slotOk

/-- The slot fields of a VGET frame: the used slots, then zero slots up to eight (rule R72). -/
def frameSlots (slots : List (U32 × U32)) : List (Byte × U24) :=
  slots.map (fun s => (s.1.setWidth 8, s.2.setWidth 24)) ++ List.replicate (8 - slots.length) (0, 0)

/-- `Σ size[i]`, the total requested size (rules R102, R156). -/
def slotTotal (slots : List (U32 × U32)) : Nat := (slots.map fun s => s.1.toNat).sum

/-- The range check of `ENCODE_VGET_CONTIG` (rule R104). -/
def contigOk (addr chunk : U32) (count : Byte) : Bool :=
  decide (1 ≤ count.toNat) && decide (count.toNat ≤ 8) && decide (1 ≤ chunk.toNat) &&
    decide (chunk.toNat ≤ 0xFF) && decide (addr.toNat + (count.toNat - 1) * chunk.toNat ≤ 0xFFFFFF)

/-- The slots of `ENCODE_VGET_CONTIG`: `count` pieces of size `chunk` from `addr` on (rule R104). -/
def contigSlots (addr chunk : U32) (count : Byte) : List (U32 × U32) :=
  (List.range count.toNat).map fun i => (chunk, BitVec.ofNat 32 (addr.toNat + i * chunk.toNat))

/-- The frame of `ENCODE_VGET` (rule R101). -/
def vgetRequest (c : Config) (slots : List (U32 × U32)) : List Byte :=
  vgetFrame c.opVget c.spaceSnes (c.flagData64b ||| c.flagNoResponse) (zeros 25) (frameSlots slots)

/-- The range check of `ENCODE_GET` (rule R108). -/
def getOk (addr size : U32) : Bool := decide (1 ≤ size.toNat) && decide (addr.toNat ≤ 0xFFFFFF)

/-- The frame of `ENCODE_GET` (rule R108). -/
def getRequest (c : Config) (addr size : U32) : List Byte :=
  getFrame c.opGet c.spaceSnes 0x00 (zeros 245) size addr (zeros 252)

/-- The two codes `ENCODE_IOVM` needs, when both are configured (rules R111, R112). -/
def iovmCodes (c : Config) : Option (Byte × Byte) :=
  match c.opIovm, c.iovmSpace with
  | some op, some space => some (op, space)
  | _, _ => none

/-- The range check of `ENCODE_IOVM` (rule R111). -/
def iovmOk (flen : U16) (prog : List Byte) : Bool :=
  (decide (flen.toNat = 64) || decide (flen.toNat = 512)) &&
    decide (prog.length ≤ flen.toNat - 8) && decide (prog.length ≤ 255)

/-- The frame of `ENCODE_IOVM` (rule R111). -/
def iovmRequest (c : Config) (op space : Byte) (flen : U16) (prog : List Byte) : List Byte :=
  iovmFrame op space c.flagData64b prog (zeros (flen.toNat - 8 - prog.length))

/-- `CHECK` of rule R116. -/
def checkFrame (c : Config) (bs : List Byte) : Verdict :=
  if bs.length ≠ 64 ∧ bs.length ≠ 512 then .badLength
  else if bs.take 4 ≠ magic then .badMagic
  else if byteAt bs 4 = c.opVget then (if bs.length = 64 then .ok else .badLength)
  else if byteAt bs 4 = c.opGet then (if bs.length = 512 then .ok else .badLength)
  else if c.opIovm = some (byteAt bs 4) then
    (if (byteAt bs 7).toNat ≤ bs.length - 8 then .ok else .badProgramLength)
  else .badOpcode

/-- Every byte of a string is zero. -/
def allZero (bs : List Byte) : Bool := bs.all (· == 0)

/-- One slot of a VGET frame has no nonzero address byte beside a zero size (rule R117). -/
def slotZeroOk (bs : List Byte) (i : Nat) : Bool :=
  byteAt bs (32 + 4 * i) != 0 || allZero (slice bs (33 + 4 * i) (36 + 4 * i))

/-- `ZERO_OK` of rule R117, for a frame whose verdict is `OK`. -/
def zeroOk (c : Config) (bs : List Byte) : Bool :=
  if byteAt bs 4 = c.opVget then
    allZero (slice bs 7 32) && (List.range 8).all (slotZeroOk bs)
  else if byteAt bs 4 = c.opGet then
    allZero (slice bs 7 252) && byteAt bs 256 == 0 && allZero (slice bs 260 512)
  else allZero (bs.drop (8 + (byteAt bs 7).toNat))

/-- `DEC_SLOT_SIZE[0..7]` of a VGET frame (rule R115). -/
def slotSizes (bs : List Byte) : Vector Byte 8 :=
  #v[byteAt bs 32, byteAt bs 36, byteAt bs 40, byteAt bs 44,
    byteAt bs 48, byteAt bs 52, byteAt bs 56, byteAt bs 60]

/-- `DEC_SLOT_ADDR[0..7]` of a VGET frame (rule R115). -/
def slotAddrs (bs : List Byte) : Vector U24 8 :=
  #v[be24At bs 33, be24At bs 37, be24At bs 41, be24At bs 45,
    be24At bs 49, be24At bs 53, be24At bs 57, be24At bs 61]

/-- The registers an `OK` verdict writes besides those of the opcode (rule R115). -/
def decodedHeader (c : Config) (bs : List Byte) : DecodeRegs :=
  { DecodeRegs.cleared .ok (some bs.length) with
    op := some (byteAt bs 4)
    space := some (byteAt bs 5)
    flags := some (byteAt bs 6)
    zeroOk := some (zeroOk c bs) }

/-- The decode registers `DECODE_FRAME` leaves (rule R115). -/
def decodedRegs (c : Config) (bs : List Byte) : DecodeRegs :=
  if checkFrame c bs ≠ .ok then DecodeRegs.cleared (checkFrame c bs) (some bs.length)
  else if byteAt bs 4 = c.opVget then
    { decodedHeader c bs with slotSize := some (slotSizes bs), slotAddr := some (slotAddrs bs) }
  else if byteAt bs 4 = c.opGet then
    { decodedHeader c bs with size := some (be32At bs 252), addr := some (be32At bs 256) }
  else
    { decodedHeader c bs with
      plen := some (byteAt bs 7), prog := some (slice bs 8 (8 + (byteAt bs 7).toNat)) }

end Sys2Proof.Machine
end

