-- ==== Sys2Proof/Machine/Ops.lean ====
section
/-! DEFINITION. The shared operations of rule R12: buffer reads and writes, the stream calls,
`emit`, `fail` and `raise ProgFault`, the reset input, and the command gate of rule R172. -/

namespace Sys2Proof.Machine

/-! Buffers. -/

/-- The byte a buffer holds at an address, if anything has written it. -/
def Memory.read (m : Memory) (a : Nat) : Option Byte := m.lookup a

/-- The cells of a byte string laid out from address `off` on. -/
def Memory.cells : Nat → List Byte → Memory
  | _, [] => []
  | off, b :: bs => (off, b) :: Memory.cells (off + 1) bs

/-- The contents after the bytes `bs` are written from address `off` on. -/
def Memory.write (m : Memory) (off : Nat) (bs : List Byte) : Memory :=
  m.filter (fun c => decide (c.1 < off)) ++ Memory.cells off bs ++
    m.filter (fun c => decide (off + bs.length ≤ c.1))

/-- The canonical form: addresses strictly rising. An unlisted address holds no value, so no
listed byte can repeat what an unlisted one reads as. -/
abbrev Memory.wf (m : Memory) : Prop := (m.map Prod.fst).Pairwise (· < ·)

/-- Every listed address is below `size`. -/
abbrev Memory.below (m : Memory) (size : Nat) : Prop := ∀ a ∈ m.map Prod.fst, a < size

/-- The contents of buffer `b`. -/
def State.buffer (s : State) : Buffer → Memory
  | .frame => s.frame
  | .blk => s.blk
  | .acc => s.acc

/-- The size of buffer `b` (rule R50). -/
def State.bufferSize (s : State) : Buffer → Nat
  | .frame => 512
  | .blk => 512
  | .acc => s.cfg.accCap

/-- The `n` bytes from address `off` on; the first one without a value faults (rule R38). -/
def readCells (b : Buffer) (m : Memory) (off : Nat) : Nat → Except Fault (List Byte)
  | 0 => .ok []
  | n + 1 =>
    match m.read off with
    | none => .error (.unwrittenByte b off)
    | some x =>
      match readCells b m (off + 1) n with
      | .error f => .error f
      | .ok xs => .ok (x :: xs)

/-- `MemRead(BUF, off, n)` of rule R12. -/
def State.memRead (s : State) (b : Buffer) (off n : Nat) : Except Fault (List Byte) :=
  if off + n ≤ s.bufferSize b then readCells b (s.buffer b) off n
  else .error (.outsideBuffer b (off + n))

/-- `MemWrite(BUF, off, n, s)` of rule R12; every rule calls it within the buffer. -/
def State.memWrite (s : State) (b : Buffer) (off : Nat) (bs : List Byte) : State :=
  match b with
  | .frame => { s with frame := s.frame.write off bs }
  | .blk => { s with blk := s.blk.write off bs }
  | .acc => { s with acc := s.acc.write off bs }

/-! Events, results, failures and faults. -/

/-- `emit E` (rule R188). -/
def State.emit (s : State) (e : Event) : State := { s with hist := s.hist ++ [e] }

/-- The command ends and returns a result to the host (rule R90). -/
def State.returns (s : State) (r : Result) : State := { s with out := some r }

/-- The command ends and returns no result. -/
def State.returnsNothing (s : State) : State := { s with out := none }

/-- The command ends and returns `STATE`. -/
def State.returnsPhase (s : State) : State := s.returns (.phase s.st)

/-- `fail(c)` of rule R171: the cause into `ERR`, `STATE` to `Failed`, the event; the command
returns `STATE` at once. -/
def State.fail (s : State) (c : ErrCode) : State :=
  State.returnsPhase ({ s with err := c, st := .failed }.emit (.fail c))

/-- `raise ProgFault(c)` of rule R172: `PERR` and the cause, the event, and nothing else; the
command stops without a result. -/
def State.progFault (s : State) (c : ProgCause) : State :=
  State.returnsNothing ({ s with perr := true, pcause := c }.emit (.progFault c))

/-- The reset input (rules R195, R197) and the one return from a fault (rule R178): every
register and buffer takes its reset value; the parameters, the stream and what the host does
next are not the block's to reset. -/
def State.hardReset (s : State) : State :=
  { State.resetWith s.cfg with stream := s.stream, inbox := s.inbox }

/-- Rule R172: when `PERR = 1` a command does nothing and returns no result. -/
def State.command (s : State) (body : State → Host.Outcome State Fault Refusal) :
    Host.Outcome State Fault Refusal :=
  if s.perr then .next s.returnsNothing else body s

/-! The stream. -/

/-- The bound of rule R58: an answer without error takes at most the `len` bytes offered. -/
def boundWrite (a : WriteAnswer) (len : Nat) : WriteAnswer :=
  match a.err with
  | .ok => { a with n := min a.n len }
  | .error => a

/-- The bound of rule R59: an answer has at most the `m` bytes asked for. -/
def boundRead (a : ReadAnswer) (m : Nat) : ReadAnswer := { a with bytes := a.bytes.take m }

/-- What a given answer leaves to the next call: the bytes of a chunk longer than the request
stay in the stream (rule R35 (b)). -/
def leftover (a : ReadAnswer) (m : Nat) : List ReadAnswer :=
  match a.err with
  | .ok => if a.bytes.length ≤ m then [] else [{ a with bytes := a.bytes.drop m }]
  | .error => []

/-- The stream's answer to a write of `len` bytes, and the stream after it (rule R58). -/
def Stream.write (t : Stream) (len : Nat) : WriteAnswer × Stream :=
  match t.writes with
  | a :: rest => (boundWrite a len, { t with writes := rest })
  | [] => (boundWrite (Config.drawWrite t.draws) len, { t with draws := t.draws + 1 })

/-- The stream's answer to a read of at most `m` bytes, and the stream after it (rule R59). -/
def Stream.read (t : Stream) (m : Nat) : ReadAnswer × Stream :=
  match t.reads with
  | a :: rest => (boundRead a m, { t with reads := leftover a m ++ rest })
  | [] => (boundRead (Config.drawRead t.draws) m, { t with draws := t.draws + 1 })

/-- `StreamWrite(s)` with its `EV_WRITE` (rule R58). -/
def State.streamWrite (s : State) (bs : List Byte) : WriteAnswer × State :=
  let (a, t) := s.stream.write bs.length
  (a, { s with stream := t }.emit (.write bs a.n a.err))

/-- `StreamRead(m)` with its `EV_READ` (rule R59). -/
def State.streamRead (s : State) (m : Nat) : ReadAnswer × State :=
  let (a, t) := s.stream.read m
  (a, { s with stream := t }.emit (.read m a.bytes a.err))

/-- The stream after the first `k` stream calls that `events` records. -/
def Stream.replay : Nat → List Event → Stream → Stream
  | 0, _, t => t
  | _ + 1, [], t => t
  | k + 1, .write bs _ _ :: es, t => Stream.replay k es (t.write bs.length).2
  | k + 1, .read m _ _ :: es, t => Stream.replay k es (t.read m).2
  | k + 1, .mismatch _ _ :: es, t => Stream.replay (k + 1) es t
  | k + 1, .complete _ :: es, t => Stream.replay (k + 1) es t
  | k + 1, .fail _ :: es, t => Stream.replay (k + 1) es t
  | k + 1, .progFault _ :: es, t => Stream.replay (k + 1) es t

/-- The state after a reset that arrives when a command, which ran from `s` to `s'`, has made
`k` of its stream calls: those calls are done, and the command has no further effect (rules
R195, R197). -/
def State.cutBy (s s' : State) (k : Nat) : State :=
  { s.hardReset with stream := s.stream.replay k (s'.hist.drop s.hist.length) }

end Sys2Proof.Machine
end

