-- ==== Sys2Proof/Machine/Codec.lean ====
section
/-! DEFINITION. The frame codec commands of `40_frame_codec.md` (rules R100 to R122). -/

namespace Sys2Proof.Machine

/-- The end of every encoder: the frame into `FRAME`, its length into `FLEN`, `FVALID` set
(rules R101, R108, R111). -/
def State.loadFrame (s : State) (bs : List Byte) : State :=
  State.returnsNothing { s.memWrite .frame 0 bs with flen := bs.length, fvalid := true }

/-- `ENCODE_VGET` past the gate (rule R101). -/
def buildVget (slots : List (U32 × U32)) (s : State) : State :=
  if slotsOk slots then s.loadFrame (vgetRequest s.cfg slots) else s.progFault .range

/-- `ENCODE_GET` past the gate (rule R108). -/
def buildGet (addr size : U32) (s : State) : State :=
  if getOk addr size then s.loadFrame (getRequest s.cfg addr size) else s.progFault .range

/-- `ENCODE_IOVM` past the gate (rule R111). -/
def buildIovm (flen : U16) (prog : List Byte) (s : State) : State :=
  match iovmCodes s.cfg with
  | none => s.progFault .unsupported
  | some (op, space) =>
    if iovmOk flen prog then s.loadFrame (iovmRequest s.cfg op space flen prog)
    else s.progFault .range

/-- `DECODE_FRAME` past the gate (rule R115): the decode registers, and the verdict returned. -/
def examine (bs : List Byte) (s : State) : State :=
  State.returns { s with dec := decodedRegs s.cfg bs } (.verdict (decodedRegs s.cfg bs).verdict)

/-- `ENCODE_VGET` (rule R101). -/
def execEncodeVget (slots : List (U32 × U32)) (s : State) : Host.Outcome State Fault Refusal :=
  s.command fun s => .next (buildVget slots s)

/-- `ENCODE_VGET_CONTIG` (rule R104): its own range check, then `ENCODE_VGET` of the pieces. -/
def execEncodeVgetContig (addr chunk : U32) (count : Byte) (s : State) :
    Host.Outcome State Fault Refusal :=
  s.command fun s =>
    .next (if contigOk addr chunk count then buildVget (contigSlots addr chunk count) s
      else s.progFault .range)

/-- `ENCODE_GET` (rule R108). -/
def execEncodeGet (addr size : U32) (s : State) : Host.Outcome State Fault Refusal :=
  s.command fun s => .next (buildGet addr size s)

/-- `ENCODE_IOVM` (rule R111). -/
def execEncodeIovm (flen : U16) (prog : List Byte) (s : State) : Host.Outcome State Fault Refusal :=
  s.command fun s => .next (buildIovm flen prog s)

/-- `DECODE_FRAME` (rule R115). -/
def execDecodeFrame (bytes : List Byte) (s : State) : Host.Outcome State Fault Refusal :=
  s.command fun s => .next (examine bytes s)

/-- `PADDED_SIZE` (rule R120). -/
def execPaddedSize (size : U32) (bsz : U16) (s : State) : Host.Outcome State Fault Refusal :=
  s.command fun s =>
    match blockSize bsz with
    | none => .next (s.progFault .range)
    | some b => .next (s.returns (.padded (BitVec.ofNat 33 (paddedSize size.toNat (blockBytes b)))))

/-- `READ_FRAME` (rule R122). -/
def execReadFrame (s : State) : Host.Outcome State Fault Refusal :=
  s.command fun s =>
    if s.fvalid then
      match s.memRead .frame 0 s.flen with
      | .error f => .fault f
      | .ok bs => .next (s.returns (.bytes bs))
    else .next (s.progFault .noFrame)

end Sys2Proof.Machine
end

