-- ==== Sys2Proof/Machine/Transport.lean ====
section
/-! DEFINITION. The block transport commands of `41_block_transport.md` (rules R130 to R151). -/

namespace Sys2Proof.Machine

/-- Whether a response is pending: `STATE ∈ {AwaitingAck, ReceivingBlocks}` (rules R130, R140). -/
def Phase.pending (p : Phase) : Bool :=
  decide (p = .awaitingAck) || decide (p = .receivingBlocks)

/-! Writing a frame. -/

/-- The start of a request (rule R130): the registers cleared, the opcode kept, `Writing`. -/
def State.openRequest (s : State) (op : Byte) : State :=
  { s with err := .noError, warn := false, alen := 0, reqOp := op, st := .writing }

/-- The one stream call of `WRITE_FRAME` and what its answer leads to (rule R130). -/
def sendFrame (op : Byte) (bs : List Byte) (s : State) : State :=
  let (a, s) := State.streamWrite { s with fvalid := false } bs
  if a.err ≠ .ok then s.fail .writeError
  else if a.n < s.flen then s.fail .shortWrite
  else State.returnsPhase
    { s with st := if op = s.cfg.opGet then .awaitingAck else .receivingBlocks }

/-- `WRITE_FRAME` past the gate (rules R130, R131). -/
def writeFrame (s : State) : Host.Outcome State Fault Refusal :=
  if s.st.pending then .next (s.progFault .busy)
  else if s.fvalid = false then .next (s.progFault .noFrame)
  else
    match s.memRead .frame 4 1 with
    | .error f => .fault f
    | .ok head =>
      let op := byteAt head 0
      if op ≠ s.cfg.opGet ∧ op ≠ s.cfg.opVget then .next (s.progFault .unsupported)
      else
        let s := s.openRequest op
        match s.memRead .frame 0 s.flen with
        | .error f => .fault f
        | .ok bs => .next (sendFrame op bs s)

/-! Reading one block. -/

/-- The loop of `READ_EXACT` (rule R135). Every read that does not end it returns a byte, so `b`
rounds always suffice (rule R157). -/
def fillBlock : Nat → Nat → State → ExactOutcome × State
  | 0, _, s => (.full, s)
  | k + 1, b, s =>
    if s.bfill < b then
      let (a, s) := s.streamRead (b - s.bfill)
      if a.err ≠ .ok then (.readErr, s)
      else if a.bytes = [] then (.timeout, s)
      else fillBlock k b
        { s.memWrite .blk s.bfill a.bytes with bfill := s.bfill + a.bytes.length }
    else (.full, s)

/-- `READ_EXACT(B)` (rule R135). -/
def readExact (b : Nat) (s : State) : ExactOutcome × State := fillBlock b b { s with bfill := 0 }

/-! Reading a response. -/

/-- How the data loop of rule R141 ends. -/
inductive Assembly where
  /-- A read failed; the request fails. -/
  | readFailed
  /-- The padded size is reached, or a read timed out. -/
  | ended
deriving DecidableEq, Repr

/-- `MemWrite(ACC, ALEN, …)` and the new `ALEN` (rule R141). -/
def State.appendAcc (s : State) (bs : List Byte) : State :=
  { s.memWrite .acc s.alen bs with alen := s.alen + bs.length }

/-- The data loop of `READ_RESPONSE` (rule R141); every full block adds `b` bytes, so `p / b`
rounds always suffice (rule R144 (e)). -/
def collectBlocks : Nat → Nat → Nat → State → Except Fault (Assembly × State)
  | 0, _, _, s => .ok (.ended, s)
  | k + 1, b, p, s =>
    if s.alen < p then
      let (r, s) := readExact b s
      match r with
      | .readErr => .ok (.readFailed, s)
      | .timeout =>
        match s.memRead .blk 0 s.bfill with
        | .error f => .error f
        | .ok bs => .ok (.ended, s.appendAcc bs)
      | .full =>
        match s.memRead .blk 0 s.bfill with
        | .error f => .error f
        | .ok bs => collectBlocks k b p (s.appendAcc bs)
    else .ok (.ended, s)

/-- The successful end of a response (rule R142). -/
def completeRequest (e : U32) (s : State) : State :=
  State.returnsPhase ({ s with rlen := e, st := .complete }.emit (.complete e))

/-- The end of assembly (rule R142). -/
def finishResponse (e : U32) (p : Nat) (s : State) : State :=
  if s.alen < e.toNat then s.fail .shortResponse
  else if s.alen ≠ p then
    let s := { s with warn := true }.emit (.mismatch s.alen p)
    if s.cfg.mismatchIsError then s.fail .mismatch else completeRequest e s
  else completeRequest e s

/-- The data blocks and the end of a response (rules R141, R142). -/
def receiveData (e : U32) (b p : Nat) (s : State) : Host.Outcome State Fault Refusal :=
  match collectBlocks (p / b) b p s with
  | .error f => .fault f
  | .ok (.readFailed, s) => .next (s.fail .readError)
  | .ok (.ended, s) => .next (finishResponse e p s)

/-- The request registers of a response (rule R140). -/
def State.openResponse (s : State) (e : U32) (b p : Nat) : State :=
  { s with reqE := e, reqB := b, reqP := BitVec.ofNat 33 p, alen := 0 }

/-- The ack block of a GET, and the rest of the response (rule R140). -/
def receiveAck (e : U32) (b p : Nat) (s : State) : Host.Outcome State Fault Refusal :=
  let (r, s) := readExact b s
  match r with
  | .readErr => .next (s.fail .readError)
  | .timeout => .next (s.fail .ackTimeout)
  | .full => receiveData e b p { s with st := .receivingBlocks }

/-- `READ_RESPONSE` past the gate (rules R140 to R142). -/
def readResponse (e : U32) (bsz : U16) (s : State) : Host.Outcome State Fault Refusal :=
  if s.st.pending = false then .next (s.progFault .notPending)
  else
    match blockSize bsz with
    | none => .next (s.progFault .range)
    | some b =>
      if e.toNat < 1 then .next (s.progFault .range)
      else
        let p := paddedSize e.toNat (blockBytes b)
        if s.cfg.accCap < p then .next (s.progFault .capacity)
        else
          let s := s.openResponse e (blockBytes b) p
          if s.st = .awaitingAck then receiveAck e (blockBytes b) p s
          else receiveData e (blockBytes b) p s

/-! The commands. -/

/-- `WRITE_FRAME` (rules R130, R131). -/
def execWriteFrame (s : State) : Host.Outcome State Fault Refusal := s.command writeFrame

/-- `READ_EXACT` (rule R135), run by itself: it returns its outcome. -/
def execReadExact (b : BlockSize) (s : State) : Host.Outcome State Fault Refusal :=
  s.command fun s =>
    let (r, s) := readExact (blockBytes b) s
    .next (s.returns (.exact r))

/-- `READ_RESPONSE` (rules R140 to R142). -/
def execReadResponse (e : U32) (bsz : U16) (s : State) : Host.Outcome State Fault Refusal :=
  s.command (readResponse e bsz)

/-- `READ_RESULT` (rule R150). -/
def execReadResult (off cnt : U32) (s : State) : Host.Outcome State Fault Refusal :=
  s.command fun s =>
    if s.st ≠ .complete then .next (s.progFault .noResult)
    else if s.rlen.toNat < off.toNat + cnt.toNat then .next (s.progFault .range)
    else
      match s.memRead .acc off.toNat cnt.toNat with
      | .error f => .fault f
      | .ok bs => .next (s.returns (.bytes bs))

/-- `READ_STATUS` (rule R151), the one command that runs when `PERR = 1` (rule R172). -/
def execReadStatus (s : State) : Host.Outcome State Fault Refusal :=
  .next (s.returns (.status s.status))

end Sys2Proof.Machine
end

