-- ==== Sys2Proof/Machine/Transact.lean ====
section
/-! DEFINITION. The whole transactions of rules R155 and R156, as the expansions of rule R94. -/

namespace Sys2Proof.Machine

/-- `WRITE_FRAME` and, unless the request failed, `READ_RESPONSE e, bsz`, after an encode that
led to `s`; a fault of one part stops the rest (rules R94, R155, R156). -/
def transact (e : U32) (bsz : U16) (s : State) : Host.Outcome State Fault Refusal :=
  if s.perr then .next s
  else
    match writeFrame s with
    | .next s' => if s'.perr || decide (s'.st = .failed) then .next s' else readResponse e bsz s'
    | .fault f => .fault f
    | .refused r => .refused r

/-- `TRANSACT_GET` (rule R155). -/
def execTransactGet (addr size : U32) (s : State) : Host.Outcome State Fault Refusal :=
  s.command fun s => transact size 512 (buildGet addr size s)

/-- `TRANSACT_VGET` (rule R156). -/
def execTransactVget (slots : List (U32 × U32)) (s : State) : Host.Outcome State Fault Refusal :=
  s.command fun s => transact (BitVec.ofNat 32 (slotTotal slots)) 64 (buildVget slots s)

end Sys2Proof.Machine
end

