-- ==== Sys2Proof/Machine/Wire.lean ====
section
/-! DEFINITION. The three wire frames of the opcode table (rules R72 to R74). The block meets a
wire frame as the operand of its frame decoder (rules R115 to R117), so that is what each one
does: its bytes go to the decoder, with its length (log entry 8). -/

namespace Sys2Proof.Machine

/-- A GET frame (rule R73) given to the decoder. -/
def execGetWireFrame (space flags : Byte) (pre : List Byte) (size addr : U32) (post : List Byte)
    (s : State) : Host.Outcome State Fault Refusal :=
  s.command fun s => .next (examine (getFrame s.cfg.opGet space flags pre size addr post) s)

/-- A VGET frame (rule R72) given to the decoder. -/
def execVgetWireFrame (space flags : Byte) (pre : List Byte) (slots : List (Byte × U24))
    (s : State) : Host.Outcome State Fault Refusal :=
  s.command fun s => .next (examine (vgetFrame s.cfg.opVget space flags pre slots) s)

/-- An IOVM_EXEC frame (rule R74) given to the decoder. -/
def execIovmWireFrame (op space flags : Byte) (prog tail : List Byte) (s : State) :
    Host.Outcome State Fault Refusal :=
  s.command fun s => .next (examine (iovmFrame op space flags prog tail) s)

end Sys2Proof.Machine
end

