-- ==== Sys2Proof/Machine/Dispatch.lean ====
section
/-! DEFINITION. One arm for each row of the opcode table. -/

namespace Sys2Proof.Machine

/-- The meaning of an instruction. -/
def exec (i : Instr) (s : State) : Host.Outcome State Fault Refusal :=
  match i with
  | .encodeVget slots => Sys2Proof.Machine.execEncodeVget slots s
  | .encodeVgetContig addr chunk count => Sys2Proof.Machine.execEncodeVgetContig addr chunk count s
  | .encodeGet addr size => Sys2Proof.Machine.execEncodeGet addr size s
  | .encodeIovm flen prog => Sys2Proof.Machine.execEncodeIovm flen prog s
  | .decodeFrame bytes => Sys2Proof.Machine.execDecodeFrame bytes s
  | .paddedSize size bsz => Sys2Proof.Machine.execPaddedSize size bsz s
  | .readFrame => Sys2Proof.Machine.execReadFrame s
  | .writeFrame => Sys2Proof.Machine.execWriteFrame s
  | .readResponse e bsz => Sys2Proof.Machine.execReadResponse e bsz s
  | .readResult off cnt => Sys2Proof.Machine.execReadResult off cnt s
  | .readStatus => Sys2Proof.Machine.execReadStatus s
  | .transactGet addr size => Sys2Proof.Machine.execTransactGet addr size s
  | .transactVget slots => Sys2Proof.Machine.execTransactVget slots s
  | .readExact b => Sys2Proof.Machine.execReadExact b s
  | .getWireFrame space flags pre size addr post => Sys2Proof.Machine.execGetWireFrame space flags pre size addr post s
  | .vgetWireFrame space flags pre slots => Sys2Proof.Machine.execVgetWireFrame space flags pre slots s
  | .iovmWireFrame op space flags prog tail => Sys2Proof.Machine.execIovmWireFrame op space flags prog tail s

end Sys2Proof.Machine
end

