-- ==== Sys2Proof/Machine/HostPort.lean ====
section
/-! DEFINITION. What the block does with one input of the outside world (rules R90, R92, R195). -/

namespace Sys2Proof.Machine

/-- A command record: its instruction, or `ProgFault(ILLEGAL_CMD)` for a code that is not in the
table (rule R92), which `PERR = 1` bars like every command (rule R172). -/
def runCommand (record : List Byte) (s : State) : Host.Outcome State Fault Refusal :=
  match decode s.cfg (.command record) with
  | .ok i => exec i s
  | .error (.illegalCode _) => s.command fun s => .next (s.progFault .illegalCmd)
  | .error _ => .refused .malformedRecord

/-- A wire frame: its instruction; bytes that are none of the three frames get the decoder's
verdict all the same (rule R80). -/
def runFrame (bytes : List Byte) (s : State) : Host.Outcome State Fault Refusal :=
  match decode s.cfg (.frame bytes) with
  | .ok i => exec i s
  | .error _ =>
    if bytes.length < 2 ^ 16 then exec (.decodeFrame bytes) s else .refused .malformedRecord

/-- One input. -/
def runInput (i : HostInput) (s : State) : Host.Outcome State Fault Refusal :=
  match i with
  | .command record => runCommand record s
  | .frame bytes => runFrame bytes s
  | .reset => .next s.hardReset
  | .cutCommand record calls =>
    match runCommand record s with
    | .next s' => .next (s.cutBy s' calls)
    | .fault f => .fault f
    | .refused r => .refused r

/-- The block between commands: the next input, if there is one; else nothing happens (rules
R90, R196). -/
def runNext (s : State) : Host.Outcome State Fault Refusal :=
  match s.inbox with
  | [] => .next s
  | i :: rest => runInput i { s with inbox := rest }

end Sys2Proof.Machine
end

