-- ==== Sys2Proof/Machine/Step.lean ====
section
/-! DEFINITION. One step of the machine, and the placement of a table word where the step takes
its next instruction. -/

namespace Sys2Proof.Machine

/-- One step: the block takes its next input and executes it to its end (rule R90). -/
def step (s : State) : Host.Outcome State Fault Refusal := runNext s

/-- The table word `w` of `nbits` bits as the next input. -/
def State.withFetchWord (s : State) (nbits w : Nat) : State :=
  { s with inbox := tableInput nbits w :: s.inbox }

end Sys2Proof.Machine
end

