-- ==== Sys2Proof/Laws/PerInstr.lean ====
section
/-! SUPPORT. The per-instruction family `Coded`: the encoding of an instruction begins with the
match value its row of the opcode table gives, and only `READ_EXACT` has no encoding. -/

namespace Sys2Proof.Laws

open Sys2Proof.Machine

/-- The bytes an input hands the block. -/
def inputBytes : HostInput → List Byte
  | .command record => record
  | .frame bytes => bytes
  | .reset => []
  | .cutCommand record _ => record

/-- The match column of the opcode table, with the opcode codes of `c`: the command code of
rule R91, or bytes 0..4 of a wire frame. -/
def tableMatch (c : Config) : Instr → Option (List Byte)
  | .encodeVget _ => some [0x01]
  | .encodeVgetContig _ _ _ => some [0x02]
  | .encodeGet _ _ => some [0x03]
  | .encodeIovm _ _ => some [0x04]
  | .decodeFrame _ => some [0x05]
  | .paddedSize _ _ => some [0x06]
  | .readFrame => some [0x07]
  | .writeFrame => some [0x10]
  | .readResponse _ _ => some [0x11]
  | .readResult _ _ => some [0x12]
  | .readStatus => some [0x13]
  | .transactGet _ _ => some [0x20]
  | .transactVget _ => some [0x21]
  | .readExact _ => none
  | .getWireFrame _ _ _ _ _ _ => some [0x55, 0x53, 0x42, 0x41, c.opGet]
  | .vgetWireFrame _ _ _ _ => some [0x55, 0x53, 0x42, 0x41, c.opVget]
  | .iovmWireFrame op _ _ _ _ => some [0x55, 0x53, 0x42, 0x41, op]

/-- The encoding of `i` exists exactly when the table gives its row a match value, and begins
with it. -/
def Coded.Statement (i : Instr) : Prop :=
  ∀ c, match tableMatch c i with
    | none => encode c i = none
    | some m => ∃ inp, encode c i = some inp ∧ (inputBytes inp).take m.length = m

theorem Coded.encodeVget (slots : List (U32 × U32)) : Coded.Statement (.encodeVget slots) :=
  fun _ => ⟨_, rfl, rfl⟩
theorem Coded.encodeVgetContig (addr chunk : U32) (count : Byte) :
    Coded.Statement (.encodeVgetContig addr chunk count) := fun _ => ⟨_, rfl, rfl⟩
theorem Coded.encodeGet (addr size : U32) : Coded.Statement (.encodeGet addr size) :=
  fun _ => ⟨_, rfl, rfl⟩
theorem Coded.encodeIovm (flen : U16) (prog : List Byte) :
    Coded.Statement (.encodeIovm flen prog) := fun _ => ⟨_, rfl, rfl⟩
theorem Coded.decodeFrame (bytes : List Byte) : Coded.Statement (.decodeFrame bytes) :=
  fun _ => ⟨_, rfl, rfl⟩
theorem Coded.paddedSize (size : U32) (bsz : U16) : Coded.Statement (.paddedSize size bsz) :=
  fun _ => ⟨_, rfl, rfl⟩
theorem Coded.readFrame : Coded.Statement .readFrame := fun _ => ⟨_, rfl, rfl⟩
theorem Coded.writeFrame : Coded.Statement .writeFrame := fun _ => ⟨_, rfl, rfl⟩
theorem Coded.readResponse (e : U32) (bsz : U16) : Coded.Statement (.readResponse e bsz) :=
  fun _ => ⟨_, rfl, rfl⟩
theorem Coded.readResult (off cnt : U32) : Coded.Statement (.readResult off cnt) :=
  fun _ => ⟨_, rfl, rfl⟩
theorem Coded.readStatus : Coded.Statement .readStatus := fun _ => ⟨_, rfl, rfl⟩
theorem Coded.transactGet (addr size : U32) : Coded.Statement (.transactGet addr size) :=
  fun _ => ⟨_, rfl, rfl⟩
theorem Coded.transactVget (slots : List (U32 × U32)) : Coded.Statement (.transactVget slots) :=
  fun _ => ⟨_, rfl, rfl⟩
theorem Coded.readExact (b : BlockSize) : Coded.Statement (.readExact b) := fun _ => rfl
theorem Coded.getWireFrame (space flags : Byte) (pre : List Byte) (size addr : U32)
    (post : List Byte) : Coded.Statement (.getWireFrame space flags pre size addr post) :=
  fun _ => ⟨_, rfl, rfl⟩
theorem Coded.vgetWireFrame (space flags : Byte) (pre : List Byte) (slots : List (Byte × U24)) :
    Coded.Statement (.vgetWireFrame space flags pre slots) := fun _ => ⟨_, rfl, rfl⟩
theorem Coded.iovmWireFrame (op space flags : Byte) (prog tail : List Byte) :
    Coded.Statement (.iovmWireFrame op space flags prog tail) := fun _ => ⟨_, rfl, rfl⟩

end Sys2Proof.Laws
end

