-- ==== Sys2Proof/Safety.lean ====
section
/-! DEFINITION. The terms claims are stated in: the invariant of the states between two inputs,
legal events, the bytes a well-behaved stream is about to deliver, and the stream calls a piece
of history records. -/

namespace Sys2Proof.Machine

/-- The first `n` addresses of a buffer hold a byte each. -/
abbrev Memory.filled (m : Memory) (n : Nat) : Prop := ∀ a, a < n → (m.read a).isSome = true

/-- An event that some stream answer within the bounds of rules R58 and R59, or some outcome of
rules R142, R171 and R172, can produce. -/
def Event.legal : Event → Prop
  | .write bs n err => (bs.length = 64 ∨ bs.length = 512) ∧ (err = .ok → n ≤ bs.length)
  | .read m bytes _ => 1 ≤ m ∧ m ≤ 512 ∧ bytes.length ≤ m
  | .mismatch alen p => alen < p
  | .complete e => 1 ≤ e.toNat
  | .fail c => c ≠ .noError
  | .progFault c => c ≠ .noFault

/-- What holds of the block between two inputs, in every configuration rule R8 admits. -/
structure State.Inv (s : State) : Prop where
  /-- The constraints of rule R8. -/
  cfgValid : s.cfg.Valid
  /-- The buffers are in canonical form and hold bytes only within their size (rule R50). -/
  frameWf : s.frame.wf
  blkWf : s.blk.wf
  accWf : s.acc.wf
  frameBelow : s.frame.below 512
  blkBelow : s.blk.below 512
  accBelow : s.acc.below s.cfg.accCap
  /-- `FLEN` is 0, 64 or 512 (rule R24). -/
  flenLegal : s.flen = 0 ∨ s.flen = 64 ∨ s.flen = 512
  /-- An unsent frame is one the decoder accepts, its unused bytes zero (rules R24, R118). -/
  frameHeld : s.fvalid = true → ∃ bs, s.memRead .frame 0 s.flen = .ok bs ∧
    checkFrame s.cfg bs = .ok ∧ zeroOk s.cfg bs = true
  /-- `BLK[0:BFILL]` holds received bytes (rule R25). -/
  bfillLe : s.bfill ≤ 512
  blkHeld : s.blk.filled s.bfill
  /-- `ACC[0:ALEN]` holds received bytes, and `ALEN ≤ REQ_P ≤ ACC_CAP` (rules R26, R144). -/
  accHeld : s.acc.filled s.alen
  alenLe : s.alen ≤ s.reqP.toNat
  reqPLe : s.reqP.toNat ≤ s.cfg.accCap
  /-- `REQ_P = paddedSize(REQ_E, REQ_B)` (rule R27). -/
  reqBLegal : s.reqB = 0 ∨ s.reqB = 64 ∨ s.reqB = 512
  reqPadded : s.reqP.toNat = paddedSize s.reqE.toNat s.reqB
  /-- `Writing` lasts only within a command (rule R130). -/
  notWriting : s.st ≠ .writing
  /-- `ERR` is a cause exactly in `Failed` (rule R29). -/
  failedErr : s.st = .failed ↔ s.err ≠ .noError
  /-- In `Complete` the result is there in full (rule R28). -/
  completeResult : s.st = .complete → s.rlen = s.reqE ∧ 1 ≤ s.rlen.toNat ∧ s.rlen.toNat ≤ s.alen
  /-- A pending request is one whose opcode fits its state (rules R23, R130). -/
  ackIsGet : s.st = .awaitingAck → s.reqOp = s.cfg.opGet
  blocksIsVget : s.st = .receivingBlocks → s.reqOp = s.cfg.opVget
  /-- The warning is up only after an assembly that fell short of the padded size (rule R30). -/
  warnEnded : s.warn = true → s.alen < s.reqP.toNat ∧
    (s.st = .complete ∨ (s.st = .failed ∧ s.err = .mismatch))
  /-- `PCAUSE` is a cause exactly when `PERR` is set (rule R31). -/
  faultCause : s.perr = true ↔ s.pcause ≠ .noFault
  /-- The decode registers are those of reset or of some decode (rule R32). -/
  decRegs : s.dec = DecodeRegs.cleared .noDecode none ∨ ∃ bs, s.dec = decodedRegs s.cfg bs
  /-- Every recorded event is one the rules can produce. -/
  histLegal : ∀ e ∈ s.hist, e.legal

/-- The bytes a stream delivers, read after read, before its first timeout or error (rule R60). -/
def deliverable : List ReadAnswer → List Byte
  | [] => []
  | a :: rest => if a.err = .ok ∧ a.bytes ≠ [] then a.bytes ++ deliverable rest else []

/-- The answers that stand after the bytes a stream is about to deliver. -/
def undelivered : List ReadAnswer → List ReadAnswer
  | [] => []
  | a :: rest => if a.err = .ok ∧ a.bytes ≠ [] then undelivered rest else a :: rest

/-- A read call of a block of `b` bytes, as the history records it. -/
def blockRead (b : Nat) (e : Event) : Prop :=
  ∃ m bytes err, e = .read m bytes err ∧ 1 ≤ m ∧ m ≤ b ∧ bytes.length ≤ m

/-- The event is a stream call. -/
def Event.isCall : Event → Bool
  | .write _ _ _ => true
  | .read _ _ _ => true
  | _ => false

/-- How many stream calls a piece of history records. -/
def streamCalls (es : List Event) : Nat := (es.filter Event.isCall).length

/-- The event is a write to the stream. -/
def Event.isWrite : Event → Bool
  | .write _ _ _ => true
  | _ => false

/-- The response bytes a piece of history records as received, in order; those of a failed read
are none (rule R59). -/
def received : List Event → List Byte
  | [] => []
  | .read _ bytes .ok :: es => bytes ++ received es
  | _ :: es => received es

/-- How many response bytes a piece of history records as received without error. -/
def bytesRead (es : List Event) : Nat := (received es).length

/-- Every event is a read that returned bytes without error. -/
def delivering (es : List Event) : Prop := ∀ x ∈ es, ∃ m bytes, x = .read m bytes .ok ∧ bytes ≠ []

/-- Each read asks for exactly the bytes still missing in its block of `b` bytes, by what the
events before it received (rule R135). -/
def asksMissing (b : Nat) (es : List Event) : Prop :=
  ∀ pre m bytes err post, es = pre ++ .read m bytes err :: post → m = b - bytesRead pre % b

/-- The answers a piece of history records are those the stream gives, call after call (rules
R58, R59). -/
def Stream.gave : List Event → Stream → Prop
  | [], _ => True
  | .write bs n err :: es, t =>
    (t.write bs.length).1 = { n := n, err := err } ∧ Stream.gave es (t.write bs.length).2
  | .read m bytes err :: es, t =>
    (t.read m).1 = { bytes := bytes, err := err } ∧ Stream.gave es (t.read m).2
  | _ :: es, t => Stream.gave es t

/-- `beval` of rule R11: the number a byte string stands for, most significant byte first. -/
def beval (bs : List Byte) : Nat := bs.foldl (fun v b => v * 256 + b.toNat) 0

/-- Go on from the next state, if there is one. -/
def andThen (o : Host.Outcome State Fault Refusal)
    (f : State → Host.Outcome State Fault Refusal) : Host.Outcome State Fault Refusal :=
  match o with
  | .next s => f s
  | .fault r => .fault r
  | .refused r => .refused r

end Sys2Proof.Machine
end

