-- ==== Sys2Proof/Certificates/Slice0/Obligations.lean ====
section
/-! DEFINITION. The statements for the provers, each with the rule it formalises. A statement that
gives the next state as a record `{ s with … }` says at once what changes and that nothing else
does. Three things in these statements are the model's, not the spec's: the field `out`, where a
command leaves the result that rule R90 returns to the host (log entry 10), the field `inbox`, from
which a step takes what the host does next, in the record layout of log entry 7, and the stream's
given answers (log entry 6). -/

open Sys2Proof Sys2Proof.Machine

/-! Inputs, steps and encodings. -/

/-- Rule R90: a step takes the host's next command, or wire frame, and executes the instruction
it decodes to, in the state in which that input has been taken. (The input queue and the record
layout are the model's choice, log entry 7, and the port for wire frames is log entry 8.) -/
def Obligations.StepRunsDecodedInstruction : Prop :=
  ∀ (s : State) (rest : List HostInput) (i : Instr),
    (∀ record, s.inbox = .command record :: rest → decode s.cfg (.command record) = .ok i →
      step s = exec i { s with inbox := rest }) ∧
    (∀ bytes, s.inbox = .frame bytes :: rest → decode s.cfg (.frame bytes) = .ok i →
      step s = exec i { s with inbox := rest })

/-- Rules R90, R196: the block runs no command by itself. (That a step with no input changes
nothing is the model's choice, log entry 7.) -/
def Obligations.IdleBlockWaits : Prop :=
  ∀ s : State, s.inbox = [] → step s = .next s

/-- Rule R38: in every configuration the values reset leaves, and no byte in any buffer; the
machine's own reset state is that of the default configuration. (The zeros of `REQ_*` and `RLEN`
are the model's choice, log entry 1, and are not stated.) -/
def Obligations.ResetLeavesTheTableOfValues : Prop :=
  State.reset = State.resetWith Config.default ∧
  ∀ c : Config, let r := State.resetWith c
    r.cfg = c ∧ r.st = .idle ∧ r.flen = 0 ∧ r.fvalid = false ∧ r.bfill = 0 ∧ r.alen = 0 ∧
    r.err = .noError ∧ r.warn = false ∧ r.perr = false ∧ r.pcause = .noFault ∧
    r.dec = DecodeRegs.cleared .noDecode none ∧ r.dec.verdict.code = 0xFF ∧ r.hist = [] ∧
    r.status = 0x00000000 ∧
    ∀ a, r.frame.read a = none ∧ r.blk.read a = none ∧ r.acc.read a = none

/-- Rules R195, R197: the reset input puts every register and buffer at its reset value, clears a
fault, and leaves the stream and the coming inputs alone. (`REQ_*` and `RLEN`, which rule R38
leaves unspecified, take the model's value zero, log entry 1.) -/
def Obligations.ResetInputLeavesOnlyTheStream : Prop :=
  ∀ (s : State) (rest : List HostInput), s.inbox = .reset :: rest →
    step s = .next { State.resetWith s.cfg with stream := s.stream, inbox := rest }

/-- Rules R195, R197: a command that reset cuts after `k` of its stream calls has no effect but
those calls: the stream is the one the first `k` calls that the whole command records leave, be
the cut before the first of them, between two, or after the last, where it is the stream of the
whole command; a command code outside the table makes no call, so its cut is a plain reset. (Where
a reset can cut a command is the model's choice, log entry 13; `REQ_*` and `RLEN`, which rule R38
leaves unspecified, take the model's value zero, log entry 1; the record layout is log entry 7.) -/
def Obligations.CutCommandLeavesOnlyItsStreamCalls : Prop :=
  ∀ (s : State) (record : List Byte) (k : Nat) (rest : List HostInput),
    s.inbox = .cutCommand record k :: rest →
    (∀ i t, decodeCommand record = .ok i → exec i { s with inbox := rest } = .next t →
      ∃ es, t.hist = s.hist ++ es ∧
        step s = .next { State.resetWith s.cfg with
          stream := s.stream.replay k es, inbox := rest } ∧
        (k = 0 → s.stream.replay k es = s.stream) ∧
        (streamCalls es ≤ k → s.stream.replay k es = t.stream)) ∧
    (∀ code, decodeCommand record = .error (.illegalCode code) →
      step s = .next { State.resetWith s.cfg with stream := s.stream, inbox := rest })

/-- Rule R91: words written out from the table decode to the commands they stand for, in the
model's record layout (log entry 7). -/
def Obligations.WrittenRecordsDecode : Prop :=
  decode Config.default (.command [0x03, 0x00, 0xF5, 0x00, 0x00, 0x00, 0x00, 0x10, 0x00]) =
    .ok (.encodeGet 0x00F50000 0x00001000) ∧
  decode Config.default (.command [0x01, 0x02, 0, 0, 0, 0x10, 0, 0, 0, 0x20, 0, 0x7E, 0, 0,
    0, 0x7E, 0, 0x10]) = .ok (.encodeVget [(0x10, 0x7E0000), (0x20, 0x7E0010)]) ∧
  decode Config.default (.command [0x11, 0, 0, 0x10, 0x00, 0x02, 0x00]) =
    .ok (.readResponse 0x1000 0x200) ∧
  decode Config.default (.command [0x13]) = .ok .readStatus

/-- Rule R91: the record of every well-formed command decodes to it. (The record layout is the
model's choice, log entry 7.) -/
def Obligations.CommandRecordsDecodeBack : Prop :=
  ∀ (c : Config) (i : Instr) (record : List Byte), i.wf = true →
    encode c i = some (.command record) → decode c (.command record) = .ok i

/-- Rule R91: a record that decodes is exactly the record of a well-formed command. (The record
layout is the model's choice, log entry 7.) -/
def Obligations.CommandRecordsHaveOneReading : Prop :=
  ∀ (c : Config) (i : Instr) (record : List Byte), decode c (.command record) = .ok i →
    i.wf = true ∧ encode c i = some (.command record)

/-- Rules R72 to R74, R82: the bytes of every well-formed wire frame decode to it, whatever the
configured opcode codes. -/
def Obligations.WireFramesDecodeBack : Prop :=
  ∀ (c : Config) (i : Instr) (bytes : List Byte), c.Valid → i.wf = true →
    (∀ op space flags prog tail, i = .iovmWireFrame op space flags prog tail → c.opIovm = some op) →
    encode c i = some (.frame bytes) →
    decode c (.frame bytes) = .ok i ∧ (bytes.length = 64 ∨ bytes.length = 512)

/-- Rules R72 to R74: bytes that decode to a wire frame are exactly the bytes of that frame. -/
def Obligations.WireFramesHaveOneReading : Prop :=
  ∀ (c : Config) (i : Instr) (bytes : List Byte), decode c (.frame bytes) = .ok i →
    i.wf = true ∧ encode c i = some (.frame bytes)

/-- Rule R92: a command code outside the table raises `ProgFault(ILLEGAL_CMD)`, whatever bytes
follow it, unless the block has faulted already (rule R172). (That the code is the first byte of
the record is the model's choice, log entry 7.) -/
def Obligations.UnknownCodeRaisesIllegalCmd : Prop :=
  ∀ (s : State) (code : Byte) (operands : List Byte) (rest : List HostInput),
    s.inbox = .command (code :: operands) :: rest →
    code.toNat ∉ [0x01, 0x02, 0x03, 0x04, 0x05, 0x06, 0x07, 0x10, 0x11, 0x12, 0x13, 0x20, 0x21] →
    (s.perr = false → step s = .next { s with
      inbox := rest, perr := true, pcause := .illegalCmd,
      hist := s.hist ++ [.progFault .illegalCmd], out := none }) ∧
    (s.perr = true → step s = .next { s with inbox := rest, out := none })

/-- The model refuses nothing but an input that is no record of rule R91's format: the model's
choice, log entry 17. -/
def Obligations.OnlyMalformedInputsAreRefused : Prop :=
  ∀ (s : State) (r : Refusal), step s = .refused r →
    r = .malformedRecord ∧ ∃ input rest, s.inbox = input :: rest ∧
      ((∃ record, (input = .command record ∨ ∃ k, input = .cutCommand record k) ∧
          decodeCommand record = .error .malformedRecord) ∨
        ∃ bytes, input = .frame bytes ∧ 2 ^ 16 ≤ bytes.length)

/-! The frame codec. -/

/-- Rules R71, R72, R101: for operands in range `ENCODE_VGET` writes exactly the frame of rule
R72 and sets `FLEN` and `FVALID`. -/
def Obligations.EncodeVgetWritesTheFrame : Prop :=
  ∀ (s : State) (slots : List (U32 × U32)), s.perr = false →
    1 ≤ slots.length → slots.length ≤ 8 →
    (∀ p ∈ slots, 1 ≤ p.1.toNat ∧ p.1.toNat ≤ 0xFF ∧ p.2.toNat ≤ 0xFFFFFF) →
    ∃ m, exec (.encodeVget slots) s =
        .next { s with frame := m, flen := 64, fvalid := true, out := none } ∧
      m.read 0 = some 0x55 ∧ m.read 1 = some 0x53 ∧ m.read 2 = some 0x42 ∧ m.read 3 = some 0x41 ∧
      m.read 4 = some s.cfg.opVget ∧ m.read 5 = some s.cfg.spaceSnes ∧
      m.read 6 = some (s.cfg.flagData64b ||| s.cfg.flagNoResponse) ∧
      (∀ a, 7 ≤ a → a < 32 → m.read a = some 0) ∧
      (∀ i size addr, slots[i]? = some (size, addr) →
        m.read (32 + 4 * i) = some (BitVec.ofNat 8 size.toNat) ∧
        m.read (33 + 4 * i) = some (BitVec.ofNat 8 (addr.toNat / 65536)) ∧
        m.read (34 + 4 * i) = some (BitVec.ofNat 8 (addr.toNat / 256)) ∧
        m.read (35 + 4 * i) = some (BitVec.ofNat 8 addr.toNat)) ∧
      (∀ a, 32 + 4 * slots.length ≤ a → a < 64 → m.read a = some 0) ∧
      (∀ a, 64 ≤ a → m.read a = s.frame.read a)

/-- Rule R104: for operands in range `ENCODE_VGET_CONTIG` builds the VGET frame of `count` slots
of size `chunk`, slot `i` at `addr + i·chunk`. -/
def Obligations.EncodeVgetContigWritesThePieces : Prop :=
  ∀ (s : State) (addr chunk : U32) (count : Byte), s.perr = false →
    1 ≤ count.toNat → count.toNat ≤ 8 → 1 ≤ chunk.toNat → chunk.toNat ≤ 0xFF →
    addr.toNat + (count.toNat - 1) * chunk.toNat ≤ 0xFFFFFF →
    ∃ m, exec (.encodeVgetContig addr chunk count) s =
        .next { s with frame := m, flen := 64, fvalid := true, out := none } ∧
      m.read 0 = some 0x55 ∧ m.read 1 = some 0x53 ∧ m.read 2 = some 0x42 ∧ m.read 3 = some 0x41 ∧
      m.read 4 = some s.cfg.opVget ∧ m.read 5 = some s.cfg.spaceSnes ∧
      m.read 6 = some (s.cfg.flagData64b ||| s.cfg.flagNoResponse) ∧
      (∀ a, 7 ≤ a → a < 32 → m.read a = some 0) ∧
      (∀ i, i < count.toNat →
        m.read (32 + 4 * i) = some (BitVec.ofNat 8 chunk.toNat) ∧
        m.read (33 + 4 * i) = some (BitVec.ofNat 8 ((addr.toNat + i * chunk.toNat) / 65536)) ∧
        m.read (34 + 4 * i) = some (BitVec.ofNat 8 ((addr.toNat + i * chunk.toNat) / 256)) ∧
        m.read (35 + 4 * i) = some (BitVec.ofNat 8 (addr.toNat + i * chunk.toNat))) ∧
      (∀ a, 32 + 4 * count.toNat ≤ a → a < 64 → m.read a = some 0) ∧
      (∀ a, 64 ≤ a → m.read a = s.frame.read a)

/-- Rules R71, R73, R108: for operands in range `ENCODE_GET` writes exactly the frame of rule
R73 and sets `FLEN` and `FVALID`. -/
def Obligations.EncodeGetWritesTheFrame : Prop :=
  ∀ (s : State) (addr size : U32), s.perr = false → 1 ≤ size.toNat → addr.toNat ≤ 0xFFFFFF →
    ∃ m, exec (.encodeGet addr size) s =
        .next { s with frame := m, flen := 512, fvalid := true, out := none } ∧
      m.read 0 = some 0x55 ∧ m.read 1 = some 0x53 ∧ m.read 2 = some 0x42 ∧ m.read 3 = some 0x41 ∧
      m.read 4 = some s.cfg.opGet ∧ m.read 5 = some s.cfg.spaceSnes ∧ m.read 6 = some 0x00 ∧
      (∀ a, 7 ≤ a → a < 252 → m.read a = some 0) ∧
      m.read 252 = some (BitVec.ofNat 8 (size.toNat / 16777216)) ∧
      m.read 253 = some (BitVec.ofNat 8 (size.toNat / 65536)) ∧
      m.read 254 = some (BitVec.ofNat 8 (size.toNat / 256)) ∧
      m.read 255 = some (BitVec.ofNat 8 size.toNat) ∧
      m.read 256 = some 0 ∧
      m.read 257 = some (BitVec.ofNat 8 (addr.toNat / 65536)) ∧
      m.read 258 = some (BitVec.ofNat 8 (addr.toNat / 256)) ∧
      m.read 259 = some (BitVec.ofNat 8 addr.toNat) ∧
      (∀ a, 260 ≤ a → a < 512 → m.read a = some 0) ∧
      (∀ a, 512 ≤ a → m.read a = s.frame.read a)

/-- Rules R71, R74, R111: with both IOVM codes configured and a program that fits, `ENCODE_IOVM`
writes exactly the frame of rule R74, program bytes copied. -/
def Obligations.EncodeIovmWritesTheFrame : Prop :=
  ∀ (s : State) (flen : U16) (prog : List Byte) (op space : Byte), s.perr = false →
    s.cfg.opIovm = some op → s.cfg.iovmSpace = some space →
    (flen.toNat = 64 ∨ flen.toNat = 512) → 8 + prog.length ≤ flen.toNat → prog.length ≤ 255 →
    ∃ m, exec (.encodeIovm flen prog) s =
        .next { s with frame := m, flen := flen.toNat, fvalid := true, out := none } ∧
      m.read 0 = some 0x55 ∧ m.read 1 = some 0x53 ∧ m.read 2 = some 0x42 ∧ m.read 3 = some 0x41 ∧
      m.read 4 = some op ∧ m.read 5 = some space ∧ m.read 6 = some s.cfg.flagData64b ∧
      m.read 7 = some (BitVec.ofNat 8 prog.length) ∧
      (∀ i, i < prog.length → m.read (8 + i) = prog[i]?) ∧
      (∀ a, 8 + prog.length ≤ a → a < flen.toNat → m.read a = some 0) ∧
      (∀ a, flen.toNat ≤ a → m.read a = s.frame.read a)

/-- Rules R101, R104, R108, R111, R112, R172: outside their ranges the encoders raise `RANGE`, and
`ENCODE_IOVM` raises `UNSUPPORTED` first when a code is not configured; nothing else is written. -/
def Obligations.EncodersFaultOutOfRange : Prop :=
  ∀ s : State, s.perr = false →
    (∀ slots, slots.length < 1 ∨ 8 < slots.length ∨
      (∃ p ∈ slots, p.1.toNat < 1 ∨ 0xFF < p.1.toNat ∨ 0xFFFFFF < p.2.toNat) →
      exec (.encodeVget slots) s = .next { s with
        perr := true, pcause := .range, hist := s.hist ++ [.progFault .range], out := none }) ∧
    (∀ (addr chunk : U32) (count : Byte), count.toNat < 1 ∨ 8 < count.toNat ∨ chunk.toNat < 1 ∨
      0xFF < chunk.toNat ∨ 0xFFFFFF < addr.toNat + (count.toNat - 1) * chunk.toNat →
      exec (.encodeVgetContig addr chunk count) s = .next { s with
        perr := true, pcause := .range, hist := s.hist ++ [.progFault .range], out := none }) ∧
    (∀ (addr size : U32), size.toNat < 1 ∨ 0xFFFFFF < addr.toNat →
      exec (.encodeGet addr size) s = .next { s with
        perr := true, pcause := .range, hist := s.hist ++ [.progFault .range], out := none }) ∧
    (∀ flen prog, s.cfg.opIovm = none ∨ s.cfg.iovmSpace = none →
      exec (.encodeIovm flen prog) s = .next { s with
        perr := true, pcause := .unsupported, hist := s.hist ++ [.progFault .unsupported],
        out := none }) ∧
    (∀ (flen : U16) prog, s.cfg.opIovm ≠ none → s.cfg.iovmSpace ≠ none →
      (flen.toNat ≠ 64 ∧ flen.toNat ≠ 512) ∨ flen.toNat < 8 + prog.length ∨ 255 < prog.length →
      exec (.encodeIovm flen prog) s = .next { s with
        perr := true, pcause := .range, hist := s.hist ++ [.progFault .range], out := none })

/-- Rule R113: an encoder reads nothing but its operands and the configuration, so in any two
states of one configuration it builds byte-identical frames. -/
def Obligations.EncodersReadOnlyTheirOperands : Prop :=
  ∀ (s s' t t' : State) (i : Instr), s.cfg = s'.cfg →
    ((∃ slots, i = .encodeVget slots) ∨ (∃ a c n, i = .encodeVgetContig a c n) ∨
      (∃ a n, i = .encodeGet a n) ∨ (∃ f p, i = .encodeIovm f p)) →
    s.perr = false → s'.perr = false → exec i s = .next t → exec i s' = .next t' →
    t.perr = t'.perr ∧ (t.perr = false → t.flen = t'.flen ∧ t.fvalid = true ∧ t'.fvalid = true ∧
      ∀ a, a < t.flen → t.frame.read a = t'.frame.read a ∧ (t.frame.read a).isSome = true)

/-- Rule R118: decoding the frame an encoder built gives `OK`, `DEC_ZERO_OK = 1` and the operands
back, for every admitted operand list. -/
def Obligations.EncodedFramesDecodeBack : Prop :=
  ∀ s : State, s.cfg.Valid → s.perr = false →
    (∀ slots t, exec (.encodeVget slots) s = .next t → t.perr = false →
      ∃ bs u sizes addrs, t.memRead .frame 0 64 = .ok bs ∧ exec (.decodeFrame bs) t = .next u ∧
        u.dec.verdict = .ok ∧ u.dec.op = some s.cfg.opVget ∧ u.dec.space = some s.cfg.spaceSnes ∧
        u.dec.flags = some (s.cfg.flagData64b ||| s.cfg.flagNoResponse) ∧
        u.dec.zeroOk = some true ∧ u.dec.slotSize = some sizes ∧ u.dec.slotAddr = some addrs ∧
        ∀ i : Fin 8, (∀ size addr, slots[i.1]? = some (size, addr) →
            sizes[i].toNat = size.toNat ∧ addrs[i].toNat = addr.toNat) ∧
          (slots.length ≤ i.1 → sizes[i] = 0 ∧ addrs[i] = 0)) ∧
    (∀ addr size t, exec (.encodeGet addr size) s = .next t → t.perr = false →
      ∃ bs u, t.memRead .frame 0 512 = .ok bs ∧ exec (.decodeFrame bs) t = .next u ∧
        u.dec.verdict = .ok ∧ u.dec.size = some size ∧ u.dec.addr = some addr ∧
        u.dec.zeroOk = some true) ∧
    (∀ flen prog t, exec (.encodeIovm flen prog) s = .next t → t.perr = false →
      ∃ bs u plen, t.memRead .frame 0 flen.toNat = .ok bs ∧
        exec (.decodeFrame bs) t = .next u ∧ u.dec.verdict = .ok ∧ u.dec.plen = some plen ∧
        plen.toNat = prog.length ∧ u.dec.prog = some prog)

/-- Rule R116: which verdict a string gets, for each of the five. -/
def Obligations.DecodeVerdictsInOrder : Prop :=
  ∀ (s t : State) (bs : List Byte), s.cfg.Valid → s.perr = false →
    exec (.decodeFrame bs) s = .next t →
    let legal := bs.length = 64 ∨ bs.length = 512
    let usba := bs.take 4 = [0x55, 0x53, 0x42, 0x41]
    (t.dec.verdict = .badLength ↔ ¬ legal ∨ (usba ∧
      ((bs[4]? = some s.cfg.opVget ∧ bs.length ≠ 64) ∨
        (bs[4]? = some s.cfg.opGet ∧ bs.length ≠ 512)))) ∧
    (t.dec.verdict = .badMagic ↔ legal ∧ ¬ usba) ∧
    (t.dec.verdict = .badOpcode ↔ legal ∧ usba ∧ bs[4]? ≠ some s.cfg.opVget ∧
      bs[4]? ≠ some s.cfg.opGet ∧ bs[4]? ≠ s.cfg.opIovm) ∧
    (t.dec.verdict = .badProgramLength ↔ legal ∧ usba ∧ bs[4]? = s.cfg.opIovm ∧
      ∃ n, bs[7]? = some n ∧ bs.length < 8 + n.toNat) ∧
    (t.dec.verdict = .ok ↔ usba ∧
      ((bs[4]? = some s.cfg.opVget ∧ bs.length = 64) ∨
        (bs[4]? = some s.cfg.opGet ∧ bs.length = 512) ∨
        (legal ∧ bs[4]? = s.cfg.opIovm ∧ ∃ n, bs[7]? = some n ∧ 8 + n.toNat ≤ bs.length)))

/-- Rules R32, R79, R115: `DECODE_FRAME` writes the decode registers and returns the verdict; an
`OK` verdict fills the fields of its opcode from the frame's bytes, any other leaves every field
without a value. (That `DEC_LEN` holds the length given above 512 too, where rule R32 says 0..512,
is read from rule R115, log entry 15; the byte order of a slot's address is that of rules R72, R79
and R115, against vector L2.4, log entry 16.) -/
def Obligations.DecodeFrameWritesTheFields : Prop :=
  ∀ (s : State) (bs : List Byte), s.cfg.Valid → s.perr = false →
    ∃ d, exec (.decodeFrame bs) s = .next { s with dec := d, out := some (.verdict d.verdict) } ∧
      d.len = some bs.length ∧ d.verdict ≠ .noDecode ∧
      (d.verdict ≠ .ok → d = DecodeRegs.cleared d.verdict (some bs.length)) ∧
      (d.verdict = .ok → d.op = bs[4]? ∧ d.space = bs[5]? ∧ d.flags = bs[6]? ∧
        d.op.isSome = true ∧ d.space.isSome = true ∧ d.flags.isSome = true ∧
        d.zeroOk.isSome = true ∧
        (bs[4]? = some s.cfg.opVget → ∃ sizes addrs, d.slotSize = some sizes ∧
          d.slotAddr = some addrs ∧ d.size = none ∧ d.addr = none ∧ d.plen = none ∧
          d.prog = none ∧ ∀ i : Fin 8, bs[32 + 4 * i.1]? = some sizes[i] ∧
            addrs[i].toNat = beval ((bs.drop (33 + 4 * i.1)).take 3)) ∧
        (bs[4]? = some s.cfg.opGet → ∃ size addr, d.size = some size ∧ d.addr = some addr ∧
          d.slotSize = none ∧ d.slotAddr = none ∧ d.plen = none ∧ d.prog = none ∧
          size.toNat = beval ((bs.drop 252).take 4) ∧
          addr.toNat = beval ((bs.drop 256).take 4)) ∧
        (bs[4]? = s.cfg.opIovm → ∃ n, bs[7]? = some n ∧ d.plen = some n ∧
          d.prog = some ((bs.drop 8).take n.toNat) ∧ d.slotSize = none ∧ d.slotAddr = none ∧
          d.size = none ∧ d.addr = none))

/-- Rule R117: `DEC_ZERO_OK` is 1 or 0 after an `OK` verdict, and when it is 1, for each opcode. -/
def Obligations.ZeroOkExaminesTheUnusedBytes : Prop :=
  ∀ (s t : State) (bs : List Byte), s.cfg.Valid → s.perr = false →
    exec (.decodeFrame bs) s = .next t → t.dec.verdict = .ok →
    t.dec.zeroOk.isSome = true ∧
    (bs[4]? = some s.cfg.opVget → (t.dec.zeroOk = some true ↔
      (∀ a, 7 ≤ a → a < 32 → bs[a]? = some 0) ∧
      ∀ i, i < 8 → bs[32 + 4 * i]? = some 0 → bs[33 + 4 * i]? = some 0 ∧
        bs[34 + 4 * i]? = some 0 ∧ bs[35 + 4 * i]? = some 0)) ∧
    (bs[4]? = some s.cfg.opGet → (t.dec.zeroOk = some true ↔
      (∀ a, 7 ≤ a → a < 252 → bs[a]? = some 0) ∧ bs[256]? = some 0 ∧
      ∀ a, 260 ≤ a → a < 512 → bs[a]? = some 0)) ∧
    (bs[4]? = s.cfg.opIovm → (t.dec.zeroOk = some true ↔
      ∀ n a, bs[7]? = some n → 8 + n.toNat ≤ a → a < bs.length → bs[a]? = some 0))

/-- Rules R73, R115, R117: a GET frame given to the decoder leaves its own fields in the decode
registers. (That a wire frame is given to the decoder is the model's choice, log entry 8.) -/
def Obligations.GetWireFrameIsDecoded : Prop :=
  ∀ (s : State) (space flags : Byte) (pre : List Byte) (size addr : U32) (post : List Byte),
    s.cfg.Valid → s.perr = false → (Instr.getWireFrame space flags pre size addr post).wf = true →
    exec (.getWireFrame space flags pre size addr post) s = .next { s with
      dec := { DecodeRegs.cleared .ok (some 512) with
        op := some s.cfg.opGet, space := some space, flags := some flags,
        size := some size, addr := some addr,
        zeroOk := some (decide ((∀ x ∈ pre, x = 0) ∧ addr.toNat < 2 ^ 24 ∧ ∀ x ∈ post, x = 0)) }
      out := some (.verdict .ok) }

/-- Rules R72, R115, R117: a VGET frame given to the decoder leaves its own fields in the decode
registers. (That it is given to the decoder is the model's choice, log entry 8; a slot's address
follows the rules, not vector L2.4, log entry 16.) -/
def Obligations.VgetWireFrameIsDecoded : Prop :=
  ∀ (s : State) (space flags : Byte) (pre : List Byte) (slots : List (Byte × U24)),
    s.cfg.Valid → s.perr = false → (Instr.vgetWireFrame space flags pre slots).wf = true →
    ∃ sizes addrs, exec (.vgetWireFrame space flags pre slots) s = .next { s with
        dec := { DecodeRegs.cleared .ok (some 64) with
          op := some s.cfg.opVget, space := some space, flags := some flags,
          slotSize := some sizes, slotAddr := some addrs,
          zeroOk := some (decide ((∀ x ∈ pre, x = 0) ∧ ∀ p ∈ slots, p.1 = 0 → p.2 = 0)) }
        out := some (.verdict .ok) } ∧
      ∀ i : Fin 8, slots[i.1]? = some (sizes[i], addrs[i])

/-- Rules R74, R115, R117: an IOVM_EXEC frame of the configured code, given to the decoder, leaves
its program in the decode registers. (That it is given to the decoder is the model's choice, log
entry 8.) -/
def Obligations.IovmWireFrameIsDecoded : Prop :=
  ∀ (s : State) (op space flags : Byte) (prog tail : List Byte),
    s.cfg.Valid → s.perr = false → s.cfg.opIovm = some op →
    (Instr.iovmWireFrame op space flags prog tail).wf = true →
    exec (.iovmWireFrame op space flags prog tail) s = .next { s with
      dec := { DecodeRegs.cleared .ok (some (8 + prog.length + tail.length)) with
        op := some op, space := some space, flags := some flags,
        plen := some (BitVec.ofNat 8 prog.length), prog := some prog,
        zeroOk := some (decide (∀ x ∈ tail, x = 0)) }
      out := some (.verdict .ok) }

/-- Rule R120: `PADDED_SIZE` returns the least multiple of the block size that is at least the
size, in 33 bits; a block size other than 64 or 512 raises `RANGE`. -/
def Obligations.PaddedSizeReturnsTheLeastMultiple : Prop :=
  ∀ (s : State) (size : U32) (bsz : U16), s.perr = false →
    ((bsz.toNat = 64 ∨ bsz.toNat = 512) →
      ∃ p : U33, exec (.paddedSize size bsz) s = .next { s with out := some (.padded p) } ∧
        p.toNat = size.toNat / bsz.toNat * bsz.toNat +
          (if size.toNat % bsz.toNat ≠ 0 then bsz.toNat else 0) ∧
        bsz.toNat ∣ p.toNat ∧ size.toNat ≤ p.toNat ∧
        ∀ q, bsz.toNat ∣ q → size.toNat ≤ q → p.toNat ≤ q) ∧
    (bsz.toNat ≠ 64 → bsz.toNat ≠ 512 → exec (.paddedSize size bsz) s = .next { s with
      perr := true, pcause := .range, hist := s.hist ++ [.progFault .range], out := none })

/-- Rule R121: the laws (a) to (g) of `paddedSize`. -/
def Obligations.PaddedSizeLaws : Prop :=
  ∀ bsz, (bsz = 64 ∨ bsz = 512) → ∀ size,
    paddedSize size bsz % bsz = 0 ∧
    (size ≤ paddedSize size bsz ∧ paddedSize size bsz - size < bsz) ∧
    (paddedSize size bsz = (size + bsz - 1) / bsz * bsz ∧
      ∀ q, bsz ∣ q → size ≤ q → paddedSize size bsz ≤ q) ∧
    (paddedSize size bsz = size ↔ size % bsz = 0) ∧
    ((size < 2 ^ 32 → paddedSize size bsz ≤ 2 ^ 32) ∧
      paddedSize (2 ^ 32 - 1) bsz = 2 ^ 32) ∧
    paddedSize size 64 ≤ paddedSize size 512 ∧
    ∀ size', size ≤ size' → paddedSize size bsz ≤ paddedSize size' bsz

/-- Rule R122: `READ_FRAME` returns the unsent frame and changes nothing; without one it raises
`NO_FRAME`. -/
def Obligations.ReadFrameReturnsTheUnsentFrame : Prop :=
  ∀ s : State, s.perr = false →
    (s.fvalid = true → ∀ bs, s.flen ≤ 512 → bs.length = s.flen →
      (∀ a, a < s.flen → s.frame.read a = bs[a]?) →
      exec .readFrame s = .next { s with out := some (.bytes bs) }) ∧
    (s.fvalid = false → exec .readFrame s = .next { s with
      perr := true, pcause := .noFrame, hist := s.hist ++ [.progFault .noFrame], out := none })

/-! The stream. -/

/-- Rules R58, R59: the stream's answers are exactly the admitted ones: every answer of any stream
is within the bounds, every answer within the bounds is one that some stream gives, and a call
records itself and its answer. -/
def Obligations.StreamAnswersAreTheAdmittedOnes : Prop :=
  (∀ (t : Stream) (len : Nat), (t.write len).1.err = .ok → (t.write len).1.n ≤ len) ∧
  (∀ (t : Stream) (m : Nat), (t.read m).1.bytes.length ≤ m) ∧
  (∀ (len : Nat) (a : WriteAnswer), (a.err = .ok → a.n ≤ len) →
    ∃ t : Stream, (t.write len).1 = a) ∧
  (∀ (m : Nat) (a : ReadAnswer), a.bytes.length ≤ m → ∃ t : Stream, (t.read m).1 = a) ∧
  ∀ (s : State) (bs : List Byte) (m : Nat),
    (s.streamWrite bs).2.hist = s.hist ++
      [.write bs (s.streamWrite bs).1.n (s.streamWrite bs).1.err] ∧
    (s.streamRead m).2.hist = s.hist ++
      [.read m (s.streamRead m).1.bytes (s.streamRead m).1.err]

/-! The block transport. -/

/-- Rules R53, R56, R130: when the stream takes the whole frame, `WRITE_FRAME` has made one write
of exactly the frame's bytes, discarded the frame and opened the request in the state its opcode
chooses. -/
def Obligations.WriteFrameSendsTheFrame : Prop :=
  ∀ (s : State) (op : Byte) (bs : List Byte), s.perr = false →
    s.st ≠ .awaitingAck → s.st ≠ .receivingBlocks → s.fvalid = true →
    s.flen ≤ 512 → 5 ≤ s.flen → bs.length = s.flen →
    (∀ a, a < s.flen → s.frame.read a = bs[a]?) → bs[4]? = some op →
    (op = s.cfg.opGet ∨ op = s.cfg.opVget) →
    (s.stream.write s.flen).1 = { n := s.flen, err := .ok } →
    exec .writeFrame s = .next { s with
      err := .noError, warn := false, alen := 0, reqOp := op, fvalid := false
      st := if op = s.cfg.opGet then .awaitingAck else .receivingBlocks
      stream := (s.stream.write s.flen).2
      hist := s.hist ++ [.write bs s.flen .ok]
      out := some (.phase (if op = s.cfg.opGet then .awaitingAck else .receivingBlocks)) }

/-- Rules R130, R171, R176 (d): a write error fails the request with `WRITE_ERROR`, whatever the
count, and a short count with `SHORT_WRITE`; the frame is discarded all the same. -/
def Obligations.WriteFrameFailures : Prop :=
  ∀ (s : State) (op : Byte) (bs : List Byte) (n : Nat) (err : IoStatus), s.perr = false →
    s.st ≠ .awaitingAck → s.st ≠ .receivingBlocks → s.fvalid = true →
    s.flen ≤ 512 → 5 ≤ s.flen → bs.length = s.flen →
    (∀ a, a < s.flen → s.frame.read a = bs[a]?) → bs[4]? = some op →
    (op = s.cfg.opGet ∨ op = s.cfg.opVget) →
    (s.stream.write s.flen).1 = { n := n, err := err } →
    (err = .error → exec .writeFrame s = .next { s with
      err := .writeError, warn := false, alen := 0, reqOp := op, fvalid := false, st := .failed
      stream := (s.stream.write s.flen).2
      hist := s.hist ++ [.write bs n .error, .fail .writeError]
      out := some (.phase .failed) }) ∧
    (err = .ok → n < s.flen → exec .writeFrame s = .next { s with
      err := .shortWrite, warn := false, alen := 0, reqOp := op, fvalid := false, st := .failed
      stream := (s.stream.write s.flen).2
      hist := s.hist ++ [.write bs n .ok, .fail .shortWrite]
      out := some (.phase .failed) })

/-- Rules R130, R131, R176 (c): the faults of `WRITE_FRAME`, in order, each before any change. -/
def Obligations.WriteFrameFaultsInOrder : Prop :=
  ∀ s : State, s.perr = false →
    ((s.st = .awaitingAck ∨ s.st = .receivingBlocks) → exec .writeFrame s = .next { s with
      perr := true, pcause := .busy, hist := s.hist ++ [.progFault .busy], out := none }) ∧
    (s.st ≠ .awaitingAck → s.st ≠ .receivingBlocks →
      (s.fvalid = false → exec .writeFrame s = .next { s with
        perr := true, pcause := .noFrame, hist := s.hist ++ [.progFault .noFrame], out := none }) ∧
      (s.fvalid = true → ∀ op, s.frame.read 4 = some op → op ≠ s.cfg.opGet → op ≠ s.cfg.opVget →
        exec .writeFrame s = .next { s with
          perr := true, pcause := .unsupported, hist := s.hist ++ [.progFault .unsupported],
          out := none }))

/-- Rules R64, R200: while a response is pending no instruction, and no step whatever its input,
writes to the stream: no write is recorded and the stream keeps its answers to writes.
`WRITE_FRAME` and the transactions make no stream call at all and end faulted, the pending state
kept. (The stream's given answers are the model's, log entry 6, and so are the inputs of a step,
log entries 7, 8 and 13; `READ_EXACT` run by itself is log entry 14.) -/
def Obligations.OneOutstandingRequest : Prop :=
  ∀ s t : State, (s.st = .awaitingAck ∨ s.st = .receivingBlocks) →
    (∀ i, exec i s = .next t → t.stream.writes = s.stream.writes ∧
      ∃ es, t.hist = s.hist ++ es ∧ ∀ e ∈ es, e.isWrite = false) ∧
    (step s = .next t → t.stream.writes = s.stream.writes ∧
      ∀ e ∈ t.hist.drop s.hist.length, e.isWrite = false) ∧
    (∀ i, s.perr = false →
      (i = .writeFrame ∨ (∃ a n, i = .transactGet a n) ∨ ∃ slots, i = .transactVget slots) →
      exec i s = .next t →
      t.stream = s.stream ∧ t.st = s.st ∧ t.perr = true ∧ t.alen = s.alen ∧ t.reqOp = s.reqOp ∧
        ∃ c, t.hist = s.hist ++ [.progFault c])

/-- Rules R60, R135: on a stream with a whole block to deliver, `READ_EXACT` fills the block with
exactly the next bytes, in order, leaves the rest to the stream, and changes nothing else. (That
the micro-operation runs by itself and leaves its outcome in `out` is the model's choice, log
entry 14.) -/
def Obligations.ReadExactFillsTheBlock : Prop :=
  ∀ (s : State) (b : BlockSize), s.perr = false →
    blockBytes b ≤ (deliverable s.stream.reads).length →
    ∃ t, exec (.readExact b) s = .next t ∧
      t = { s with
        blk := t.blk, bfill := blockBytes b, hist := t.hist, stream := t.stream,
        out := some (.exact .full) } ∧
      (∀ a, a < blockBytes b → t.blk.read a = (deliverable s.stream.reads)[a]?) ∧
      (∀ a, blockBytes b ≤ a → t.blk.read a = s.blk.read a) ∧
      deliverable t.stream.reads = (deliverable s.stream.reads).drop (blockBytes b) ∧
      t.stream.writes = s.stream.writes

/-- Rules R135, R157: what `READ_EXACT` can do on any stream: each of its reads, at most `B`, asks
for exactly the bytes still missing, `B` less what the reads before it received; the answers
recorded are the stream's; `BLK[0:BFILL]` is exactly the bytes those reads returned without error,
in order, also when a timeout or an error ends it; every read but the last brings bytes, and each
outcome is the one its last read gives. (Run by itself: log entry 14; the stream whose answers are
recorded is the model's, log entry 6.) -/
def Obligations.ReadExactOutcomes : Prop :=
  ∀ (s : State) (b : BlockSize), s.perr = false →
    ∃ t es, exec (.readExact b) s = .next t ∧
      t = { s with
        blk := t.blk, bfill := t.bfill, hist := s.hist ++ es, stream := t.stream,
        out := t.out } ∧
      (∀ e ∈ es, blockRead (blockBytes b) e) ∧ streamCalls es ≤ blockBytes b ∧
      (∀ pre m bytes err post, es = pre ++ .read m bytes err :: post →
        m = blockBytes b - bytesRead pre) ∧ s.stream.gave es ∧
      t.bfill = (received es).length ∧ t.bfill ≤ blockBytes b ∧
      (∀ a, a < t.bfill → t.blk.read a = (received es)[a]?) ∧
      (∀ a, t.bfill ≤ a → t.blk.read a = s.blk.read a) ∧
      ((t.out = some (.exact .full) ∧ t.bfill = blockBytes b ∧ delivering es) ∨
        (t.out = some (.exact .timeout) ∧ t.bfill < blockBytes b ∧
          ∃ pre, es = pre ++ [.read (blockBytes b - t.bfill) [] .ok] ∧ delivering pre) ∨
        (t.out = some (.exact .readErr) ∧ t.bfill < blockBytes b ∧
          ∃ pre bytes, es = pre ++ [.read (blockBytes b - t.bfill) bytes .error] ∧
            delivering pre))

/-- Rule R145: if the stream delivers the ack block (after a GET) and the padded response, then
`READ_RESPONSE` completes with `RLEN = e` and no warning, `READ_RESULT` returns the `e` bytes that
follow the ack, and what the stream delivers beyond the padded size stays in the stream. -/
def Obligations.ReadResponseDeliversTheRequest : Prop :=
  ∀ (s : State) (e : U32) (bsz : U16), s.perr = false → s.warn = false →
    (s.st = .awaitingAck ∨ s.st = .receivingBlocks) → (bsz.toNat = 64 ∨ bsz.toNat = 512) →
    1 ≤ e.toNat → paddedSize e.toNat bsz.toNat ≤ s.cfg.accCap →
    let ack := if s.st = .awaitingAck then bsz.toNat else 0
    let p := paddedSize e.toNat bsz.toNat
    let ds := deliverable s.stream.reads
    ack + p ≤ ds.length →
    ∃ t es, exec (.readResponse e bsz) s = .next t ∧ t.st = .complete ∧ t.rlen = e ∧
      t.warn = false ∧ t.err = s.err ∧ t.perr = false ∧ t.alen = p ∧ t.reqE = e ∧
      t.reqB = bsz.toNat ∧ t.reqP.toNat = p ∧ t.out = some (.phase .complete) ∧
      t.hist = s.hist ++ es ++ [.complete e] ∧ (∀ x ∈ es, blockRead bsz.toNat x) ∧
      exec (.readResult 0 e) t =
        .next { t with out := some (.bytes ((ds.drop ack).take e.toNat)) } ∧
      deliverable t.stream.reads = ds.drop (ack + p)

/-- Rules R140 to R142, R187: when the stream delivers `n` data bytes, fewer than the padded size,
and then times out: with fewer than `e` the request fails `SHORT_RESPONSE`; else it completes with
the warning, or fails `MISMATCH` where a mismatch is an error. -/
def Obligations.ReadResponseEndsByTimeout : Prop :=
  ∀ (s : State) (e : U32) (bsz : U16) (n : Nat) (rest : List ReadAnswer), s.perr = false →
    (s.st = .awaitingAck ∨ s.st = .receivingBlocks) → (bsz.toNat = 64 ∨ bsz.toNat = 512) →
    1 ≤ e.toNat → paddedSize e.toNat bsz.toNat ≤ s.cfg.accCap →
    let ack := if s.st = .awaitingAck then bsz.toNat else 0
    let p := paddedSize e.toNat bsz.toNat
    let ds := deliverable s.stream.reads
    ds.length = ack + n → n < p → undelivered s.stream.reads = { bytes := [], err := .ok } :: rest →
    ∃ t es, exec (.readResponse e bsz) s = .next t ∧ t.alen = n ∧ t.stream.reads = rest ∧
      (∀ a, a < n → t.acc.read a = ds[ack + a]?) ∧ (∀ x ∈ es, blockRead bsz.toNat x) ∧
      (n < e.toNat → t.st = .failed ∧ t.err = .shortResponse ∧ t.warn = s.warn ∧
        t.hist = s.hist ++ es ++ [.fail .shortResponse]) ∧
      (e.toNat ≤ n → s.cfg.mismatchIsError = false → t.st = .complete ∧ t.rlen = e ∧
        t.warn = true ∧ t.err = s.err ∧ t.hist = s.hist ++ es ++ [.mismatch n p, .complete e]) ∧
      (e.toNat ≤ n → s.cfg.mismatchIsError = true → t.st = .failed ∧ t.err = .mismatch ∧
        t.warn = true ∧ t.hist = s.hist ++ es ++ [.mismatch n p, .fail .mismatch])

/-- Rules R140, R171: when the stream times out after fewer bytes than the ack block has, the
request fails `ACK_TIMEOUT`; what came of the ack is in `BLK`, and nothing is assembled. -/
def Obligations.ReadResponseEndsByAckTimeout : Prop :=
  ∀ (s : State) (e : U32) (bsz : U16) (rest : List ReadAnswer), s.perr = false →
    s.st = .awaitingAck → (bsz.toNat = 64 ∨ bsz.toNat = 512) →
    1 ≤ e.toNat → paddedSize e.toNat bsz.toNat ≤ s.cfg.accCap →
    let ds := deliverable s.stream.reads
    ds.length < bsz.toNat → undelivered s.stream.reads = { bytes := [], err := .ok } :: rest →
    ∃ t pre, exec (.readResponse e bsz) s = .next t ∧ t.st = .failed ∧ t.err = .ackTimeout ∧
      t.warn = s.warn ∧ t.rlen = s.rlen ∧ t.perr = false ∧ t.out = some (.phase .failed) ∧
      t.alen = 0 ∧ t.acc = s.acc ∧ t.bfill = ds.length ∧
      (∀ a, a < t.bfill → t.blk.read a = ds[a]?) ∧ t.stream.reads = rest ∧
      delivering pre ∧ (∀ x ∈ pre, blockRead bsz.toNat x) ∧ received pre = ds ∧
      t.hist = s.hist ++ pre ++
        [.read (bsz.toNat - ds.length) [] .ok, .fail .ackTimeout]

/-- Rules R140, R141, R171: when a read fails, in the ack block or in a data block, before the ack
and the padded response are there, the request fails `READ_ERROR`, whatever was received; only
the whole data blocks before it have reached `ACC`. -/
def Obligations.ReadResponseEndsByReadError : Prop :=
  ∀ (s : State) (e : U32) (bsz : U16) (bytes : List Byte) (rest : List ReadAnswer),
    s.perr = false → (s.st = .awaitingAck ∨ s.st = .receivingBlocks) →
    (bsz.toNat = 64 ∨ bsz.toNat = 512) →
    1 ≤ e.toNat → paddedSize e.toNat bsz.toNat ≤ s.cfg.accCap →
    let ack := if s.st = .awaitingAck then bsz.toNat else 0
    let ds := deliverable s.stream.reads
    ds.length < ack + paddedSize e.toNat bsz.toNat →
    undelivered s.stream.reads = { bytes := bytes, err := .error } :: rest →
    ∃ t pre m x, exec (.readResponse e bsz) s = .next t ∧ t.st = .failed ∧ t.err = .readError ∧
      t.warn = s.warn ∧ t.rlen = s.rlen ∧ t.perr = false ∧ t.out = some (.phase .failed) ∧
      t.alen = (ds.length - ack) / bsz.toNat * bsz.toNat ∧
      (∀ a, a < t.alen → t.acc.read a = ds[ack + a]?) ∧ t.stream.reads = rest ∧
      delivering pre ∧ (∀ x ∈ pre, blockRead bsz.toNat x) ∧
      t.hist = s.hist ++ pre ++ [.read m x .error, .fail .readError]

/-- Rules R140 to R142, R144, R171: on any stream, `READ_RESPONSE` with admitted operands ends in
one of its outcomes. Its events are the reads `ack` of the ack block (none for a VGET), the reads
`data` of the data blocks, and the closing events `tail`. Each read asks for exactly what is
missing in its block, the answers recorded are the stream's, and `ACC` holds the data received.
Every read but the last brings bytes, and so does the last of a full response; after a full ack
block, a timeout among the data gives `SHORT_RESPONSE` or the mismatch by the count, and within the
ack block `ACK_TIMEOUT`; a failed read gives `READ_ERROR` in either, the bytes of the unfinished
block not kept. (The stream whose answers are recorded is the model's, log entry 6.) -/
def Obligations.ReadResponseOutcomes : Prop :=
  ∀ (s : State) (e : U32) (bsz : U16), s.perr = false →
    (s.st = .awaitingAck ∨ s.st = .receivingBlocks) → (bsz.toNat = 64 ∨ bsz.toNat = 512) →
    1 ≤ e.toNat → paddedSize e.toNat bsz.toNat ≤ s.cfg.accCap →
    let b := bsz.toNat
    let p := paddedSize e.toNat b
    ∃ t ack data tail, exec (.readResponse e bsz) s = .next t ∧
      t.hist = s.hist ++ (ack ++ data) ++ tail ∧ s.stream.gave (ack ++ data) ∧
      (∀ x ∈ ack ++ data, blockRead b x) ∧ asksMissing b ack ∧ asksMissing b data ∧
      t.alen ≤ p ∧ (∀ a, a < t.alen → t.acc.read a = (received data)[a]?) ∧ t.reqE = e ∧
      t.reqB = b ∧ t.reqP.toNat = p ∧ t.perr = false ∧ t.out = some (.phase t.st) ∧
      (s.st = .receivingBlocks → ack = []) ∧
      let acked := s.st = .awaitingAck → delivering ack ∧ bytesRead ack = b
      let timedOut := fun es : List Event => ∃ pre m, es = pre ++ [.read m [] .ok] ∧ delivering pre
      let failed := fun es : List Event =>
        ∃ pre m bytes, es = pre ++ [.read m bytes .error] ∧ delivering pre
      ((t.st = .complete ∧ acked ∧ delivering data ∧ t.alen = bytesRead data ∧ t.alen = p ∧
          t.err = s.err ∧ t.rlen = e ∧ t.warn = s.warn ∧ tail = [.complete e]) ∨
        (t.st = .complete ∧ acked ∧ timedOut data ∧ t.alen = bytesRead data ∧ e.toNat ≤ t.alen ∧
          t.alen < p ∧ s.cfg.mismatchIsError = false ∧ t.err = s.err ∧ t.rlen = e ∧
          t.warn = true ∧ tail = [.mismatch t.alen p, .complete e]) ∨
        (t.st = .failed ∧ t.err = .mismatch ∧ acked ∧ timedOut data ∧ t.alen = bytesRead data ∧
          e.toNat ≤ t.alen ∧ t.alen < p ∧ s.cfg.mismatchIsError = true ∧ t.rlen = s.rlen ∧
          t.warn = true ∧ tail = [.mismatch t.alen p, .fail .mismatch]) ∨
        (t.st = .failed ∧ t.err = .shortResponse ∧ acked ∧ timedOut data ∧
          t.alen = bytesRead data ∧ t.alen < e.toNat ∧ t.rlen = s.rlen ∧ t.warn = s.warn ∧
          tail = [.fail .shortResponse]) ∨
        (t.st = .failed ∧ t.err = .ackTimeout ∧ s.st = .awaitingAck ∧ timedOut ack ∧ data = [] ∧
          bytesRead ack < b ∧ t.bfill = bytesRead ack ∧ t.alen = 0 ∧ t.rlen = s.rlen ∧
          t.warn = s.warn ∧ tail = [.fail .ackTimeout]) ∨
        (t.st = .failed ∧ t.err = .readError ∧
          ((s.st = .awaitingAck ∧ failed ack ∧ data = [] ∧ bytesRead ack < b ∧ t.alen = 0) ∨
            (acked ∧ failed data ∧ bytesRead data < p ∧ t.alen = bytesRead data / b * b)) ∧
          t.rlen = s.rlen ∧ t.warn = s.warn ∧ tail = [.fail .readError]))

/-- Rules R144 (d), R157: one `READ_RESPONSE` receives at most the ack block and the padded
response, in at most as many stream calls as bytes. -/
def Obligations.ReadResponseNeverOverreads : Prop :=
  ∀ (s t : State) (e : U32) (bsz : U16), s.perr = false →
    exec (.readResponse e bsz) s = .next t →
    ∃ es, t.hist = s.hist ++ es ∧
      bytesRead es ≤ (if s.st = .awaitingAck then bsz.toNat else 0) +
        paddedSize e.toNat bsz.toNat ∧
      streamCalls es ≤ (if s.st = .awaitingAck then bsz.toNat else 0) +
        paddedSize e.toNat bsz.toNat

/-- Rules R140, R176 (c): the faults of `READ_RESPONSE`, in order, each before any stream call. -/
def Obligations.ReadResponseFaultsInOrder : Prop :=
  ∀ (s : State) (e : U32) (bsz : U16), s.perr = false →
    (s.st ≠ .awaitingAck → s.st ≠ .receivingBlocks →
      exec (.readResponse e bsz) s = .next { s with
        perr := true, pcause := .notPending, hist := s.hist ++ [.progFault .notPending],
        out := none }) ∧
    ((s.st = .awaitingAck ∨ s.st = .receivingBlocks) →
      ((bsz.toNat ≠ 64 ∧ bsz.toNat ≠ 512) ∨ e.toNat < 1 →
        exec (.readResponse e bsz) s = .next { s with
          perr := true, pcause := .range, hist := s.hist ++ [.progFault .range], out := none }) ∧
      (bsz.toNat = 64 ∨ bsz.toNat = 512 → 1 ≤ e.toNat →
        s.cfg.accCap < paddedSize e.toNat bsz.toNat →
        exec (.readResponse e bsz) s = .next { s with
          perr := true, pcause := .capacity, hist := s.hist ++ [.progFault .capacity],
          out := none }))

/-- Rule R142 (status written): `READ_RESPONSE` leaves the frame registers, `REQ_OP`, the decode
registers and the configuration alone, `BLK` past one block and `ACC` past the padded size. -/
def Obligations.ReadResponseFrame : Prop :=
  ∀ (s t : State) (e : U32) (bsz : U16), exec (.readResponse e bsz) s = .next t →
    t = { s with
      st := t.st, blk := t.blk, bfill := t.bfill, acc := t.acc, alen := t.alen, reqE := t.reqE,
      reqB := t.reqB, reqP := t.reqP, rlen := t.rlen, err := t.err, warn := t.warn,
      perr := t.perr, pcause := t.pcause, hist := t.hist, stream := t.stream, out := t.out } ∧
    (∀ a, bsz.toNat ≤ a → t.blk.read a = s.blk.read a) ∧
    (∀ a, paddedSize e.toNat bsz.toNat ≤ a → t.acc.read a = s.acc.read a) ∧
    t.stream.writes = s.stream.writes

/-- Rule R150: in `Complete`, `READ_RESULT` returns the asked slice of the result and changes
nothing; its faults are `NO_RESULT`, then `RANGE`. -/
def Obligations.ReadResultReturnsTheSlice : Prop :=
  ∀ (s : State) (off cnt : U32), s.perr = false →
    (s.Inv → s.st = .complete → off.toNat + cnt.toNat ≤ s.rlen.toNat →
      ∃ bs, exec (.readResult off cnt) s = .next { s with out := some (.bytes bs) } ∧
        bs.length = cnt.toNat ∧ ∀ i, i < cnt.toNat → s.acc.read (off.toNat + i) = bs[i]?) ∧
    (s.st ≠ .complete → exec (.readResult off cnt) s = .next { s with
      perr := true, pcause := .noResult, hist := s.hist ++ [.progFault .noResult], out := none }) ∧
    (s.st = .complete → s.rlen.toNat < off.toNat + cnt.toNat →
      exec (.readResult off cnt) s = .next { s with
        perr := true, pcause := .range, hist := s.hist ++ [.progFault .range], out := none })

/-- Rules R33, R151: `READ_STATUS` executes in every state, even a faulted one, and returns the
word whose fields are the registers of rule R33's table, its reserved bits 0; it changes nothing.
After reset the word is 0. -/
def Obligations.ReadStatusReturnsTheFields : Prop :=
  exec .readStatus State.reset = .next { State.reset with out := some (.status 0x00000000) } ∧
  ∀ s : State, ∃ w : U32, exec .readStatus s = .next { s with out := some (.status w) } ∧
    w.extractLsb' 0 3 = s.st.code ∧ w.getLsbD 3 = s.warn ∧ w.getLsbD 4 = s.fvalid ∧
    w.getLsbD 5 = s.perr ∧ w.extractLsb' 6 2 = 0 ∧ w.extractLsb' 8 8 = s.err.code ∧
    w.extractLsb' 16 8 = s.pcause.code ∧ w.extractLsb' 24 8 = 0

/-! Whole transactions. -/

/-- Rules R94, R155: `TRANSACT_GET` is exactly its expansion. -/
def Obligations.TransactGetExpands : Prop :=
  ∀ (s : State) (addr size : U32),
    exec (.transactGet addr size) s =
      andThen (exec (.encodeGet addr size) s) fun t =>
        if t.perr = true then .next t
        else andThen (exec .writeFrame t) fun u =>
          if u.perr = true ∨ u.st = .failed then .next u else exec (.readResponse size 512) u

/-- Rules R94, R156: `TRANSACT_VGET` is exactly its expansion. -/
def Obligations.TransactVgetExpands : Prop :=
  ∀ (s : State) (slots : List (U32 × U32)),
    exec (.transactVget slots) s =
      andThen (exec (.encodeVget slots) s) fun t =>
        if t.perr = true then .next t
        else andThen (exec .writeFrame t) fun u =>
          if u.perr = true ∨ u.st = .failed then .next u
          else exec (.readResponse (BitVec.ofNat 32 (slots.map fun p => p.1.toNat).sum) 64) u

/-- Rules R81, R145, R155: on a stream that takes the frame and delivers an ack block and the
padded response, `TRANSACT_GET` completes with the `size` bytes after the ack as its result; it
records one frame write, block reads and one completion. -/
def Obligations.TransactGetDelivers : Prop :=
  ∀ (s : State) (addr size : U32), s.perr = false →
    s.st ≠ .awaitingAck → s.st ≠ .receivingBlocks → 1 ≤ size.toNat → addr.toNat ≤ 0xFFFFFF →
    (s.stream.write 512).1 = { n := 512, err := .ok } →
    paddedSize size.toNat 512 ≤ s.cfg.accCap →
    512 + paddedSize size.toNat 512 ≤ (deliverable s.stream.reads).length →
    ∃ t frame es, exec (.transactGet addr size) s = .next t ∧ t.st = .complete ∧ t.rlen = size ∧
      t.alen = paddedSize size.toNat 512 ∧ t.err = .noError ∧ t.warn = false ∧ t.perr = false ∧
      t.fvalid = false ∧ t.flen = 512 ∧ t.reqOp = s.cfg.opGet ∧ t.dec = s.dec ∧ t.cfg = s.cfg ∧
      t.memRead .frame 0 512 = .ok frame ∧
      t.hist = s.hist ++ [.write frame 512 .ok] ++ es ++ [.complete size] ∧
      (∀ x ∈ es, blockRead 512 x) ∧
      exec (.readResult 0 size) t = .next { t with
        out := some (.bytes (((deliverable s.stream.reads).drop 512).take size.toNat)) } ∧
      deliverable t.stream.reads =
        (deliverable s.stream.reads).drop (512 + paddedSize size.toNat 512)

/-- Rules R81, R102, R145, R156: on a stream that takes the frame and delivers the padded response,
`TRANSACT_VGET` completes with as many bytes as its slots ask for, no ack block read; it records
one frame write, block reads and one completion. -/
def Obligations.TransactVgetDelivers : Prop :=
  ∀ (s : State) (slots : List (U32 × U32)) (total : Nat), s.cfg.Valid → s.perr = false →
    s.st ≠ .awaitingAck → s.st ≠ .receivingBlocks → 1 ≤ slots.length → slots.length ≤ 8 →
    (∀ p ∈ slots, 1 ≤ p.1.toNat ∧ p.1.toNat ≤ 0xFF ∧ p.2.toNat ≤ 0xFFFFFF) →
    total = (slots.map fun p => p.1.toNat).sum →
    (s.stream.write 64).1 = { n := 64, err := .ok } →
    paddedSize total 64 ≤ (deliverable s.stream.reads).length →
    ∃ t frame es, exec (.transactVget slots) s = .next t ∧ t.st = .complete ∧
      t.rlen.toNat = total ∧ t.alen = paddedSize total 64 ∧ t.err = .noError ∧ t.warn = false ∧
      t.perr = false ∧ t.fvalid = false ∧ t.flen = 64 ∧ t.reqOp = s.cfg.opVget ∧ t.dec = s.dec ∧
      t.cfg = s.cfg ∧ t.memRead .frame 0 64 = .ok frame ∧
      t.hist = s.hist ++ [.write frame 64 .ok] ++ es ++ [.complete t.rlen] ∧
      (∀ x ∈ es, blockRead 64 x) ∧
      exec (.readResult 0 t.rlen) t = .next { t with
        out := some (.bytes ((deliverable s.stream.reads).take total)) } ∧
      deliverable t.stream.reads = (deliverable s.stream.reads).drop (paddedSize total 64)

/-! The whole machine. -/

/-- Rule R172: once `PERR = 1` every command but `READ_STATUS` does nothing and returns no result.
(That the rows which rule R91 does not list as commands obey the same gate is the model's choice:
`READ_EXACT` run by itself, log entry 14, and the wire frames, log entry 8.) -/
def Obligations.FaultBarsEveryOtherCommand : Prop :=
  ∀ (s : State) (i : Instr), s.perr = true → i ≠ .readStatus →
    exec i s = .next { s with out := none }

/-- Rule R36: the event history only grows, by appending. -/
def Obligations.HistoryOnlyGrows : Prop :=
  ∀ (s t : State) (i : Instr), exec i s = .next t → ∃ es, t.hist = s.hist ++ es

/-- Rules R37, R90: no instruction changes the configuration or the host's coming inputs. (Both are
fields of the model's state, log entries 2 and 7.) -/
def Obligations.NoInstructionChangesItsSurroundings : Prop :=
  ∀ (s t : State) (i : Instr), exec i s = .next t → t.cfg = s.cfg ∧ t.inbox = s.inbox

/-- Rules R57, R113 and the opening of `40_frame_codec.md`: the codec commands, the wire frames and
the reads of results touch neither the stream nor `STATE`, `ERR`, `WARN`, the request registers,
`BLK` or `ACC`. -/
def Obligations.CodecLeavesTheTransportAlone : Prop :=
  ∀ (s t : State) (i : Instr), exec i s = .next t →
    i ≠ .writeFrame → (∀ e b, i ≠ .readResponse e b) → (∀ b, i ≠ .readExact b) →
    (∀ a n, i ≠ .transactGet a n) → (∀ slots, i ≠ .transactVget slots) →
    t.stream = s.stream ∧ t.st = s.st ∧ t.err = s.err ∧ t.warn = s.warn ∧ t.blk = s.blk ∧
      t.bfill = s.bfill ∧ t.acc = s.acc ∧ t.alen = s.alen ∧ t.reqOp = s.reqOp ∧
      t.reqE = s.reqE ∧ t.reqB = s.reqB ∧ t.reqP = s.reqP ∧ t.rlen = s.rlen

/-- Rule R23: `STATE` moves only along the transitions of the table, and only by the commands it
names. -/
def Obligations.StateMovesOnlyAlongTheTable : Prop :=
  ∀ (s t : State) (i : Instr), s.st ≠ .writing → exec i s = .next t →
    t.st = s.st ∨
    (i = .writeFrame ∧ s.st ∈ [.idle, .complete, .failed] ∧
      t.st ∈ [.awaitingAck, .receivingBlocks, .failed]) ∨
    ((∃ e b, i = .readResponse e b) ∧ s.st ∈ [.awaitingAck, .receivingBlocks] ∧
      t.st ∈ [.complete, .failed]) ∨
    (((∃ a n, i = .transactGet a n) ∨ ∃ slots, i = .transactVget slots) ∧
      s.st ∈ [.idle, .complete, .failed] ∧
      t.st ∈ [.awaitingAck, .receivingBlocks, .complete, .failed])

/-- The invariant holds after reset, in every configuration rule R8 admits. -/
def Obligations.ResetMeetsTheInvariant : Prop :=
  (∀ c : Config, c.Valid → (State.resetWith c).Inv) ∧ State.reset.Inv

/-- Every step, from every state that meets the invariant and whatever the stream answers, leads to
a state that meets it: canonical buffers within their sizes, an unsent frame the decoder accepts,
`ALEN ≤ REQ_P ≤ ACC_CAP`, a complete result there in full, `ERR` and `WARN` as their rules say. -/
def Obligations.StepKeepsTheInvariant : Prop :=
  ∀ s t : State, s.Inv → step s = .next t → t.Inv

/-- `READ_EXACT`, the one instruction no input carries, keeps the invariant too (rule R135; run by
itself: log entry 14). -/
def Obligations.ReadExactKeepsTheInvariant : Prop :=
  ∀ (s t : State) (b : BlockSize), s.Inv → exec (.readExact b) s = .next t → t.Inv

/-- Rules R12, R38: from a state that meets the invariant no step reads a buffer byte that has no
value or lies outside the buffer. -/
def Obligations.NoStepReadsAMissingByte : Prop :=
  ∀ (s : State) (f : Fault), s.Inv → step s ≠ .fault f
end

