-- ==== Sys2Proof/Laws/Memory.lean ====
section
/-! SUPPORT. Buffers: a write keeps the canonical form and the size, a read after a write gives
what was written, and every other byte is left alone. -/

namespace Sys2Proof.Machine

@[simp] theorem Memory.cells_length (off : Nat) (bs : List Byte) :
    (Memory.cells off bs).length = bs.length := by
  induction bs generalizing off with
  | nil => rfl
  | cons b bs ih => simp [Memory.cells, ih]

theorem Memory.cells_keys (off : Nat) (bs : List Byte) :
    (Memory.cells off bs).map Prod.fst = List.range' off bs.length := by
  induction bs generalizing off with
  | nil => rfl
  | cons b bs ih => simp [Memory.cells, ih, List.range'_succ]

theorem Memory.cells_lookup (off a : Nat) (bs : List Byte) :
    (Memory.cells off bs).lookup a = if off ≤ a then bs[a - off]? else none := by
  induction bs generalizing off with
  | nil => simp [Memory.cells]
  | cons b bs ih =>
    simp only [Memory.cells, List.lookup_cons, ih]
    by_cases h : a = off
    · simp [h]
    · have : (a == off) = false := by simp [h]
      rw [this]
      by_cases h2 : off ≤ a
      · have : a - off = (a - (off + 1)) + 1 := by omega
        simp [h2, show off + 1 ≤ a by omega, this]
      · simp [h2, show ¬ off + 1 ≤ a by omega]

theorem lookup_filter_key (m : Memory) (p : Nat → Bool) (a : Nat) :
    (m.filter (fun c => p c.1)).lookup a = if p a then m.lookup a else none := by
  induction m with
  | nil => simp
  | cons c m ih =>
    obtain ⟨k, v⟩ := c
    by_cases hk : a = k
    · subst hk
      by_cases hp : p a <;> simp [hp, ih]
    · have hne : (a == k) = false := by simp [hk]
      by_cases hp : p k <;> simp [hp, ih, List.lookup_cons, hne]

/-- A read after a write: the bytes written where they were written, what was there elsewhere. -/
theorem Memory.read_write (m : Memory) (off a : Nat) (bs : List Byte) :
    (m.write off bs).read a =
      if off ≤ a ∧ a < off + bs.length then bs[a - off]? else m.read a := by
  simp only [Memory.read, Memory.write, List.lookup_append, Memory.cells_lookup,
    lookup_filter_key m (fun k => decide (k < off)),
    lookup_filter_key m (fun k => decide (off + bs.length ≤ k)), decide_eq_true_eq]
  by_cases h1 : a < off
  · simp [h1, show ¬ off ≤ a by omega, show ¬ off + bs.length ≤ a by omega]
  · by_cases h2 : a < off + bs.length
    · have : a - off < bs.length := by omega
      simp [h1, h2, show off ≤ a by omega, List.getElem?_eq_getElem this]
    · have : bs.length ≤ a - off := by omega
      simp [h1, h2, show off ≤ a by omega, List.getElem?_eq_none this,
        show off + bs.length ≤ a by omega]

/-- Every write keeps the canonical form. -/
theorem Memory.write_wf (m : Memory) (off : Nat) (bs : List Byte) (h : m.wf) :
    (m.write off bs).wf := by
  simp only [Memory.wf, Memory.write, List.map_append, Memory.cells_keys]
  have sub : ∀ p : Host.Cell → Bool, ((m.filter p).map Prod.fst).Pairwise (· < ·) := fun p =>
    List.Pairwise.sublist (List.filter_sublist.map _) h
  have key : ∀ (p : Host.Cell → Bool) (a : Nat), a ∈ (m.filter p).map Prod.fst →
      ∃ b, p (a, b) = true := by
    intro p a ha
    simp only [List.mem_map, List.mem_filter] at ha
    obtain ⟨⟨k, v⟩, ⟨_, hp⟩, rfl⟩ := ha
    exact ⟨v, hp⟩
  refine List.pairwise_append.2 ⟨List.pairwise_append.2 ⟨sub _, List.pairwise_lt_range', ?_⟩,
    sub _, ?_⟩
  · intro a ha b hb
    obtain ⟨_, hp⟩ := key _ a ha
    simp [List.mem_range'] at hp hb
    omega
  · intro a ha b hb
    obtain ⟨_, hq⟩ := key _ b hb
    simp only [decide_eq_true_eq] at hq
    rcases List.mem_append.1 ha with ha | ha
    · obtain ⟨_, hp⟩ := key _ a ha
      simp at hp
      omega
    · simp [List.mem_range'] at ha
      omega

/-- A write within a size lists no address past it. -/
theorem Memory.write_below (m : Memory) (off size : Nat) (bs : List Byte) (h : m.below size)
    (hb : off + bs.length ≤ size) : (m.write off bs).below size := by
  intro a ha
  simp only [Memory.write, List.map_append, List.mem_append, Memory.cells_keys] at ha
  have sub : ∀ p : Host.Cell → Bool, a ∈ (m.filter p).map Prod.fst → a < size := fun p hp =>
    h a ((List.filter_sublist.map _).subset hp)
  rcases ha with (ha | ha) | ha
  · exact sub _ ha
  · simp [List.mem_range'] at ha
    omega
  · exact sub _ ha

theorem Memory.wf_nil : Memory.wf [] := List.Pairwise.nil

/-- What a buffer read answers: exactly the bytes that stand there, when all of them do. -/
theorem readCells_ok_iff (b : Buffer) (m : Memory) (off n : Nat) (bs : List Byte) :
    readCells b m off n = .ok bs ↔
      bs.length = n ∧ ∀ i, i < n → m.read (off + i) = bs[i]? := by
  induction n generalizing off bs with
  | zero => cases bs <;> simp [readCells]
  | succ n ih =>
    simp only [readCells]
    cases hr : m.read off with
    | none =>
      simp only [reduceCtorEq, false_iff, not_and]
      intro hl h
      have := h 0 (by omega)
      rw [Nat.add_zero, hr] at this
      simp [List.getElem?_eq_getElem (show 0 < bs.length by omega)] at this
    | some x =>
      cases hrest : readCells b m (off + 1) n with
      | error f =>
        simp only [reduceCtorEq, false_iff, not_and]
        intro hl h
        obtain ⟨y, ys, rfl⟩ : ∃ y ys, bs = y :: ys := by
          cases bs with
          | nil => simp at hl
          | cons y ys => exact ⟨y, ys, rfl⟩
        have : readCells b m (off + 1) n = .ok ys := by
          refine (ih _ _).2 ⟨by simpa using hl, fun i hi => ?_⟩
          have := h (i + 1) (by omega)
          simpa [Nat.add_assoc, Nat.add_comm 1 i] using this
        rw [this] at hrest
        cases hrest
      | ok xs =>
        have hxs := (ih _ _).1 hrest
        simp only [Except.ok.injEq]
        constructor
        · rintro rfl
          refine ⟨by simp [hxs.1], fun i hi => ?_⟩
          cases i with
          | zero => simpa using hr
          | succ i =>
            have := hxs.2 i (by omega)
            simpa [Nat.add_assoc, Nat.add_comm 1 i] using this
        · rintro ⟨hl, h⟩
          obtain ⟨y, ys, rfl⟩ : ∃ y ys, bs = y :: ys := by
            cases bs with
            | nil => simp at hl
            | cons y ys => exact ⟨y, ys, rfl⟩
          have h0 := h 0 (by omega)
          rw [Nat.add_zero, hr] at h0
          have : readCells b m (off + 1) n = .ok ys := by
            refine (ih _ _).2 ⟨by simpa using hl, fun i hi => ?_⟩
            have := h (i + 1) (by omega)
            simpa [Nat.add_assoc, Nat.add_comm 1 i] using this
          rw [this] at hrest
          cases hrest
          simp at h0
          simp [h0]

/-- A read of addresses that all hold a byte answers. -/
theorem readCells_of_filled (b : Buffer) (m : Memory) (off n : Nat)
    (h : ∀ i, i < n → (m.read (off + i)).isSome = true) :
    ∃ bs, readCells b m off n = .ok bs := by
  induction n generalizing off with
  | zero => exact ⟨[], rfl⟩
  | succ n ih =>
    have h0 := h 0 (by omega)
    rw [Nat.add_zero] at h0
    obtain ⟨x, hx⟩ := Option.isSome_iff_exists.1 h0
    obtain ⟨xs, hxs⟩ := ih (off + 1) fun i hi => by
      have := h (i + 1) (by omega)
      simpa [Nat.add_assoc, Nat.add_comm 1 i] using this
    exact ⟨x :: xs, by simp [readCells, hx, hxs]⟩

/-- `MemRead` answers `bs` exactly when the range is in the buffer and holds `bs`. -/
theorem State.memRead_ok_iff (s : State) (b : Buffer) (off n : Nat) (bs : List Byte) :
    s.memRead b off n = .ok bs ↔ off + n ≤ s.bufferSize b ∧ bs.length = n ∧
      ∀ i, i < n → (s.buffer b).read (off + i) = bs[i]? := by
  simp only [State.memRead]
  split
  · simp [readCells_ok_iff, *]
  · simp [*]

end Sys2Proof.Machine
end

