-- ==== Sys2Proof/Laws/State.lean ====
section
/-! SUPPORT. One lemma per field per update of `State`: no later proof unfolds an update. -/

namespace Sys2Proof.Machine

/-! `emit` -/

@[simp] theorem State.emit_cfg (s : State) (e : Event) : (s.emit e).cfg = s.cfg := rfl
@[simp] theorem State.emit_st (s : State) (e : Event) : (s.emit e).st = s.st := rfl
@[simp] theorem State.emit_frame (s : State) (e : Event) : (s.emit e).frame = s.frame := rfl
@[simp] theorem State.emit_flen (s : State) (e : Event) : (s.emit e).flen = s.flen := rfl
@[simp] theorem State.emit_fvalid (s : State) (e : Event) : (s.emit e).fvalid = s.fvalid := rfl
@[simp] theorem State.emit_blk (s : State) (e : Event) : (s.emit e).blk = s.blk := rfl
@[simp] theorem State.emit_bfill (s : State) (e : Event) : (s.emit e).bfill = s.bfill := rfl
@[simp] theorem State.emit_acc (s : State) (e : Event) : (s.emit e).acc = s.acc := rfl
@[simp] theorem State.emit_alen (s : State) (e : Event) : (s.emit e).alen = s.alen := rfl
@[simp] theorem State.emit_reqOp (s : State) (e : Event) : (s.emit e).reqOp = s.reqOp := rfl
@[simp] theorem State.emit_reqE (s : State) (e : Event) : (s.emit e).reqE = s.reqE := rfl
@[simp] theorem State.emit_reqB (s : State) (e : Event) : (s.emit e).reqB = s.reqB := rfl
@[simp] theorem State.emit_reqP (s : State) (e : Event) : (s.emit e).reqP = s.reqP := rfl
@[simp] theorem State.emit_rlen (s : State) (e : Event) : (s.emit e).rlen = s.rlen := rfl
@[simp] theorem State.emit_err (s : State) (e : Event) : (s.emit e).err = s.err := rfl
@[simp] theorem State.emit_warn (s : State) (e : Event) : (s.emit e).warn = s.warn := rfl
@[simp] theorem State.emit_perr (s : State) (e : Event) : (s.emit e).perr = s.perr := rfl
@[simp] theorem State.emit_pcause (s : State) (e : Event) : (s.emit e).pcause = s.pcause := rfl
@[simp] theorem State.emit_dec (s : State) (e : Event) : (s.emit e).dec = s.dec := rfl
@[simp] theorem State.emit_hist (s : State) (e : Event) : (s.emit e).hist = s.hist ++ [e] := rfl
@[simp] theorem State.emit_stream (s : State) (e : Event) : (s.emit e).stream = s.stream := rfl
@[simp] theorem State.emit_inbox (s : State) (e : Event) : (s.emit e).inbox = s.inbox := rfl
@[simp] theorem State.emit_out (s : State) (e : Event) : (s.emit e).out = s.out := rfl

/-! `returns` -/

@[simp] theorem State.returns_cfg (s : State) (r : Result) : (s.returns r).cfg = s.cfg := rfl
@[simp] theorem State.returns_st (s : State) (r : Result) : (s.returns r).st = s.st := rfl
@[simp] theorem State.returns_frame (s : State) (r : Result) : (s.returns r).frame = s.frame := rfl
@[simp] theorem State.returns_flen (s : State) (r : Result) : (s.returns r).flen = s.flen := rfl
@[simp] theorem State.returns_fvalid (s : State) (r : Result) : (s.returns r).fvalid = s.fvalid := rfl
@[simp] theorem State.returns_blk (s : State) (r : Result) : (s.returns r).blk = s.blk := rfl
@[simp] theorem State.returns_bfill (s : State) (r : Result) : (s.returns r).bfill = s.bfill := rfl
@[simp] theorem State.returns_acc (s : State) (r : Result) : (s.returns r).acc = s.acc := rfl
@[simp] theorem State.returns_alen (s : State) (r : Result) : (s.returns r).alen = s.alen := rfl
@[simp] theorem State.returns_reqOp (s : State) (r : Result) : (s.returns r).reqOp = s.reqOp := rfl
@[simp] theorem State.returns_reqE (s : State) (r : Result) : (s.returns r).reqE = s.reqE := rfl
@[simp] theorem State.returns_reqB (s : State) (r : Result) : (s.returns r).reqB = s.reqB := rfl
@[simp] theorem State.returns_reqP (s : State) (r : Result) : (s.returns r).reqP = s.reqP := rfl
@[simp] theorem State.returns_rlen (s : State) (r : Result) : (s.returns r).rlen = s.rlen := rfl
@[simp] theorem State.returns_err (s : State) (r : Result) : (s.returns r).err = s.err := rfl
@[simp] theorem State.returns_warn (s : State) (r : Result) : (s.returns r).warn = s.warn := rfl
@[simp] theorem State.returns_perr (s : State) (r : Result) : (s.returns r).perr = s.perr := rfl
@[simp] theorem State.returns_pcause (s : State) (r : Result) : (s.returns r).pcause = s.pcause := rfl
@[simp] theorem State.returns_dec (s : State) (r : Result) : (s.returns r).dec = s.dec := rfl
@[simp] theorem State.returns_hist (s : State) (r : Result) : (s.returns r).hist = s.hist := rfl
@[simp] theorem State.returns_stream (s : State) (r : Result) : (s.returns r).stream = s.stream := rfl
@[simp] theorem State.returns_inbox (s : State) (r : Result) : (s.returns r).inbox = s.inbox := rfl
@[simp] theorem State.returns_out (s : State) (r : Result) : (s.returns r).out = some r := rfl

/-! `returnsNothing` -/

@[simp] theorem State.returnsNothing_cfg (s : State) : (s.returnsNothing).cfg = s.cfg := rfl
@[simp] theorem State.returnsNothing_st (s : State) : (s.returnsNothing).st = s.st := rfl
@[simp] theorem State.returnsNothing_frame (s : State) : (s.returnsNothing).frame = s.frame := rfl
@[simp] theorem State.returnsNothing_flen (s : State) : (s.returnsNothing).flen = s.flen := rfl
@[simp] theorem State.returnsNothing_fvalid (s : State) : (s.returnsNothing).fvalid = s.fvalid := rfl
@[simp] theorem State.returnsNothing_blk (s : State) : (s.returnsNothing).blk = s.blk := rfl
@[simp] theorem State.returnsNothing_bfill (s : State) : (s.returnsNothing).bfill = s.bfill := rfl
@[simp] theorem State.returnsNothing_acc (s : State) : (s.returnsNothing).acc = s.acc := rfl
@[simp] theorem State.returnsNothing_alen (s : State) : (s.returnsNothing).alen = s.alen := rfl
@[simp] theorem State.returnsNothing_reqOp (s : State) : (s.returnsNothing).reqOp = s.reqOp := rfl
@[simp] theorem State.returnsNothing_reqE (s : State) : (s.returnsNothing).reqE = s.reqE := rfl
@[simp] theorem State.returnsNothing_reqB (s : State) : (s.returnsNothing).reqB = s.reqB := rfl
@[simp] theorem State.returnsNothing_reqP (s : State) : (s.returnsNothing).reqP = s.reqP := rfl
@[simp] theorem State.returnsNothing_rlen (s : State) : (s.returnsNothing).rlen = s.rlen := rfl
@[simp] theorem State.returnsNothing_err (s : State) : (s.returnsNothing).err = s.err := rfl
@[simp] theorem State.returnsNothing_warn (s : State) : (s.returnsNothing).warn = s.warn := rfl
@[simp] theorem State.returnsNothing_perr (s : State) : (s.returnsNothing).perr = s.perr := rfl
@[simp] theorem State.returnsNothing_pcause (s : State) : (s.returnsNothing).pcause = s.pcause := rfl
@[simp] theorem State.returnsNothing_dec (s : State) : (s.returnsNothing).dec = s.dec := rfl
@[simp] theorem State.returnsNothing_hist (s : State) : (s.returnsNothing).hist = s.hist := rfl
@[simp] theorem State.returnsNothing_stream (s : State) : (s.returnsNothing).stream = s.stream := rfl
@[simp] theorem State.returnsNothing_inbox (s : State) : (s.returnsNothing).inbox = s.inbox := rfl
@[simp] theorem State.returnsNothing_out (s : State) : (s.returnsNothing).out = none := rfl

/-! `returnsPhase` -/

@[simp] theorem State.returnsPhase_cfg (s : State) : (s.returnsPhase).cfg = s.cfg := rfl
@[simp] theorem State.returnsPhase_st (s : State) : (s.returnsPhase).st = s.st := rfl
@[simp] theorem State.returnsPhase_frame (s : State) : (s.returnsPhase).frame = s.frame := rfl
@[simp] theorem State.returnsPhase_flen (s : State) : (s.returnsPhase).flen = s.flen := rfl
@[simp] theorem State.returnsPhase_fvalid (s : State) : (s.returnsPhase).fvalid = s.fvalid := rfl
@[simp] theorem State.returnsPhase_blk (s : State) : (s.returnsPhase).blk = s.blk := rfl
@[simp] theorem State.returnsPhase_bfill (s : State) : (s.returnsPhase).bfill = s.bfill := rfl
@[simp] theorem State.returnsPhase_acc (s : State) : (s.returnsPhase).acc = s.acc := rfl
@[simp] theorem State.returnsPhase_alen (s : State) : (s.returnsPhase).alen = s.alen := rfl
@[simp] theorem State.returnsPhase_reqOp (s : State) : (s.returnsPhase).reqOp = s.reqOp := rfl
@[simp] theorem State.returnsPhase_reqE (s : State) : (s.returnsPhase).reqE = s.reqE := rfl
@[simp] theorem State.returnsPhase_reqB (s : State) : (s.returnsPhase).reqB = s.reqB := rfl
@[simp] theorem State.returnsPhase_reqP (s : State) : (s.returnsPhase).reqP = s.reqP := rfl
@[simp] theorem State.returnsPhase_rlen (s : State) : (s.returnsPhase).rlen = s.rlen := rfl
@[simp] theorem State.returnsPhase_err (s : State) : (s.returnsPhase).err = s.err := rfl
@[simp] theorem State.returnsPhase_warn (s : State) : (s.returnsPhase).warn = s.warn := rfl
@[simp] theorem State.returnsPhase_perr (s : State) : (s.returnsPhase).perr = s.perr := rfl
@[simp] theorem State.returnsPhase_pcause (s : State) : (s.returnsPhase).pcause = s.pcause := rfl
@[simp] theorem State.returnsPhase_dec (s : State) : (s.returnsPhase).dec = s.dec := rfl
@[simp] theorem State.returnsPhase_hist (s : State) : (s.returnsPhase).hist = s.hist := rfl
@[simp] theorem State.returnsPhase_stream (s : State) : (s.returnsPhase).stream = s.stream := rfl
@[simp] theorem State.returnsPhase_inbox (s : State) : (s.returnsPhase).inbox = s.inbox := rfl
@[simp] theorem State.returnsPhase_out (s : State) : (s.returnsPhase).out = some (.phase s.st) := rfl

/-! `fail` -/

@[simp] theorem State.fail_cfg (s : State) (c : ErrCode) : (s.fail c).cfg = s.cfg := rfl
@[simp] theorem State.fail_st (s : State) (c : ErrCode) : (s.fail c).st = .failed := rfl
@[simp] theorem State.fail_frame (s : State) (c : ErrCode) : (s.fail c).frame = s.frame := rfl
@[simp] theorem State.fail_flen (s : State) (c : ErrCode) : (s.fail c).flen = s.flen := rfl
@[simp] theorem State.fail_fvalid (s : State) (c : ErrCode) : (s.fail c).fvalid = s.fvalid := rfl
@[simp] theorem State.fail_blk (s : State) (c : ErrCode) : (s.fail c).blk = s.blk := rfl
@[simp] theorem State.fail_bfill (s : State) (c : ErrCode) : (s.fail c).bfill = s.bfill := rfl
@[simp] theorem State.fail_acc (s : State) (c : ErrCode) : (s.fail c).acc = s.acc := rfl
@[simp] theorem State.fail_alen (s : State) (c : ErrCode) : (s.fail c).alen = s.alen := rfl
@[simp] theorem State.fail_reqOp (s : State) (c : ErrCode) : (s.fail c).reqOp = s.reqOp := rfl
@[simp] theorem State.fail_reqE (s : State) (c : ErrCode) : (s.fail c).reqE = s.reqE := rfl
@[simp] theorem State.fail_reqB (s : State) (c : ErrCode) : (s.fail c).reqB = s.reqB := rfl
@[simp] theorem State.fail_reqP (s : State) (c : ErrCode) : (s.fail c).reqP = s.reqP := rfl
@[simp] theorem State.fail_rlen (s : State) (c : ErrCode) : (s.fail c).rlen = s.rlen := rfl
@[simp] theorem State.fail_err (s : State) (c : ErrCode) : (s.fail c).err = c := rfl
@[simp] theorem State.fail_warn (s : State) (c : ErrCode) : (s.fail c).warn = s.warn := rfl
@[simp] theorem State.fail_perr (s : State) (c : ErrCode) : (s.fail c).perr = s.perr := rfl
@[simp] theorem State.fail_pcause (s : State) (c : ErrCode) : (s.fail c).pcause = s.pcause := rfl
@[simp] theorem State.fail_dec (s : State) (c : ErrCode) : (s.fail c).dec = s.dec := rfl
@[simp] theorem State.fail_hist (s : State) (c : ErrCode) : (s.fail c).hist = s.hist ++ [.fail c] := rfl
@[simp] theorem State.fail_stream (s : State) (c : ErrCode) : (s.fail c).stream = s.stream := rfl
@[simp] theorem State.fail_inbox (s : State) (c : ErrCode) : (s.fail c).inbox = s.inbox := rfl
@[simp] theorem State.fail_out (s : State) (c : ErrCode) : (s.fail c).out = some (.phase .failed) := rfl

/-! `progFault` -/

@[simp] theorem State.progFault_cfg (s : State) (c : ProgCause) : (s.progFault c).cfg = s.cfg := rfl
@[simp] theorem State.progFault_st (s : State) (c : ProgCause) : (s.progFault c).st = s.st := rfl
@[simp] theorem State.progFault_frame (s : State) (c : ProgCause) : (s.progFault c).frame = s.frame := rfl
@[simp] theorem State.progFault_flen (s : State) (c : ProgCause) : (s.progFault c).flen = s.flen := rfl
@[simp] theorem State.progFault_fvalid (s : State) (c : ProgCause) : (s.progFault c).fvalid = s.fvalid := rfl
@[simp] theorem State.progFault_blk (s : State) (c : ProgCause) : (s.progFault c).blk = s.blk := rfl
@[simp] theorem State.progFault_bfill (s : State) (c : ProgCause) : (s.progFault c).bfill = s.bfill := rfl
@[simp] theorem State.progFault_acc (s : State) (c : ProgCause) : (s.progFault c).acc = s.acc := rfl
@[simp] theorem State.progFault_alen (s : State) (c : ProgCause) : (s.progFault c).alen = s.alen := rfl
@[simp] theorem State.progFault_reqOp (s : State) (c : ProgCause) : (s.progFault c).reqOp = s.reqOp := rfl
@[simp] theorem State.progFault_reqE (s : State) (c : ProgCause) : (s.progFault c).reqE = s.reqE := rfl
@[simp] theorem State.progFault_reqB (s : State) (c : ProgCause) : (s.progFault c).reqB = s.reqB := rfl
@[simp] theorem State.progFault_reqP (s : State) (c : ProgCause) : (s.progFault c).reqP = s.reqP := rfl
@[simp] theorem State.progFault_rlen (s : State) (c : ProgCause) : (s.progFault c).rlen = s.rlen := rfl
@[simp] theorem State.progFault_err (s : State) (c : ProgCause) : (s.progFault c).err = s.err := rfl
@[simp] theorem State.progFault_warn (s : State) (c : ProgCause) : (s.progFault c).warn = s.warn := rfl
@[simp] theorem State.progFault_perr (s : State) (c : ProgCause) : (s.progFault c).perr = true := rfl
@[simp] theorem State.progFault_pcause (s : State) (c : ProgCause) : (s.progFault c).pcause = c := rfl
@[simp] theorem State.progFault_dec (s : State) (c : ProgCause) : (s.progFault c).dec = s.dec := rfl
@[simp] theorem State.progFault_hist (s : State) (c : ProgCause) : (s.progFault c).hist = s.hist ++ [.progFault c] := rfl
@[simp] theorem State.progFault_stream (s : State) (c : ProgCause) : (s.progFault c).stream = s.stream := rfl
@[simp] theorem State.progFault_inbox (s : State) (c : ProgCause) : (s.progFault c).inbox = s.inbox := rfl
@[simp] theorem State.progFault_out (s : State) (c : ProgCause) : (s.progFault c).out = none := rfl

/-! `hardReset` -/

@[simp] theorem State.hardReset_cfg (s : State) : (s.hardReset).cfg = s.cfg := rfl
@[simp] theorem State.hardReset_st (s : State) : (s.hardReset).st = (State.resetWith s.cfg).st := rfl
@[simp] theorem State.hardReset_frame (s : State) : (s.hardReset).frame = (State.resetWith s.cfg).frame := rfl
@[simp] theorem State.hardReset_flen (s : State) : (s.hardReset).flen = (State.resetWith s.cfg).flen := rfl
@[simp] theorem State.hardReset_fvalid (s : State) : (s.hardReset).fvalid = (State.resetWith s.cfg).fvalid := rfl
@[simp] theorem State.hardReset_blk (s : State) : (s.hardReset).blk = (State.resetWith s.cfg).blk := rfl
@[simp] theorem State.hardReset_bfill (s : State) : (s.hardReset).bfill = (State.resetWith s.cfg).bfill := rfl
@[simp] theorem State.hardReset_acc (s : State) : (s.hardReset).acc = (State.resetWith s.cfg).acc := rfl
@[simp] theorem State.hardReset_alen (s : State) : (s.hardReset).alen = (State.resetWith s.cfg).alen := rfl
@[simp] theorem State.hardReset_reqOp (s : State) : (s.hardReset).reqOp = (State.resetWith s.cfg).reqOp := rfl
@[simp] theorem State.hardReset_reqE (s : State) : (s.hardReset).reqE = (State.resetWith s.cfg).reqE := rfl
@[simp] theorem State.hardReset_reqB (s : State) : (s.hardReset).reqB = (State.resetWith s.cfg).reqB := rfl
@[simp] theorem State.hardReset_reqP (s : State) : (s.hardReset).reqP = (State.resetWith s.cfg).reqP := rfl
@[simp] theorem State.hardReset_rlen (s : State) : (s.hardReset).rlen = (State.resetWith s.cfg).rlen := rfl
@[simp] theorem State.hardReset_err (s : State) : (s.hardReset).err = (State.resetWith s.cfg).err := rfl
@[simp] theorem State.hardReset_warn (s : State) : (s.hardReset).warn = (State.resetWith s.cfg).warn := rfl
@[simp] theorem State.hardReset_perr (s : State) : (s.hardReset).perr = (State.resetWith s.cfg).perr := rfl
@[simp] theorem State.hardReset_pcause (s : State) : (s.hardReset).pcause = (State.resetWith s.cfg).pcause := rfl
@[simp] theorem State.hardReset_dec (s : State) : (s.hardReset).dec = (State.resetWith s.cfg).dec := rfl
@[simp] theorem State.hardReset_hist (s : State) : (s.hardReset).hist = (State.resetWith s.cfg).hist := rfl
@[simp] theorem State.hardReset_stream (s : State) : (s.hardReset).stream = s.stream := rfl
@[simp] theorem State.hardReset_inbox (s : State) : (s.hardReset).inbox = s.inbox := rfl
@[simp] theorem State.hardReset_out (s : State) : (s.hardReset).out = (State.resetWith s.cfg).out := rfl

/-! `memWrite` -/

@[simp] theorem State.memWrite_cfg (s : State) (b : Buffer) (off : Nat) (bs : List Byte) : (s.memWrite b off bs).cfg = s.cfg := by cases b <;> rfl
@[simp] theorem State.memWrite_st (s : State) (b : Buffer) (off : Nat) (bs : List Byte) : (s.memWrite b off bs).st = s.st := by cases b <;> rfl
@[simp] theorem State.memWrite_flen (s : State) (b : Buffer) (off : Nat) (bs : List Byte) : (s.memWrite b off bs).flen = s.flen := by cases b <;> rfl
@[simp] theorem State.memWrite_fvalid (s : State) (b : Buffer) (off : Nat) (bs : List Byte) : (s.memWrite b off bs).fvalid = s.fvalid := by cases b <;> rfl
@[simp] theorem State.memWrite_bfill (s : State) (b : Buffer) (off : Nat) (bs : List Byte) : (s.memWrite b off bs).bfill = s.bfill := by cases b <;> rfl
@[simp] theorem State.memWrite_alen (s : State) (b : Buffer) (off : Nat) (bs : List Byte) : (s.memWrite b off bs).alen = s.alen := by cases b <;> rfl
@[simp] theorem State.memWrite_reqOp (s : State) (b : Buffer) (off : Nat) (bs : List Byte) : (s.memWrite b off bs).reqOp = s.reqOp := by cases b <;> rfl
@[simp] theorem State.memWrite_reqE (s : State) (b : Buffer) (off : Nat) (bs : List Byte) : (s.memWrite b off bs).reqE = s.reqE := by cases b <;> rfl
@[simp] theorem State.memWrite_reqB (s : State) (b : Buffer) (off : Nat) (bs : List Byte) : (s.memWrite b off bs).reqB = s.reqB := by cases b <;> rfl
@[simp] theorem State.memWrite_reqP (s : State) (b : Buffer) (off : Nat) (bs : List Byte) : (s.memWrite b off bs).reqP = s.reqP := by cases b <;> rfl
@[simp] theorem State.memWrite_rlen (s : State) (b : Buffer) (off : Nat) (bs : List Byte) : (s.memWrite b off bs).rlen = s.rlen := by cases b <;> rfl
@[simp] theorem State.memWrite_err (s : State) (b : Buffer) (off : Nat) (bs : List Byte) : (s.memWrite b off bs).err = s.err := by cases b <;> rfl
@[simp] theorem State.memWrite_warn (s : State) (b : Buffer) (off : Nat) (bs : List Byte) : (s.memWrite b off bs).warn = s.warn := by cases b <;> rfl
@[simp] theorem State.memWrite_perr (s : State) (b : Buffer) (off : Nat) (bs : List Byte) : (s.memWrite b off bs).perr = s.perr := by cases b <;> rfl
@[simp] theorem State.memWrite_pcause (s : State) (b : Buffer) (off : Nat) (bs : List Byte) : (s.memWrite b off bs).pcause = s.pcause := by cases b <;> rfl
@[simp] theorem State.memWrite_dec (s : State) (b : Buffer) (off : Nat) (bs : List Byte) : (s.memWrite b off bs).dec = s.dec := by cases b <;> rfl
@[simp] theorem State.memWrite_hist (s : State) (b : Buffer) (off : Nat) (bs : List Byte) : (s.memWrite b off bs).hist = s.hist := by cases b <;> rfl
@[simp] theorem State.memWrite_stream (s : State) (b : Buffer) (off : Nat) (bs : List Byte) : (s.memWrite b off bs).stream = s.stream := by cases b <;> rfl
@[simp] theorem State.memWrite_inbox (s : State) (b : Buffer) (off : Nat) (bs : List Byte) : (s.memWrite b off bs).inbox = s.inbox := by cases b <;> rfl
@[simp] theorem State.memWrite_out (s : State) (b : Buffer) (off : Nat) (bs : List Byte) : (s.memWrite b off bs).out = s.out := by cases b <;> rfl

@[simp] theorem State.memWrite_frame_frame (s : State) (off : Nat) (bs : List Byte) : (s.memWrite .frame off bs).frame = s.frame.write off bs := rfl
@[simp] theorem State.memWrite_frame_blk (s : State) (off : Nat) (bs : List Byte) : (s.memWrite .frame off bs).blk = s.blk := rfl
@[simp] theorem State.memWrite_frame_acc (s : State) (off : Nat) (bs : List Byte) : (s.memWrite .frame off bs).acc = s.acc := rfl
@[simp] theorem State.memWrite_blk_frame (s : State) (off : Nat) (bs : List Byte) : (s.memWrite .blk off bs).frame = s.frame := rfl
@[simp] theorem State.memWrite_blk_blk (s : State) (off : Nat) (bs : List Byte) : (s.memWrite .blk off bs).blk = s.blk.write off bs := rfl
@[simp] theorem State.memWrite_blk_acc (s : State) (off : Nat) (bs : List Byte) : (s.memWrite .blk off bs).acc = s.acc := rfl
@[simp] theorem State.memWrite_acc_frame (s : State) (off : Nat) (bs : List Byte) : (s.memWrite .acc off bs).frame = s.frame := rfl
@[simp] theorem State.memWrite_acc_blk (s : State) (off : Nat) (bs : List Byte) : (s.memWrite .acc off bs).blk = s.blk := rfl
@[simp] theorem State.memWrite_acc_acc (s : State) (off : Nat) (bs : List Byte) : (s.memWrite .acc off bs).acc = s.acc.write off bs := rfl

/-! `loadFrame` -/

@[simp] theorem State.loadFrame_cfg (s : State) (bs : List Byte) : (s.loadFrame bs).cfg = s.cfg := rfl
@[simp] theorem State.loadFrame_st (s : State) (bs : List Byte) : (s.loadFrame bs).st = s.st := rfl
@[simp] theorem State.loadFrame_frame (s : State) (bs : List Byte) : (s.loadFrame bs).frame = s.frame.write 0 bs := rfl
@[simp] theorem State.loadFrame_flen (s : State) (bs : List Byte) : (s.loadFrame bs).flen = bs.length := rfl
@[simp] theorem State.loadFrame_fvalid (s : State) (bs : List Byte) : (s.loadFrame bs).fvalid = true := rfl
@[simp] theorem State.loadFrame_blk (s : State) (bs : List Byte) : (s.loadFrame bs).blk = s.blk := rfl
@[simp] theorem State.loadFrame_bfill (s : State) (bs : List Byte) : (s.loadFrame bs).bfill = s.bfill := rfl
@[simp] theorem State.loadFrame_acc (s : State) (bs : List Byte) : (s.loadFrame bs).acc = s.acc := rfl
@[simp] theorem State.loadFrame_alen (s : State) (bs : List Byte) : (s.loadFrame bs).alen = s.alen := rfl
@[simp] theorem State.loadFrame_reqOp (s : State) (bs : List Byte) : (s.loadFrame bs).reqOp = s.reqOp := rfl
@[simp] theorem State.loadFrame_reqE (s : State) (bs : List Byte) : (s.loadFrame bs).reqE = s.reqE := rfl
@[simp] theorem State.loadFrame_reqB (s : State) (bs : List Byte) : (s.loadFrame bs).reqB = s.reqB := rfl
@[simp] theorem State.loadFrame_reqP (s : State) (bs : List Byte) : (s.loadFrame bs).reqP = s.reqP := rfl
@[simp] theorem State.loadFrame_rlen (s : State) (bs : List Byte) : (s.loadFrame bs).rlen = s.rlen := rfl
@[simp] theorem State.loadFrame_err (s : State) (bs : List Byte) : (s.loadFrame bs).err = s.err := rfl
@[simp] theorem State.loadFrame_warn (s : State) (bs : List Byte) : (s.loadFrame bs).warn = s.warn := rfl
@[simp] theorem State.loadFrame_perr (s : State) (bs : List Byte) : (s.loadFrame bs).perr = s.perr := rfl
@[simp] theorem State.loadFrame_pcause (s : State) (bs : List Byte) : (s.loadFrame bs).pcause = s.pcause := rfl
@[simp] theorem State.loadFrame_dec (s : State) (bs : List Byte) : (s.loadFrame bs).dec = s.dec := rfl
@[simp] theorem State.loadFrame_hist (s : State) (bs : List Byte) : (s.loadFrame bs).hist = s.hist := rfl
@[simp] theorem State.loadFrame_stream (s : State) (bs : List Byte) : (s.loadFrame bs).stream = s.stream := rfl
@[simp] theorem State.loadFrame_inbox (s : State) (bs : List Byte) : (s.loadFrame bs).inbox = s.inbox := rfl
@[simp] theorem State.loadFrame_out (s : State) (bs : List Byte) : (s.loadFrame bs).out = none := rfl

/-! `openRequest` -/

@[simp] theorem State.openRequest_cfg (s : State) (op : Byte) : (s.openRequest op).cfg = s.cfg := rfl
@[simp] theorem State.openRequest_st (s : State) (op : Byte) : (s.openRequest op).st = .writing := rfl
@[simp] theorem State.openRequest_frame (s : State) (op : Byte) : (s.openRequest op).frame = s.frame := rfl
@[simp] theorem State.openRequest_flen (s : State) (op : Byte) : (s.openRequest op).flen = s.flen := rfl
@[simp] theorem State.openRequest_fvalid (s : State) (op : Byte) : (s.openRequest op).fvalid = s.fvalid := rfl
@[simp] theorem State.openRequest_blk (s : State) (op : Byte) : (s.openRequest op).blk = s.blk := rfl
@[simp] theorem State.openRequest_bfill (s : State) (op : Byte) : (s.openRequest op).bfill = s.bfill := rfl
@[simp] theorem State.openRequest_acc (s : State) (op : Byte) : (s.openRequest op).acc = s.acc := rfl
@[simp] theorem State.openRequest_alen (s : State) (op : Byte) : (s.openRequest op).alen = 0 := rfl
@[simp] theorem State.openRequest_reqOp (s : State) (op : Byte) : (s.openRequest op).reqOp = op := rfl
@[simp] theorem State.openRequest_reqE (s : State) (op : Byte) : (s.openRequest op).reqE = s.reqE := rfl
@[simp] theorem State.openRequest_reqB (s : State) (op : Byte) : (s.openRequest op).reqB = s.reqB := rfl
@[simp] theorem State.openRequest_reqP (s : State) (op : Byte) : (s.openRequest op).reqP = s.reqP := rfl
@[simp] theorem State.openRequest_rlen (s : State) (op : Byte) : (s.openRequest op).rlen = s.rlen := rfl
@[simp] theorem State.openRequest_err (s : State) (op : Byte) : (s.openRequest op).err = .noError := rfl
@[simp] theorem State.openRequest_warn (s : State) (op : Byte) : (s.openRequest op).warn = false := rfl
@[simp] theorem State.openRequest_perr (s : State) (op : Byte) : (s.openRequest op).perr = s.perr := rfl
@[simp] theorem State.openRequest_pcause (s : State) (op : Byte) : (s.openRequest op).pcause = s.pcause := rfl
@[simp] theorem State.openRequest_dec (s : State) (op : Byte) : (s.openRequest op).dec = s.dec := rfl
@[simp] theorem State.openRequest_hist (s : State) (op : Byte) : (s.openRequest op).hist = s.hist := rfl
@[simp] theorem State.openRequest_stream (s : State) (op : Byte) : (s.openRequest op).stream = s.stream := rfl
@[simp] theorem State.openRequest_inbox (s : State) (op : Byte) : (s.openRequest op).inbox = s.inbox := rfl
@[simp] theorem State.openRequest_out (s : State) (op : Byte) : (s.openRequest op).out = s.out := rfl

/-! `openResponse` -/

@[simp] theorem State.openResponse_cfg (s : State) (e : U32) (b p : Nat) : (s.openResponse e b p).cfg = s.cfg := rfl
@[simp] theorem State.openResponse_st (s : State) (e : U32) (b p : Nat) : (s.openResponse e b p).st = s.st := rfl
@[simp] theorem State.openResponse_frame (s : State) (e : U32) (b p : Nat) : (s.openResponse e b p).frame = s.frame := rfl
@[simp] theorem State.openResponse_flen (s : State) (e : U32) (b p : Nat) : (s.openResponse e b p).flen = s.flen := rfl
@[simp] theorem State.openResponse_fvalid (s : State) (e : U32) (b p : Nat) : (s.openResponse e b p).fvalid = s.fvalid := rfl
@[simp] theorem State.openResponse_blk (s : State) (e : U32) (b p : Nat) : (s.openResponse e b p).blk = s.blk := rfl
@[simp] theorem State.openResponse_bfill (s : State) (e : U32) (b p : Nat) : (s.openResponse e b p).bfill = s.bfill := rfl
@[simp] theorem State.openResponse_acc (s : State) (e : U32) (b p : Nat) : (s.openResponse e b p).acc = s.acc := rfl
@[simp] theorem State.openResponse_alen (s : State) (e : U32) (b p : Nat) : (s.openResponse e b p).alen = 0 := rfl
@[simp] theorem State.openResponse_reqOp (s : State) (e : U32) (b p : Nat) : (s.openResponse e b p).reqOp = s.reqOp := rfl
@[simp] theorem State.openResponse_reqE (s : State) (e : U32) (b p : Nat) : (s.openResponse e b p).reqE = e := rfl
@[simp] theorem State.openResponse_reqB (s : State) (e : U32) (b p : Nat) : (s.openResponse e b p).reqB = b := rfl
@[simp] theorem State.openResponse_reqP (s : State) (e : U32) (b p : Nat) : (s.openResponse e b p).reqP = BitVec.ofNat 33 p := rfl
@[simp] theorem State.openResponse_rlen (s : State) (e : U32) (b p : Nat) : (s.openResponse e b p).rlen = s.rlen := rfl
@[simp] theorem State.openResponse_err (s : State) (e : U32) (b p : Nat) : (s.openResponse e b p).err = s.err := rfl
@[simp] theorem State.openResponse_warn (s : State) (e : U32) (b p : Nat) : (s.openResponse e b p).warn = s.warn := rfl
@[simp] theorem State.openResponse_perr (s : State) (e : U32) (b p : Nat) : (s.openResponse e b p).perr = s.perr := rfl
@[simp] theorem State.openResponse_pcause (s : State) (e : U32) (b p : Nat) : (s.openResponse e b p).pcause = s.pcause := rfl
@[simp] theorem State.openResponse_dec (s : State) (e : U32) (b p : Nat) : (s.openResponse e b p).dec = s.dec := rfl
@[simp] theorem State.openResponse_hist (s : State) (e : U32) (b p : Nat) : (s.openResponse e b p).hist = s.hist := rfl
@[simp] theorem State.openResponse_stream (s : State) (e : U32) (b p : Nat) : (s.openResponse e b p).stream = s.stream := rfl
@[simp] theorem State.openResponse_inbox (s : State) (e : U32) (b p : Nat) : (s.openResponse e b p).inbox = s.inbox := rfl
@[simp] theorem State.openResponse_out (s : State) (e : U32) (b p : Nat) : (s.openResponse e b p).out = s.out := rfl

/-! `appendAcc` -/

@[simp] theorem State.appendAcc_cfg (s : State) (bs : List Byte) : (s.appendAcc bs).cfg = s.cfg := rfl
@[simp] theorem State.appendAcc_st (s : State) (bs : List Byte) : (s.appendAcc bs).st = s.st := rfl
@[simp] theorem State.appendAcc_frame (s : State) (bs : List Byte) : (s.appendAcc bs).frame = s.frame := rfl
@[simp] theorem State.appendAcc_flen (s : State) (bs : List Byte) : (s.appendAcc bs).flen = s.flen := rfl
@[simp] theorem State.appendAcc_fvalid (s : State) (bs : List Byte) : (s.appendAcc bs).fvalid = s.fvalid := rfl
@[simp] theorem State.appendAcc_blk (s : State) (bs : List Byte) : (s.appendAcc bs).blk = s.blk := rfl
@[simp] theorem State.appendAcc_bfill (s : State) (bs : List Byte) : (s.appendAcc bs).bfill = s.bfill := rfl
@[simp] theorem State.appendAcc_acc (s : State) (bs : List Byte) : (s.appendAcc bs).acc = s.acc.write s.alen bs := rfl
@[simp] theorem State.appendAcc_alen (s : State) (bs : List Byte) : (s.appendAcc bs).alen = s.alen + bs.length := rfl
@[simp] theorem State.appendAcc_reqOp (s : State) (bs : List Byte) : (s.appendAcc bs).reqOp = s.reqOp := rfl
@[simp] theorem State.appendAcc_reqE (s : State) (bs : List Byte) : (s.appendAcc bs).reqE = s.reqE := rfl
@[simp] theorem State.appendAcc_reqB (s : State) (bs : List Byte) : (s.appendAcc bs).reqB = s.reqB := rfl
@[simp] theorem State.appendAcc_reqP (s : State) (bs : List Byte) : (s.appendAcc bs).reqP = s.reqP := rfl
@[simp] theorem State.appendAcc_rlen (s : State) (bs : List Byte) : (s.appendAcc bs).rlen = s.rlen := rfl
@[simp] theorem State.appendAcc_err (s : State) (bs : List Byte) : (s.appendAcc bs).err = s.err := rfl
@[simp] theorem State.appendAcc_warn (s : State) (bs : List Byte) : (s.appendAcc bs).warn = s.warn := rfl
@[simp] theorem State.appendAcc_perr (s : State) (bs : List Byte) : (s.appendAcc bs).perr = s.perr := rfl
@[simp] theorem State.appendAcc_pcause (s : State) (bs : List Byte) : (s.appendAcc bs).pcause = s.pcause := rfl
@[simp] theorem State.appendAcc_dec (s : State) (bs : List Byte) : (s.appendAcc bs).dec = s.dec := rfl
@[simp] theorem State.appendAcc_hist (s : State) (bs : List Byte) : (s.appendAcc bs).hist = s.hist := rfl
@[simp] theorem State.appendAcc_stream (s : State) (bs : List Byte) : (s.appendAcc bs).stream = s.stream := rfl
@[simp] theorem State.appendAcc_inbox (s : State) (bs : List Byte) : (s.appendAcc bs).inbox = s.inbox := rfl
@[simp] theorem State.appendAcc_out (s : State) (bs : List Byte) : (s.appendAcc bs).out = s.out := rfl

/-! `streamWrite` -/

@[simp] theorem State.streamWrite_cfg (s : State) (bs : List Byte) : ((s.streamWrite bs).2).cfg = s.cfg := rfl
@[simp] theorem State.streamWrite_st (s : State) (bs : List Byte) : ((s.streamWrite bs).2).st = s.st := rfl
@[simp] theorem State.streamWrite_frame (s : State) (bs : List Byte) : ((s.streamWrite bs).2).frame = s.frame := rfl
@[simp] theorem State.streamWrite_flen (s : State) (bs : List Byte) : ((s.streamWrite bs).2).flen = s.flen := rfl
@[simp] theorem State.streamWrite_fvalid (s : State) (bs : List Byte) : ((s.streamWrite bs).2).fvalid = s.fvalid := rfl
@[simp] theorem State.streamWrite_blk (s : State) (bs : List Byte) : ((s.streamWrite bs).2).blk = s.blk := rfl
@[simp] theorem State.streamWrite_bfill (s : State) (bs : List Byte) : ((s.streamWrite bs).2).bfill = s.bfill := rfl
@[simp] theorem State.streamWrite_acc (s : State) (bs : List Byte) : ((s.streamWrite bs).2).acc = s.acc := rfl
@[simp] theorem State.streamWrite_alen (s : State) (bs : List Byte) : ((s.streamWrite bs).2).alen = s.alen := rfl
@[simp] theorem State.streamWrite_reqOp (s : State) (bs : List Byte) : ((s.streamWrite bs).2).reqOp = s.reqOp := rfl
@[simp] theorem State.streamWrite_reqE (s : State) (bs : List Byte) : ((s.streamWrite bs).2).reqE = s.reqE := rfl
@[simp] theorem State.streamWrite_reqB (s : State) (bs : List Byte) : ((s.streamWrite bs).2).reqB = s.reqB := rfl
@[simp] theorem State.streamWrite_reqP (s : State) (bs : List Byte) : ((s.streamWrite bs).2).reqP = s.reqP := rfl
@[simp] theorem State.streamWrite_rlen (s : State) (bs : List Byte) : ((s.streamWrite bs).2).rlen = s.rlen := rfl
@[simp] theorem State.streamWrite_err (s : State) (bs : List Byte) : ((s.streamWrite bs).2).err = s.err := rfl
@[simp] theorem State.streamWrite_warn (s : State) (bs : List Byte) : ((s.streamWrite bs).2).warn = s.warn := rfl
@[simp] theorem State.streamWrite_perr (s : State) (bs : List Byte) : ((s.streamWrite bs).2).perr = s.perr := rfl
@[simp] theorem State.streamWrite_pcause (s : State) (bs : List Byte) : ((s.streamWrite bs).2).pcause = s.pcause := rfl
@[simp] theorem State.streamWrite_dec (s : State) (bs : List Byte) : ((s.streamWrite bs).2).dec = s.dec := rfl
@[simp] theorem State.streamWrite_hist (s : State) (bs : List Byte) : ((s.streamWrite bs).2).hist = s.hist ++ [.write bs (s.stream.write bs.length).1.n (s.stream.write bs.length).1.err] := rfl
@[simp] theorem State.streamWrite_stream (s : State) (bs : List Byte) : ((s.streamWrite bs).2).stream = (s.stream.write bs.length).2 := rfl
@[simp] theorem State.streamWrite_inbox (s : State) (bs : List Byte) : ((s.streamWrite bs).2).inbox = s.inbox := rfl
@[simp] theorem State.streamWrite_out (s : State) (bs : List Byte) : ((s.streamWrite bs).2).out = s.out := rfl

/-! `streamRead` -/

@[simp] theorem State.streamRead_cfg (s : State) (m : Nat) : ((s.streamRead m).2).cfg = s.cfg := rfl
@[simp] theorem State.streamRead_st (s : State) (m : Nat) : ((s.streamRead m).2).st = s.st := rfl
@[simp] theorem State.streamRead_frame (s : State) (m : Nat) : ((s.streamRead m).2).frame = s.frame := rfl
@[simp] theorem State.streamRead_flen (s : State) (m : Nat) : ((s.streamRead m).2).flen = s.flen := rfl
@[simp] theorem State.streamRead_fvalid (s : State) (m : Nat) : ((s.streamRead m).2).fvalid = s.fvalid := rfl
@[simp] theorem State.streamRead_blk (s : State) (m : Nat) : ((s.streamRead m).2).blk = s.blk := rfl
@[simp] theorem State.streamRead_bfill (s : State) (m : Nat) : ((s.streamRead m).2).bfill = s.bfill := rfl
@[simp] theorem State.streamRead_acc (s : State) (m : Nat) : ((s.streamRead m).2).acc = s.acc := rfl
@[simp] theorem State.streamRead_alen (s : State) (m : Nat) : ((s.streamRead m).2).alen = s.alen := rfl
@[simp] theorem State.streamRead_reqOp (s : State) (m : Nat) : ((s.streamRead m).2).reqOp = s.reqOp := rfl
@[simp] theorem State.streamRead_reqE (s : State) (m : Nat) : ((s.streamRead m).2).reqE = s.reqE := rfl
@[simp] theorem State.streamRead_reqB (s : State) (m : Nat) : ((s.streamRead m).2).reqB = s.reqB := rfl
@[simp] theorem State.streamRead_reqP (s : State) (m : Nat) : ((s.streamRead m).2).reqP = s.reqP := rfl
@[simp] theorem State.streamRead_rlen (s : State) (m : Nat) : ((s.streamRead m).2).rlen = s.rlen := rfl
@[simp] theorem State.streamRead_err (s : State) (m : Nat) : ((s.streamRead m).2).err = s.err := rfl
@[simp] theorem State.streamRead_warn (s : State) (m : Nat) : ((s.streamRead m).2).warn = s.warn := rfl
@[simp] theorem State.streamRead_perr (s : State) (m : Nat) : ((s.streamRead m).2).perr = s.perr := rfl
@[simp] theorem State.streamRead_pcause (s : State) (m : Nat) : ((s.streamRead m).2).pcause = s.pcause := rfl
@[simp] theorem State.streamRead_dec (s : State) (m : Nat) : ((s.streamRead m).2).dec = s.dec := rfl
@[simp] theorem State.streamRead_hist (s : State) (m : Nat) : ((s.streamRead m).2).hist = s.hist ++ [.read m (s.stream.read m).1.bytes (s.stream.read m).1.err] := rfl
@[simp] theorem State.streamRead_stream (s : State) (m : Nat) : ((s.streamRead m).2).stream = (s.stream.read m).2 := rfl
@[simp] theorem State.streamRead_inbox (s : State) (m : Nat) : ((s.streamRead m).2).inbox = s.inbox := rfl
@[simp] theorem State.streamRead_out (s : State) (m : Nat) : ((s.streamRead m).2).out = s.out := rfl

@[simp] theorem State.streamWrite_answer (s : State) (bs : List Byte) :
    (s.streamWrite bs).1 = (s.stream.write bs.length).1 := rfl
@[simp] theorem State.streamRead_answer (s : State) (m : Nat) :
    (s.streamRead m).1 = (s.stream.read m).1 := rfl

end Sys2Proof.Machine
end

