-- ==== Sys2Proof/Laws/Stream.lean ====
section
/-! SUPPORT. The stream: the bounds of rules R58 and R59 on every answer, what a delivering
stream answers, and replaying recorded calls. -/

namespace Sys2Proof.Machine

theorem boundWrite_err (a : WriteAnswer) (len : Nat) : (boundWrite a len).err = a.err := by
  unfold boundWrite; split <;> simp_all

theorem boundWrite_le (a : WriteAnswer) (len : Nat) (h : (boundWrite a len).err = .ok) :
    (boundWrite a len).n ≤ len := by
  rw [boundWrite_err] at h
  simp only [boundWrite, h]
  omega

/-- Rule R58: a write answered without error takes at most the bytes offered. -/
theorem Stream.write_bound (t : Stream) (len : Nat) (h : (t.write len).1.err = .ok) :
    (t.write len).1.n ≤ len := by
  unfold Stream.write at h ⊢
  split at h <;> exact boundWrite_le _ _ h

/-- Rule R59: a read is answered with at most the bytes asked for. -/
theorem Stream.read_bound (t : Stream) (m : Nat) : (t.read m).1.bytes.length ≤ m := by
  unfold Stream.read
  split <;> simp [boundRead, List.length_take]

@[simp] theorem Stream.read_writes (t : Stream) (m : Nat) : (t.read m).2.writes = t.writes := by
  unfold Stream.read; split <;> rfl

@[simp] theorem Stream.write_reads (t : Stream) (len : Nat) :
    (t.write len).2.reads = t.reads := by
  unfold Stream.write; split <;> rfl

theorem deliverable_cons_ok (a : ReadAnswer) (rest : List ReadAnswer)
    (h : a.err = .ok ∧ a.bytes ≠ []) :
    deliverable (a :: rest) = a.bytes ++ deliverable rest := by simp [deliverable, h]

/-- While there are bytes to deliver, a read returns some of them, in order (rule R60). -/
theorem Stream.read_delivers (t : Stream) (m : Nat) (hm : 1 ≤ m)
    (h : deliverable t.reads ≠ []) :
    (t.read m).1.err = .ok ∧ (t.read m).1.bytes ≠ [] ∧
      deliverable t.reads = (t.read m).1.bytes ++ deliverable (t.read m).2.reads := by
  cases hr : t.reads with
  | nil => simp [hr, deliverable] at h
  | cons a rest =>
    by_cases ha : a.err = .ok ∧ a.bytes ≠ []
    · obtain ⟨he, hb⟩ := ha
      have hpos : 0 < a.bytes.length := List.length_pos_of_ne_nil hb
      refine ⟨by simp [Stream.read, hr, boundRead, he], ?_, ?_⟩
      · simp only [Stream.read, hr, boundRead]
        intro hnil
        have := congrArg List.length hnil
        rw [List.length_take, List.length_nil] at this
        omega
      · rw [deliverable_cons_ok a rest ⟨he, hb⟩]
        simp only [Stream.read, hr, boundRead, leftover, he]
        by_cases hl : a.bytes.length ≤ m
        · simp [hl, List.take_of_length_le hl]
        · have : a.bytes.drop m ≠ [] := by
            intro hnil
            have := congrArg List.length hnil
            simp at this
            omega
          simp only [hl, if_false, List.singleton_append]
          rw [deliverable_cons_ok _ rest ⟨rfl, this⟩, ← List.append_assoc, List.take_append_drop]
    · simp [hr, deliverable, ha] at h

/-! Replay. -/

/-- A call to the stream that `e` records, and no change for another event. -/
def Stream.again (e : Event) (t : Stream) : Stream :=
  match e with
  | .write bs _ _ => (t.write bs.length).2
  | .read m _ _ => (t.read m).2
  | _ => t

/-- All the calls of a history, in order. -/
def Stream.againAll : List Event → Stream → Stream
  | [], t => t
  | e :: es, t => Stream.againAll es (Stream.again e t)

theorem Stream.againAll_append (xs ys : List Event) (t : Stream) :
    Stream.againAll (xs ++ ys) t = Stream.againAll ys (Stream.againAll xs t) := by
  induction xs generalizing t with
  | nil => rfl
  | cons x xs ih => exact ih _

theorem Stream.gave_append (xs ys : List Event) (t : Stream) :
    Stream.gave (xs ++ ys) t ↔ Stream.gave xs t ∧ Stream.gave ys (Stream.againAll xs t) := by
  induction xs generalizing t with
  | nil => simp [Stream.gave, Stream.againAll]
  | cons x xs ih => cases x <;> simp [Stream.gave, Stream.againAll, Stream.again, ih, and_assoc]

/-- A replay of at least as many calls as were made is a replay of them all. -/
theorem Stream.replay_all (k : Nat) (es : List Event) (t : Stream) (h : streamCalls es ≤ k) :
    Stream.replay k es t = Stream.againAll es t := by
  induction es generalizing k t with
  | nil => cases k <;> rfl
  | cons e es ih =>
    cases k with
    | zero =>
      have hc : streamCalls (e :: es) = 0 := by omega
      have hstep : ∀ (es : List Event) (t : Stream), streamCalls es = 0 →
          Stream.againAll es t = t := by
        intro es
        induction es with
        | nil => intros; rfl
        | cons e es ih => intro t h; cases e <;> simp_all [streamCalls, Event.isCall,
            Stream.againAll, Stream.again]
      exact (hstep _ _ hc).symm
    | succ k =>
      cases e <;> simp only [Stream.replay, Stream.againAll, Stream.again] <;> apply ih <;>
        simp only [streamCalls, Event.isCall, List.filter_cons, List.length_cons, if_true,
          Bool.false_eq_true, if_false] at h ⊢ <;> omega

@[simp] theorem streamCalls_append (xs ys : List Event) :
    streamCalls (xs ++ ys) = streamCalls xs + streamCalls ys := by simp [streamCalls]

@[simp] theorem streamCalls_nil : streamCalls [] = 0 := rfl

@[simp] theorem received_append (xs ys : List Event) :
    received (xs ++ ys) = received xs ++ received ys := by
  induction xs with
  | nil => rfl
  | cons x xs ih =>
    cases x with
    | read m bytes err => cases err <;> simp [received, ih]
    | _ => simpa [received] using ih

@[simp] theorem bytesRead_append (xs ys : List Event) :
    bytesRead (xs ++ ys) = bytesRead xs + bytesRead ys := by simp [bytesRead]

@[simp] theorem bytesRead_nil : bytesRead [] = 0 := rfl

@[simp] theorem bytesRead_read_ok (m : Nat) (bytes : List Byte) (es : List Event) :
    bytesRead (.read m bytes .ok :: es) = bytes.length + bytesRead es := by
  simp [bytesRead, received]

@[simp] theorem delivering_nil : delivering [] := by simp [delivering]

theorem delivering_cons {m : Nat} {bytes : List Byte} {es : List Event} (h : bytes ≠ [])
    (hes : delivering es) : delivering (.read m bytes .ok :: es) := by
  intro x hx
  rcases List.mem_cons.1 hx with rfl | hx
  · exact ⟨m, bytes, rfl, h⟩
  · exact hes x hx

theorem delivering_append {xs ys : List Event} (hx : delivering xs) (hy : delivering ys) :
    delivering (xs ++ ys) := fun x h => (List.mem_append.1 h).elim (hx x) (hy x)

theorem asksMissing_nil (b : Nat) : asksMissing b [] := by
  intro pre m bytes err post h
  simp at h

/-- After whole blocks the asking starts anew. -/
theorem asksMissing_append {b : Nat} {xs ys : List Event} (hx : asksMissing b xs)
    (hd : b ∣ bytesRead xs) (hy : asksMissing b ys) : asksMissing b (xs ++ ys) := by
  intro pre m bytes err post h
  rcases List.append_eq_append_iff.1 h with ⟨pre', rfl, h'⟩ | ⟨post', rfl, h'⟩
  · rw [hy pre' m bytes err post h', bytesRead_append, Nat.add_mod, Nat.mod_eq_zero_of_dvd hd,
      Nat.zero_add, Nat.mod_mod]
  · cases post' with
    | nil =>
      have := hy [] m bytes err post (by simpa using h'.symm)
      rw [this]
      simp only [List.append_nil] at hd
      rw [Nat.mod_eq_zero_of_dvd hd, bytesRead_nil, Nat.zero_mod]
    | cons x post' =>
      rw [List.cons_append] at h'
      obtain ⟨rfl, -⟩ := List.cons.inj h'
      exact hx pre m bytes err post' rfl

/-- Replaying calls none of which is a write leaves the coming write answers. -/
theorem Stream.replay_writes (k : Nat) (es : List Event) (t : Stream)
    (h : ∀ e ∈ es, e.isWrite = false) : (Stream.replay k es t).writes = t.writes := by
  induction es generalizing k t with
  | nil => cases k <;> rfl
  | cons e es ih =>
    have hes := fun x hx => h x (List.mem_cons_of_mem e hx)
    cases k with
    | zero => rfl
    | succ k =>
      cases e with
      | write bs n err => simpa [Event.isWrite] using h _ List.mem_cons_self
      | read m bytes err => rw [Stream.replay, ih _ _ hes, Stream.read_writes]
      | _ => exact ih _ _ hes

end Sys2Proof.Machine
end

