-- ==== Sys2Proof/Laws/Blocks.lean ====
section
/-! SUPPORT. What `READ_EXACT` and the data loop of `READ_RESPONSE` can do, said once (rules
R135, R141, R144, R157). -/

namespace Sys2Proof.Machine

/-- How `READ_EXACT` of `b` bytes went from `s` to `t`: the events `es` it recorded and the bytes
`ds` it placed at `BLK[BFILL]` on. -/
structure Filled (b : Nat) (s : State) (r : ExactOutcome) (t : State) (es : List Event)
    (ds : List Byte) : Prop where
  frame : t = { s with blk := t.blk, bfill := t.bfill, hist := t.hist, stream := t.stream }
  hist : t.hist = s.hist ++ es
  fill : t.bfill = s.bfill + ds.length
  bound : t.bfill ≤ b
  read : ∀ a, t.blk.read a =
    if s.bfill ≤ a ∧ a < s.bfill + ds.length then ds[a - s.bfill]? else s.blk.read a
  wf : s.blk.wf → t.blk.wf
  below : ∀ n, b ≤ n → s.blk.below n → t.blk.below n
  calls : ∀ e ∈ es, blockRead b e
  count : es.length ≤ b - s.bfill
  got : received es = ds
  asks : ∀ pre m bytes err post, es = pre ++ .read m bytes err :: post →
    m = b - (s.bfill + bytesRead pre)
  stream : t.stream = Stream.againAll es s.stream
  gave : Stream.gave es s.stream
  outcome : match r with
    | .full => t.bfill = b ∧ delivering es
    | .timeout => t.bfill < b ∧ ∃ pre, es = pre ++ [.read (b - t.bfill) [] .ok] ∧ delivering pre
    | .readErr => t.bfill < b ∧
        ∃ pre bytes, es = pre ++ [.read (b - t.bfill) bytes .error] ∧ delivering pre

/-- How `READ_EXACT` ends on an answer that brings no bytes. -/
def endingOf (a : ReadAnswer) : ExactOutcome := if a.err = .ok then .timeout else .readErr

@[simp] theorem endingOf_timeout : endingOf { bytes := [], err := .ok } = .timeout := rfl
@[simp] theorem endingOf_error (bytes : List Byte) :
    endingOf { bytes := bytes, err := .error } = .readErr := rfl

/-- A full block needs no read. -/
theorem Filled.none {b : Nat} {s : State} (h : s.bfill = b) : Filled b s .full s [] [] :=
  ⟨rfl, by simp, by simp, by omega, fun a => by rw [if_neg (by simp)], id, fun _ _ => id, by simp,
    by simp, rfl, by simp, rfl, trivial, h, delivering_nil⟩

/-- A read that brings no bytes ends the block. -/
theorem Filled.stopped {b : Nat} {s : State} (hlt : s.bfill < b)
    (h : ¬ ((s.stream.read (b - s.bfill)).1.err = .ok ∧
      (s.stream.read (b - s.bfill)).1.bytes ≠ [])) :
    Filled b s (endingOf (s.stream.read (b - s.bfill)).1) (s.streamRead (b - s.bfill)).2
      [.read (b - s.bfill) (s.stream.read (b - s.bfill)).1.bytes
        (s.stream.read (b - s.bfill)).1.err] [] := by
  have hbound := s.stream.read_bound (b - s.bfill)
  have hnone : ∀ a : ReadAnswer, ¬ (a.err = .ok ∧ a.bytes ≠ []) →
      received [.read (b - s.bfill) a.bytes a.err] = [] := by
    rintro ⟨bytes, _ | _⟩ h
    · simpa [received] using h
    · rfl
  constructor
  · rfl
  · rfl
  · rfl
  · exact Nat.le_of_lt hlt
  · intro x
    rw [if_neg (by simp)]
    rfl
  · exact id
  · exact fun _ _ => id
  · intro e he
    rw [List.mem_singleton.1 he]
    exact ⟨_, _, _, rfl, by omega, by omega, hbound⟩
  · simp only [List.length_singleton]
    omega
  · exact hnone _ h
  · intro pre m bytes err post he
    cases pre with
    | nil =>
      injection he with he
      injection he with he
      exact he.symm
    | cons x pre => simp at he
  · rfl
  · exact ⟨rfl, trivial⟩
  · revert h
    generalize (s.stream.read (b - s.bfill)).1 = a
    rcases a with ⟨bytes, _ | _⟩ <;> intro h
    · have h : bytes = [] := by simpa using h
      subst h
      exact ⟨hlt, [], rfl, delivering_nil⟩
    · exact ⟨hlt, [], bytes, rfl, delivering_nil⟩

/-- A read that brings bytes, and what the rest of the loop does after it. -/
theorem Filled.more {b : Nat} {s s1 t : State} {r : ExactOutcome} {es : List Event}
    {ds : List Byte} {a : ReadAnswer} (hlt : s.bfill < b)
    (ha : (s.stream.read (b - s.bfill)).1 = a) (herr : a.err = .ok) (hnil : a.bytes ≠ [])
    (hs1 : s1 = { (s.streamRead (b - s.bfill)).2.memWrite .blk s.bfill a.bytes with
      bfill := s.bfill + a.bytes.length }) (h : Filled b s1 r t es ds) :
    Filled b s r t (.read (b - s.bfill) a.bytes .ok :: es) (a.bytes ++ ds) := by
  have hpos : 0 < a.bytes.length := List.length_pos_of_ne_nil hnil
  have hbound := s.stream.read_bound (b - s.bfill)
  rw [ha] at hbound
  have hf1 : s1.bfill = s.bfill + a.bytes.length := by rw [hs1]
  have hblk1 : s1.blk = s.blk.write s.bfill a.bytes := by rw [hs1]; rfl
  have hst1 : s1.stream = (s.stream.read (b - s.bfill)).2 := by rw [hs1]; rfl
  have hh1 : s1.hist = s.hist ++ [.read (b - s.bfill) a.bytes .ok] := by
    rw [hs1, ← herr, ← ha]
    rfl
  have hlen := h.fill
  rw [hf1] at hlen
  constructor
  · have := h.frame
    rw [hs1] at this
    exact this
  · rw [h.hist, hh1, List.append_assoc]
    rfl
  · rw [hlen, List.length_append, Nat.add_assoc]
  · exact h.bound
  · intro x
    rw [h.read x, hf1, hblk1, Memory.read_write, List.length_append]
    by_cases hx : s.bfill + a.bytes.length ≤ x
    · by_cases hy : x < s.bfill + a.bytes.length + ds.length
      · rw [if_pos ⟨hx, hy⟩, if_pos ⟨by omega, by omega⟩,
          List.getElem?_append_right (by omega)]
        congr 1
        omega
      · rw [if_neg (by omega), if_neg (by omega), if_neg (by omega)]
    · rw [if_neg (by omega)]
      by_cases hy : s.bfill ≤ x
      · rw [if_pos ⟨hy, by omega⟩, if_pos ⟨hy, by omega⟩,
          List.getElem?_append_left (by omega)]
      · rw [if_neg (by omega), if_neg (by omega)]
  · exact fun hw => h.wf (hblk1 ▸ Memory.write_wf _ _ _ hw)
  · exact fun n hn hw => h.below n hn (hblk1 ▸ Memory.write_below _ _ _ _ hw (by omega))
  · intro e he
    rcases List.mem_cons.1 he with rfl | he
    · exact ⟨_, _, _, rfl, by omega, by omega, hbound⟩
    · exact h.calls e he
  · have := h.count
    simp only [List.length_cons]
    omega
  · rw [received, h.got]
  · intro pre m bytes err post he
    cases pre with
    | nil =>
      injection he with he
      injection he with he
      exact he.symm
    | cons x pre =>
      injection he with hx he
      rw [h.asks pre m bytes err post he, hf1, ← hx, bytesRead_read_ok, Nat.add_assoc]
  · rw [h.stream, hst1]
    rfl
  · refine ⟨?_, hst1 ▸ h.gave⟩
    rw [ha, ← herr]
  · have ho := h.outcome
    cases r
    · exact ⟨ho.1, delivering_cons hnil ho.2⟩
    · obtain ⟨h1, pre, rfl, h2⟩ := ho
      exact ⟨h1, _ :: pre, rfl, delivering_cons hnil h2⟩
    · obtain ⟨h1, pre, bytes, rfl, h2⟩ := ho
      exact ⟨h1, _ :: pre, bytes, rfl, delivering_cons hnil h2⟩

/-- One round of the loop, by the answer of its read. -/
theorem fillBlock_round {k b : Nat} {s : State} (hlt : s.bfill < b) :
    fillBlock (k + 1) b s =
      if (s.stream.read (b - s.bfill)).1.err = .ok ∧
          (s.stream.read (b - s.bfill)).1.bytes ≠ [] then
        fillBlock k b
          { (s.streamRead (b - s.bfill)).2.memWrite .blk s.bfill
              (s.stream.read (b - s.bfill)).1.bytes with
            bfill := s.bfill + (s.stream.read (b - s.bfill)).1.bytes.length }
      else (endingOf (s.stream.read (b - s.bfill)).1, (s.streamRead (b - s.bfill)).2) := by
  have hround : fillBlock (k + 1) b s =
      if (s.stream.read (b - s.bfill)).1.err ≠ .ok then
        (.readErr, (s.streamRead (b - s.bfill)).2)
      else if (s.stream.read (b - s.bfill)).1.bytes = [] then
        (.timeout, (s.streamRead (b - s.bfill)).2)
      else fillBlock k b
        { (s.streamRead (b - s.bfill)).2.memWrite .blk s.bfill
            (s.stream.read (b - s.bfill)).1.bytes with
          bfill := s.bfill + (s.stream.read (b - s.bfill)).1.bytes.length } := by
    simp only [fillBlock, if_pos hlt]
    rfl
  rw [hround, endingOf]
  by_cases herr : (s.stream.read (b - s.bfill)).1.err = .ok
  · by_cases hnil : (s.stream.read (b - s.bfill)).1.bytes = []
    · rw [if_neg (not_not.2 herr), if_pos hnil, if_neg (fun h => h.2 hnil), if_pos herr]
    · rw [if_neg (not_not.2 herr), if_neg hnil, if_pos ⟨herr, hnil⟩]
  · rw [if_pos herr, if_neg (fun h => herr h.1), if_neg herr]

theorem fillBlock_spec (k b : Nat) (s : State) (hk : b - s.bfill ≤ k) (hb : s.bfill ≤ b) :
    ∃ es ds, Filled b s (fillBlock k b s).1 (fillBlock k b s).2 es ds := by
  induction k generalizing s with
  | zero => exact ⟨[], [], .none (by omega)⟩
  | succ k ih =>
    by_cases hlt : s.bfill < b
    · rw [fillBlock_round hlt]
      split
      · rename_i hgo
        have hbound := s.stream.read_bound (b - s.bfill)
        have hpos := List.length_pos_of_ne_nil hgo.2
        obtain ⟨es, ds, h⟩ := ih
          { (s.streamRead (b - s.bfill)).2.memWrite .blk s.bfill
              (s.stream.read (b - s.bfill)).1.bytes with
            bfill := s.bfill + (s.stream.read (b - s.bfill)).1.bytes.length }
          (by simp only; omega) (by simp only; omega)
        exact ⟨_, _, .more hlt rfl hgo.1 hgo.2 rfl h⟩
      · exact ⟨_, _, .stopped hlt ‹_›⟩
    · have : fillBlock (k + 1) b s = (.full, s) := by simp [fillBlock, hlt]
      rw [this]
      exact ⟨[], [], .none (by omega)⟩

/-- `READ_EXACT(B)`: the block is filled from its start (rule R135). -/
theorem readExact_spec (b : Nat) (s : State) :
    ∃ es ds, Filled b { s with bfill := 0 } (readExact b s).1 (readExact b s).2 es ds :=
  fillBlock_spec b b { s with bfill := 0 } (by simp) (by simp)

theorem Stream.read_undelivered (t : Stream) (m : Nat) (h : deliverable t.reads ≠ []) :
    undelivered (t.read m).2.reads = undelivered t.reads := by
  cases hr : t.reads with
  | nil => simp [hr, deliverable] at h
  | cons a rest =>
    by_cases ha : a.err = .ok ∧ a.bytes ≠ []
    · simp only [Stream.read, hr, leftover, ha.1, undelivered]
      split
      · simp [ha.2]
      · rename_i hl
        have : a.bytes.drop m ≠ [] := by simp; omega
        simp [undelivered, this, ha.2]
    · simp [hr, deliverable, ha] at h

/-- A stream with enough to deliver fills the block with the next bytes (rules R60, R135). -/
theorem fillBlock_delivers (k b : Nat) (s : State) (hk : b - s.bfill ≤ k) (hb : s.bfill ≤ b)
    (hd : b - s.bfill ≤ (deliverable s.stream.reads).length) :
    (fillBlock k b s).1 = .full ∧
      deliverable s.stream.reads = (deliverable s.stream.reads).take (b - s.bfill) ++
        deliverable (fillBlock k b s).2.stream.reads ∧
      undelivered (fillBlock k b s).2.stream.reads = undelivered s.stream.reads ∧
      (∀ a, (fillBlock k b s).2.blk.read a = if s.bfill ≤ a ∧ a < b then
        (deliverable s.stream.reads)[a - s.bfill]? else s.blk.read a) := by
  induction k generalizing s with
  | zero =>
    have : b - s.bfill = 0 := by omega
    refine ⟨rfl, by simp [fillBlock, this], rfl, fun a => ?_⟩
    rw [if_neg (by omega)]
    rfl
  | succ k ih =>
    by_cases hlt : s.bfill < b
    · have hne : deliverable s.stream.reads ≠ [] := by
        intro h
        rw [h] at hd
        simp at hd
        omega
      obtain ⟨herr, hnil, hsplit⟩ := s.stream.read_delivers (b - s.bfill) (by omega) hne
      have hund := s.stream.read_undelivered (b - s.bfill) hne
      have hbound := s.stream.read_bound (b - s.bfill)
      set a := (s.stream.read (b - s.bfill)).1 with ha
      have hpos : 0 < a.bytes.length := List.length_pos_of_ne_nil hnil
      set s1 : State := { (s.streamRead (b - s.bfill)).2.memWrite .blk s.bfill a.bytes with
        bfill := s.bfill + a.bytes.length } with hs1
      have hstep : fillBlock (k + 1) b s = fillBlock k b s1 := by
        rw [fillBlock_round hlt, if_pos ⟨herr, hnil⟩]
      have hf1 : s1.bfill = s.bfill + a.bytes.length := rfl
      have hst1 : s1.stream = (s.stream.read (b - s.bfill)).2 := rfl
      have hblk1 : s1.blk = s.blk.write s.bfill a.bytes := rfl
      have hlen := congrArg List.length hsplit
      rw [List.length_append] at hlen
      obtain ⟨h1, h2, h3, h4⟩ := ih s1 (by omega) (by omega) (by rw [hst1]; omega)
      rw [hstep]
      refine ⟨h1, ?_, by rw [h3, hst1, hund], fun x => ?_⟩
      · rw [hst1] at h2
        calc deliverable s.stream.reads
            = a.bytes ++ deliverable (s.stream.read (b - s.bfill)).2.reads := hsplit
          _ = a.bytes ++ ((deliverable (s.stream.read (b - s.bfill)).2.reads).take (b - s1.bfill)
                ++ deliverable (fillBlock k b s1).2.stream.reads) := by rw [← h2]
          _ = _ := by
              rw [← List.append_assoc]
              congr 1
              rw [hsplit, List.take_append, List.take_of_length_le hbound]
              congr 2
              omega
      · rw [h4 x, hf1, hst1, hblk1, Memory.read_write]
        by_cases hx : s.bfill + a.bytes.length ≤ x
        · by_cases hy : x < b
          · rw [if_pos ⟨hx, hy⟩, if_pos ⟨by omega, hy⟩, hsplit,
              List.getElem?_append_right (by omega)]
            congr 1
            omega
          · rw [if_neg (by omega), if_neg (by omega), if_neg (by omega)]
        · rw [if_neg (by omega)]
          by_cases hy : s.bfill ≤ x
          · rw [if_pos ⟨hy, by omega⟩, if_pos ⟨hy, by omega⟩, hsplit,
              List.getElem?_append_left (by omega)]
          · rw [if_neg (by omega), if_neg (by omega)]
    · have hz : b - s.bfill = 0 := by omega
      have : fillBlock (k + 1) b s = (.full, s) := by simp [fillBlock, hlt]
      rw [this]
      refine ⟨rfl, by simp [hz], rfl, fun a => ?_⟩
      rw [if_neg (by omega)]

/-- The first answer after the bytes a stream delivers brings none. -/
theorem undelivered_head {reads : List ReadAnswer} {a : ReadAnswer} {rest : List ReadAnswer}
    (h : undelivered reads = a :: rest) : ¬ (a.err = .ok ∧ a.bytes ≠ []) := by
  induction reads with
  | nil => simp [undelivered] at h
  | cons x xs ih =>
    by_cases hx : x.err = .ok ∧ x.bytes ≠ []
    · exact ih (by simpa [undelivered, hx] using h)
    · rw [undelivered, if_neg hx] at h
      injection h with h
      rwa [← h]

/-- A stream that stops, by a timeout or an error, before the block is full leaves the block as
far as it got (rules R135, R187). -/
theorem fillBlock_stops (k b : Nat) (s : State) (hk : b - s.bfill ≤ k) (hb : s.bfill ≤ b)
    (hd : (deliverable s.stream.reads).length < b - s.bfill) (e : ReadAnswer)
    (rest : List ReadAnswer) (hu : undelivered s.stream.reads = e :: rest) :
    (fillBlock k b s).1 = endingOf e ∧
      (fillBlock k b s).2.bfill = s.bfill + (deliverable s.stream.reads).length ∧
      (fillBlock k b s).2.stream.reads = rest ∧
      (∀ a, (fillBlock k b s).2.blk.read a =
        if s.bfill ≤ a ∧ a < s.bfill + (deliverable s.stream.reads).length then
        (deliverable s.stream.reads)[a - s.bfill]? else s.blk.read a) := by
  induction k generalizing s with
  | zero => omega
  | succ k ih =>
    have hlt : s.bfill < b := by omega
    set a := (s.stream.read (b - s.bfill)).1 with ha
    set s1 : State := { (s.streamRead (b - s.bfill)).2.memWrite .blk s.bfill a.bytes with
      bfill := s.bfill + a.bytes.length } with hs1
    by_cases hne : deliverable s.stream.reads = []
    · have hreads : s.stream.reads = e :: rest := by
        cases hr : s.stream.reads with
        | nil => simp [hr, undelivered] at hu
        | cons x xs =>
          by_cases hx : x.err = .ok ∧ x.bytes ≠ []
          · simp [hr, deliverable, hx] at hne
          · simpa [hr, undelivered, hx] using hu
      have hstop := undelivered_head hu
      have hrest : (s.stream.read (b - s.bfill)).2.reads = rest := by
        have hleft : leftover e (b - s.bfill) = [] := by
          unfold leftover
          cases he : e.err
          · have : e.bytes = [] := by simpa [he] using hstop
            simp [this]
          · rfl
        simp [Stream.read, hreads, hleft]
      have herr : a.err = e.err := by simp [ha, Stream.read, hreads, boundRead]
      have hgo : ¬ (a.err = .ok ∧ a.bytes ≠ []) := by
        rintro ⟨h1, h2⟩
        refine hstop ⟨herr ▸ h1, fun h => h2 ?_⟩
        simp [ha, Stream.read, hreads, boundRead, h]
      have hend : fillBlock (k + 1) b s = (endingOf e, (s.streamRead (b - s.bfill)).2) := by
        rw [fillBlock_round hlt, if_neg hgo, endingOf, ← ha, herr, endingOf]
      rw [hend]
      refine ⟨rfl, by simp [hne], by simp [State.streamRead_stream, hrest], fun x => ?_⟩
      rw [hne, if_neg (by simp)]
      simp
    · obtain ⟨herr, hnil, hsplit⟩ := s.stream.read_delivers (b - s.bfill) (by omega) hne
      have hund := s.stream.read_undelivered (b - s.bfill) hne
      have hbound := s.stream.read_bound (b - s.bfill)
      rw [← ha] at herr hnil hsplit hbound
      have hpos : 0 < a.bytes.length := List.length_pos_of_ne_nil hnil
      have hf1 : s1.bfill = s.bfill + a.bytes.length := rfl
      have hst1 : s1.stream = (s.stream.read (b - s.bfill)).2 := rfl
      have hblk1 : s1.blk = s.blk.write s.bfill a.bytes := rfl
      have hlen := congrArg List.length hsplit
      rw [List.length_append] at hlen
      obtain ⟨h1, h2, h3, h4⟩ := ih s1 (by omega) (by omega) (by rw [hst1]; omega)
        (by rw [hst1, hund, hu])
      rw [fillBlock_round hlt, if_pos ⟨herr, hnil⟩]
      refine ⟨h1, by rw [h2, hf1, hst1]; omega, h3, fun x => ?_⟩
      rw [h4 x, hf1, hst1, hblk1, Memory.read_write]
      by_cases hx : s.bfill + a.bytes.length ≤ x
      · by_cases hy : x < s.bfill + (deliverable s.stream.reads).length
        · rw [if_pos ⟨hx, by omega⟩, if_pos ⟨by omega, hy⟩, hsplit,
            List.getElem?_append_right (by omega)]
          congr 1
          omega
        · rw [if_neg (by omega), if_neg (by omega), if_neg (by omega)]
      · rw [if_neg (by omega)]
        by_cases hy : s.bfill ≤ x
        · rw [if_pos ⟨hy, by omega⟩, if_pos ⟨hy, by omega⟩, hsplit,
            List.getElem?_append_left (by omega)]
        · rw [if_neg (by omega), if_neg (by omega)]

end Sys2Proof.Machine
end

