-- ==== Sys2Proof/Laws/Assembly.lean ====
section
/-! SUPPORT. What the data loop of `READ_RESPONSE` can do, said once (rules R141, R144, R145). -/

namespace Sys2Proof.Machine

/-- How the data loop went from `s` to `t`: the events `es` it recorded and the bytes `ds` it
appended to `ACC`. -/
structure Collected (b p : Nat) (s : State) (x : Assembly) (t : State) (es : List Event)
    (ds : List Byte) : Prop where
  frame : t = { s with
    blk := t.blk, bfill := t.bfill, acc := t.acc, alen := t.alen, hist := t.hist,
    stream := t.stream }
  hist : t.hist = s.hist ++ es
  fill : t.alen = s.alen + ds.length
  bound : t.alen ≤ p
  read : ∀ a, t.acc.read a =
    if s.alen ≤ a ∧ a < s.alen + ds.length then ds[a - s.alen]? else s.acc.read a
  wf : s.acc.wf → t.acc.wf
  below : ∀ n, p ≤ n → s.acc.below n → t.acc.below n
  blkWf : s.blk.wf → t.blk.wf
  blkBelow : ∀ n, b ≤ n → s.blk.below n → t.blk.below n
  blkRest : ∀ a, b ≤ a → t.blk.read a = s.blk.read a
  blkFill : s.bfill ≤ 512 → t.bfill ≤ 512
  blkFilled : s.blk.filled s.bfill → t.blk.filled t.bfill
  calls : ∀ e ∈ es, blockRead b e
  count : es.length ≤ p - s.alen
  got : bytesRead es ≤ p - s.alen
  asks : asksMissing b es
  stream : t.stream = Stream.againAll es s.stream
  gave : Stream.gave es s.stream
  outcome : match x with
    | .readFailed => b ∣ ds.length ∧ ds.length + b ≤ p - s.alen ∧
        (∃ part, received es = ds ++ part ∧ part.length < b) ∧
        ∃ pre m bytes, es = pre ++ [.read m bytes .error] ∧ delivering pre
    | .ended => received es = ds ∧ ((t.alen = p ∧ delivering es) ∨
        (t.alen < p ∧ ∃ pre m, es = pre ++ [.read m [] .ok] ∧ delivering pre))

/-- What a finished `READ_EXACT` leaves in `BLK` is what `MemRead(BLK, 0, BFILL)` gives. -/
theorem Filled.memRead {b : Nat} {s : State} {r : ExactOutcome} {t : State} {es : List Event}
    {ds : List Byte} (h : Filled b { s with bfill := 0 } r t es ds) (hb : b ≤ 512) :
    t.memRead .blk 0 t.bfill = .ok ds := by
  have hf := h.fill
  have hbd := h.bound
  simp only [Nat.zero_add] at hf
  refine (State.memRead_ok_iff _ _ _ _ _).2 ⟨?_, hf.symm, fun i hi => ?_⟩
  · simp only [State.bufferSize]
    omega
  · have := h.read (0 + i)
    simp only [State.buffer]
    rw [this]
    simp only [Nat.zero_add, Nat.zero_le, true_and, Nat.sub_zero]
    rw [if_pos (by omega)]

theorem Filled.filled {b : Nat} {s : State} {r : ExactOutcome} {t : State} {es : List Event}
    {ds : List Byte} (h : Filled b { s with bfill := 0 } r t es ds) : t.blk.filled t.bfill := by
  intro a ha
  have hf := h.fill
  simp only [Nat.zero_add] at hf
  rw [h.read a]
  simp only [Nat.zero_add, Nat.zero_le, true_and, Nat.sub_zero]
  rw [if_pos (by omega), List.getElem?_eq_getElem (by omega)]
  rfl

/-- One block asks for what is missing in it. -/
theorem Filled.asksMissing {b : Nat} {s : State} {r : ExactOutcome} {t : State} {es : List Event}
    {ds : List Byte} (h : Filled b { s with bfill := 0 } r t es ds) : asksMissing b es := by
  intro pre m bytes err post he
  have h1 := h.asks pre m bytes err post he
  obtain ⟨_, _, _, hx, h2, -⟩ := h.calls (.read m bytes err) (by rw [he]; simp)
  injection hx with hm
  simp only [Nat.zero_add] at h1
  rw [h1, Nat.mod_eq_of_lt (by omega)]

/-- One round of the data loop that reads a block and appends it. -/
theorem Collected.of_block {b p : Nat} {s : State} {r : ExactOutcome} {t : State}
    {es : List Event} {ds : List Byte} (h : Filled b { s with bfill := 0 } r t es ds)
    (hr : r ≠ .readErr) (hp : s.alen + b ≤ p) (hend : r = .full → s.alen + b = p) (hb : b ≤ 512) :
    Collected b p s .ended (t.appendAcc ds) es ds := by
  have hf := h.fill
  have hbd := h.bound
  simp only [Nat.zero_add] at hf
  have hfr := h.frame
  have halen : t.alen = s.alen := by rw [hfr]
  have hacc : t.acc = s.acc := by rw [hfr]
  constructor
  · simp only [State.appendAcc, State.memWrite]
    rw [hfr]
  · simpa using h.hist
  · simp [halen]
  · simp [halen]; omega
  · intro a
    rw [State.appendAcc_acc, Memory.read_write, hacc, halen]
  · intro hw
    rw [State.appendAcc_acc, hacc]
    exact Memory.write_wf _ _ _ hw
  · intro n hn hw
    rw [State.appendAcc_acc, hacc]
    exact Memory.write_below _ _ _ _ hw (by omega)
  · simpa using h.wf
  · simpa using h.below
  · intro a ha
    have := h.read a
    rw [if_neg (by simp; omega)] at this
    simpa using this
  · intro _
    simp only [State.appendAcc_bfill]
    omega
  · intro _
    simpa using h.filled
  · exact h.calls
  · have := h.count
    simp only [Nat.sub_zero] at this
    omega
  · rw [bytesRead, h.got]
    omega
  · exact h.asksMissing
  · simpa using h.stream
  · exact h.gave
  · have ho := h.outcome
    refine ⟨h.got, ?_⟩
    cases r with
    | full => exact .inl ⟨by have := hend rfl; have := ho.1; simp [halen]; omega, ho.2⟩
    | timeout =>
      obtain ⟨h1, pre, h2, h3⟩ := ho
      exact .inr ⟨by simp [halen]; omega, pre, _, h2, h3⟩
    | readErr => exact absurd rfl hr

theorem collectBlocks_spec (k b p : Nat) (s : State) (hb : 0 < b) (hb' : b ≤ 512)
    (hp : s.alen ≤ p) (hdiv : b ∣ p - s.alen) (hk : p - s.alen ≤ k * b) :
    ∃ x t es ds, collectBlocks k b p s = .ok (x, t) ∧ Collected b p s x t es ds := by
  have done : s.alen = p → Collected b p s .ended s [] [] := fun h =>
    ⟨rfl, by simp, by simp, hp, fun a => by rw [if_neg (by simp)], id, fun _ _ => id, id,
      fun _ _ => id, fun _ _ => rfl, id, id, by simp, by simp, by simp, asksMissing_nil b, rfl,
      trivial, rfl, .inl ⟨h, delivering_nil⟩⟩
  induction k generalizing s with
  | zero => exact ⟨.ended, s, [], [], rfl, done (by omega)⟩
  | succ k ih =>
    by_cases hlt : s.alen < p
    · obtain ⟨q, hq⟩ := hdiv
      have hq1 : b * 1 ≤ b * q := Nat.mul_le_mul_left b (by
        rcases q with _ | q
        · simp at hq; omega
        · omega)
      have hge : s.alen + b ≤ p := by omega
      obtain ⟨es, ds, h⟩ := readExact_spec b s
      have hmem := h.memRead hb'
      have hf := h.fill
      simp only [Nat.zero_add] at hf
      have hfr := h.frame
      have halen : (readExact b s).2.alen = s.alen := by rw [hfr]
      have hacc : (readExact b s).2.acc = s.acc := by rw [hfr]
      simp only [collectBlocks, if_pos hlt]
      rcases hr : readExact b s with ⟨r, t⟩
      rw [hr] at h hmem hf hfr halen hacc
      simp only at h hmem hf hfr halen hacc
      cases r with
      | readErr =>
        refine ⟨.readFailed, t, es, [], rfl, ?_⟩
        have hbd := h.bound
        have hout := h.outcome
        constructor
        · rw [hfr]
        · exact h.hist
        · simp [halen]
        · omega
        · intro a
          rw [if_neg (by simp), hacc]
        · rw [hacc]; exact id
        · rw [hacc]; exact fun _ _ => id
        · exact h.wf
        · exact h.below
        · intro a ha
          rw [h.read a, if_neg (by simp; omega)]
        · intro _; omega
        · intro _; exact h.filled
        · exact h.calls
        · have := h.count
          simp only [Nat.sub_zero] at this
          omega
        · rw [bytesRead, h.got]; omega
        · exact h.asksMissing
        · exact h.stream
        · exact h.gave
        · obtain ⟨_, pre, bytes, hl, hpre⟩ := hout
          exact ⟨by simp, by simp only [List.length_nil]; omega, ⟨ds, h.got, by omega⟩,
            pre, _, bytes, hl, hpre⟩
      | timeout =>
        simp only [hmem]
        exact ⟨.ended, _, es, ds, rfl,
          Collected.of_block h (by simp) hge (by simp) hb'⟩
      | full =>
        simp only [hmem]
        obtain ⟨hfull, hdel⟩ := h.outcome
        have hlen : ds.length = b := by omega
        set s1 := t.appendAcc ds with hs1
        have ha1 : s1.alen = s.alen + b := by simp [hs1, halen]; omega
        obtain ⟨x, u, es', ds', hu, hc⟩ := ih s1 (by omega)
          ⟨q - 1, by rw [Nat.mul_sub, Nat.mul_one, ← hq]; omega⟩
          (by rw [Nat.add_mul] at hk; omega) (fun h => ⟨rfl, by simp, by simp, by omega,
            fun a => by rw [if_neg (by simp)], id, fun _ _ => id, id, fun _ _ => id,
            fun _ _ => rfl, id, id, by simp, by simp, by simp, asksMissing_nil b, rfl, trivial,
            rfl, .inl ⟨h, delivering_nil⟩⟩)
        refine ⟨x, u, es ++ es', ds ++ ds', hu, ?_⟩
        have hcf := hc.fill
        have hcb := hc.bound
        constructor
        · rw [hc.frame]
          simp only [hs1, State.appendAcc, State.memWrite]
          rw [hfr]
        · rw [hc.hist, hs1, State.appendAcc_hist, h.hist, List.append_assoc]
        · rw [hcf, ha1, List.length_append]; omega
        · exact hcb
        · intro a
          rw [hc.read a, ha1, List.length_append]
          have hs1acc : s1.acc.read a =
              if s.alen ≤ a ∧ a < s.alen + ds.length then ds[a - s.alen]? else s.acc.read a := by
            rw [hs1, State.appendAcc_acc, Memory.read_write, hacc, halen]
          rw [hs1acc]
          by_cases hx : s.alen + b ≤ a
          · by_cases hy : a < s.alen + b + ds'.length
            · rw [if_pos ⟨hx, hy⟩, if_pos ⟨by omega, by omega⟩,
                List.getElem?_append_right (by omega)]
              congr 1
              omega
            · rw [if_neg (by omega), if_neg (by omega), if_neg (by omega)]
          · rw [if_neg (by omega)]
            by_cases hy : s.alen ≤ a
            · rw [if_pos ⟨hy, by omega⟩, if_pos ⟨hy, by omega⟩,
                List.getElem?_append_left (by omega)]
            · rw [if_neg (by omega), if_neg (by omega)]
        · intro hw
          refine hc.wf ?_
          rw [hs1, State.appendAcc_acc, hacc]
          exact Memory.write_wf _ _ _ hw
        · intro n hn hw
          refine hc.below n hn ?_
          rw [hs1, State.appendAcc_acc, hacc]
          exact Memory.write_below _ _ _ _ hw (by omega)
        · intro hw
          exact hc.blkWf (by simpa [hs1] using h.wf hw)
        · intro n hn hw
          exact hc.blkBelow n hn (by simpa [hs1] using h.below n hn hw)
        · intro a ha
          rw [hc.blkRest a ha, hs1, State.appendAcc_blk, h.read a, if_neg (by simp; omega)]
        · intro _
          exact hc.blkFill (by simp [hs1]; omega)
        · intro _
          exact hc.blkFilled (by simpa [hs1] using h.filled)
        · intro e he
          rcases List.mem_append.1 he with he | he
          · exact h.calls e he
          · exact hc.calls e he
        · have h1 := h.count
          have h2 := hc.count
          simp only [Nat.sub_zero] at h1
          rw [List.length_append]
          omega
        · have h2 := hc.got
          rw [bytesRead_append, bytesRead, h.got]
          omega
        · refine asksMissing_append h.asksMissing ?_ hc.asks
          rw [bytesRead, h.got, hlen]
        · rw [hc.stream, hs1, State.appendAcc_stream, h.stream, Stream.againAll_append]
        · refine (Stream.gave_append _ _ _).2 ⟨h.gave, ?_⟩
          have := hc.gave
          rwa [hs1, State.appendAcc_stream, h.stream] at this
        · have ho := hc.outcome
          cases x with
          | readFailed =>
            obtain ⟨h1, h2, ⟨part, h3, h4⟩, pre, m, bytes, rfl, h5⟩ := ho
            refine ⟨?_, ?_, ⟨part, ?_, h4⟩, es ++ pre, m, bytes, ?_, delivering_append hdel h5⟩
            · rw [List.length_append, hlen]
              exact Nat.dvd_add (Nat.dvd_refl b) h1
            · rw [List.length_append]
              omega
            · rw [received_append, h.got, h3, List.append_assoc]
            · rw [List.append_assoc]
          | ended =>
            obtain ⟨hg, hl⟩ := ho
            refine ⟨by rw [received_append, h.got, hg], ?_⟩
            rcases hl with ⟨hl, h1⟩ | ⟨h1, pre, m, rfl, h2⟩
            · exact .inl ⟨hl, delivering_append hdel h1⟩
            · exact .inr ⟨h1, es ++ pre, m, by rw [List.append_assoc], delivering_append hdel h2⟩
    · simp only [collectBlocks, if_neg hlt]
      exact ⟨.ended, s, [], [], rfl, done (by omega)⟩

end Sys2Proof.Machine
end

