-- ==== Sys2Proof/Laws/Bytes.lean ====
section
/-! SUPPORT. Field encoders and frame layouts: lengths, and that reading a field back gives what
was written. -/

namespace Sys2Proof.Machine

/-! Fields. -/

@[simp] theorem be16_length (v : U16) : (be16 v).length = 2 := rfl
@[simp] theorem be24_length (v : U24) : (be24 v).length = 3 := rfl
@[simp] theorem be32_length (v : U32) : (be32 v).length = 4 := rfl

theorem append_byte_toNat {n : Nat} (x : BitVec n) (y : Byte) :
    (x ++ y).toNat = x.toNat * 256 + y.toNat := by
  rw [BitVec.toNat_append, ← Nat.shiftLeft_add_eq_or_of_lt y.isLt, Nat.shiftLeft_eq]

theorem ofBe16_toNat (a b : Byte) : (ofBe16 a b).toNat = a.toNat * 256 + b.toNat :=
  append_byte_toNat a b

theorem ofBe24_toNat (a b c : Byte) :
    (ofBe24 a b c).toNat = (a.toNat * 256 + b.toNat) * 256 + c.toNat := by
  rw [← append_byte_toNat a b]; exact append_byte_toNat (a ++ b) c

theorem ofBe32_toNat (a b c d : Byte) :
    (ofBe32 a b c d).toNat = ((a.toNat * 256 + b.toNat) * 256 + c.toNat) * 256 + d.toNat := by
  rw [← append_byte_toNat a b, ← append_byte_toNat (a ++ b) c]
  exact append_byte_toNat (a ++ b ++ c) d

theorem extractByte_toNat {n : Nat} (v : BitVec n) (k : Nat) :
    (v.extractLsb' k 8).toNat = v.toNat / 2 ^ k % 256 := by
  simp [BitVec.extractLsb'_toNat, Nat.shiftRight_eq_div_pow]

theorem ofBe16_be16 (v : U16) : ofBe16 (v.extractLsb' 8 8) (v.extractLsb' 0 8) = v := by
  apply BitVec.eq_of_toNat_eq
  have := v.isLt
  simp only [ofBe16_toNat, extractByte_toNat]
  omega

theorem ofBe24_be24 (v : U24) :
    ofBe24 (v.extractLsb' 16 8) (v.extractLsb' 8 8) (v.extractLsb' 0 8) = v := by
  apply BitVec.eq_of_toNat_eq
  have := v.isLt
  simp only [ofBe24_toNat, extractByte_toNat]
  omega

theorem ofBe32_be32 (v : U32) :
    ofBe32 (v.extractLsb' 24 8) (v.extractLsb' 16 8) (v.extractLsb' 8 8) (v.extractLsb' 0 8) = v := by
  apply BitVec.eq_of_toNat_eq
  have := v.isLt
  simp only [ofBe32_toNat, extractByte_toNat]
  omega

theorem be16_ofBe16 (a b : Byte) : be16 (ofBe16 a b) = [a, b] := by
  have ha := a.isLt
  have hb := b.isLt
  simp only [be16, List.cons.injEq, and_true]
  refine ⟨BitVec.eq_of_toNat_eq ?_, BitVec.eq_of_toNat_eq ?_⟩ <;>
    simp only [ofBe16_toNat, extractByte_toNat] <;> omega

theorem be24_ofBe24 (a b c : Byte) : be24 (ofBe24 a b c) = [a, b, c] := by
  have ha := a.isLt
  have hb := b.isLt
  have hc := c.isLt
  simp only [be24, List.cons.injEq, and_true]
  refine ⟨BitVec.eq_of_toNat_eq ?_, BitVec.eq_of_toNat_eq ?_, BitVec.eq_of_toNat_eq ?_⟩ <;>
    simp only [ofBe24_toNat, extractByte_toNat] <;> omega

theorem be32_ofBe32 (a b c d : Byte) : be32 (ofBe32 a b c d) = [a, b, c, d] := by
  have ha := a.isLt
  have hb := b.isLt
  have hc := c.isLt
  have hd := d.isLt
  simp only [be32, List.cons.injEq, and_true]
  refine ⟨BitVec.eq_of_toNat_eq ?_, BitVec.eq_of_toNat_eq ?_, BitVec.eq_of_toNat_eq ?_,
    BitVec.eq_of_toNat_eq ?_⟩ <;> simp only [ofBe32_toNat, extractByte_toNat] <;> omega

/-! Byte strings. -/

@[simp] theorem zeros_length (n : Nat) : (zeros n).length = n := by simp [zeros]

theorem byteAt_append (xs ys : List Byte) (i : Nat) :
    byteAt (xs ++ ys) i = if i < xs.length then byteAt xs i else byteAt ys (i - xs.length) := by
  simp only [byteAt, List.getD_eq_getElem?_getD]
  split
  · rw [List.getElem?_append_left ‹_›]
  · rw [List.getElem?_append_right (by omega)]

@[simp] theorem byteAt_zeros (n i : Nat) : byteAt (zeros n) i = 0 := by
  simp only [byteAt, zeros, List.getD_eq_getElem?_getD, List.getElem?_replicate]
  split <;> rfl

@[simp] theorem byteAt_cons_zero (x : Byte) (xs : List Byte) : byteAt (x :: xs) 0 = x := rfl
@[simp] theorem byteAt_cons_succ (x : Byte) (xs : List Byte) (i : Nat) :
    byteAt (x :: xs) (i + 1) = byteAt xs i := rfl

theorem slice_append_left (xs ys : List Byte) (a b : Nat) (h : b ≤ xs.length) :
    slice (xs ++ ys) a b = slice xs a b := by
  simp only [slice, List.drop_append, List.take_append, List.length_drop]
  rw [show b - a - (xs.length - a) = 0 by omega]
  simp

theorem slice_append_right (xs ys : List Byte) (a b : Nat) (h : xs.length ≤ a) :
    slice (xs ++ ys) a b = slice ys (a - xs.length) (b - xs.length) := by
  simp only [slice, List.drop_append, List.drop_eq_nil_of_le h, List.nil_append]
  congr 1
  omega

theorem slice_all (xs : List Byte) (b : Nat) (h : b = xs.length) : slice xs 0 b = xs := by
  simp [slice, h]

theorem slice_zeros (n a b : Nat) (h : b ≤ n) : slice (zeros n) a b = zeros (b - a) := by
  simp [slice, zeros, List.drop_replicate, List.take_replicate]
  omega

@[simp] theorem allZero_zeros (n : Nat) : allZero (zeros n) = true := by
  simp [allZero, zeros]

/-! Frames. -/

@[simp] theorem magic_length : magic.length = 4 := rfl
@[simp] theorem header_length (op space flags : Byte) : (header op space flags).length = 7 := rfl

@[simp] theorem slotsBytes_length (slots : List (Byte × U24)) :
    (slotsBytes slots).length = 4 * slots.length := by
  induction slots with
  | nil => rfl
  | cons x xs ih => simp [slotsBytes, slotBytes, ih]; omega

theorem vgetFrame_length (op space flags : Byte) (pre : List Byte) (slots : List (Byte × U24)) :
    (vgetFrame op space flags pre slots).length = 7 + pre.length + 4 * slots.length := by
  simp [vgetFrame]; omega

theorem getFrame_length (op space flags : Byte) (pre : List Byte) (size addr : U32)
    (post : List Byte) :
    (getFrame op space flags pre size addr post).length = 15 + pre.length + post.length := by
  simp [getFrame]; omega

theorem iovmFrame_length (op space flags : Byte) (prog tail : List Byte) :
    (iovmFrame op space flags prog tail).length = 8 + prog.length + tail.length := by
  simp [iovmFrame]; omega

theorem header_take (op space flags : Byte) (rest : List Byte) :
    (header op space flags ++ rest).take 4 = magic := rfl
theorem header_op (op space flags : Byte) (rest : List Byte) :
    byteAt (header op space flags ++ rest) 4 = op := rfl
theorem header_space (op space flags : Byte) (rest : List Byte) :
    byteAt (header op space flags ++ rest) 5 = space := rfl
theorem header_flags (op space flags : Byte) (rest : List Byte) :
    byteAt (header op space flags ++ rest) 6 = flags := rfl

@[simp] theorem frameSlots_length (slots : List (U32 × U32)) (h : slots.length ≤ 8) :
    (frameSlots slots).length = 8 := by
  simp [frameSlots]; omega

/-- The encoders' frames have their fixed length (rule R70). -/
theorem vgetRequest_length (c : Config) (slots : List (U32 × U32)) (h : slots.length ≤ 8) :
    (vgetRequest c slots).length = 64 := by
  simp [vgetRequest, vgetFrame_length, h]

theorem getRequest_length (c : Config) (addr size : U32) :
    (getRequest c addr size).length = 512 := by
  simp [getRequest, getFrame_length]

theorem iovmRequest_length (c : Config) (op space : Byte) (flen : U16) (prog : List Byte)
    (h : iovmOk flen prog = true) :
    (iovmRequest c op space flen prog).length = flen.toNat := by
  simp [iovmOk] at h
  simp [iovmRequest, iovmFrame_length]
  omega

end Sys2Proof.Machine
end

