-- ==== Sys2Proof/Laws/Delivery.lean ====
section
/-! SUPPORT. What the data loop of `READ_RESPONSE` assembles from a stream that delivers (rules
R60, R141, R145), and from one that times out or fails first (rules R141, R187). -/

namespace Sys2Proof.Machine

/-- `READ_EXACT` on a stream with a whole block to deliver. -/
theorem readExact_delivers (b : Nat) (s : State)
    (hd : b ≤ (deliverable s.stream.reads).length) :
    ∃ t es, readExact b s = (.full, t) ∧
      Filled b { s with bfill := 0 } .full t es ((deliverable s.stream.reads).take b) ∧
      deliverable t.stream.reads = (deliverable s.stream.reads).drop b ∧
      undelivered t.stream.reads = undelivered s.stream.reads := by
  obtain ⟨es, ds, h⟩ := readExact_spec b s
  obtain ⟨h1, h2, h3, h4⟩ := fillBlock_delivers b b { s with bfill := 0 } (by simp) (by simp)
    (by simpa using hd)
  change (readExact b s).1 = .full at h1
  refine ⟨(readExact b s).2, es, Prod.ext h1 rfl, ?_, ?_, h3⟩
  · rw [h1] at h
    have hfull : (readExact b s).2.bfill = b := h.outcome.1
    have hf := h.fill
    simp only [Nat.zero_add] at hf
    have hds : ds = (deliverable s.stream.reads).take b := by
      apply List.ext_getElem?
      intro i
      have e1 := h.read i
      have e2 := h4 i
      change (readExact b s).2.blk.read i = _ at e2
      rw [e1] at e2
      simp only [Nat.zero_add, Nat.zero_le, true_and, Nat.sub_zero] at e2
      by_cases hi : i < b
      · rw [if_pos (by omega), if_pos hi] at e2
        rw [e2, List.getElem?_take, if_pos hi]
      · rw [List.getElem?_eq_none (by omega), List.getElem?_eq_none (by simp; omega)]
    rwa [hds] at h
  · simp only [Nat.sub_zero] at h2
    have h5 := List.take_append_drop b (deliverable s.stream.reads)
    exact List.append_cancel_left (h2.symm.trans h5.symm)

/-- `READ_EXACT` on a stream that stops within the block, by a timeout or an error. -/
theorem readExact_stops (b : Nat) (s : State) (e : ReadAnswer) (rest : List ReadAnswer)
    (hd : (deliverable s.stream.reads).length < b)
    (hu : undelivered s.stream.reads = e :: rest) :
    ∃ t es, readExact b s = (endingOf e, t) ∧
      Filled b { s with bfill := 0 } (endingOf e) t es (deliverable s.stream.reads) ∧
      t.stream.reads = rest := by
  obtain ⟨es, ds, h⟩ := readExact_spec b s
  obtain ⟨h1, h2, h3, h4⟩ := fillBlock_stops b b { s with bfill := 0 } (by simp) (by simp)
    (by simpa using hd) e rest hu
  change (readExact b s).1 = endingOf e at h1
  refine ⟨(readExact b s).2, es, Prod.ext h1 rfl, ?_, h3⟩
  rw [h1] at h
  have hf := h.fill
  change (readExact b s).2.bfill = _ at h2
  simp only [Nat.zero_add] at hf h2
  have hds : ds = deliverable s.stream.reads := by
    apply List.ext_getElem?
    intro i
    have e1 := h.read i
    have e2 := h4 i
    change (readExact b s).2.blk.read i = _ at e2
    rw [e1] at e2
    simp only [Nat.zero_add, Nat.zero_le, true_and, Nat.sub_zero] at e2
    by_cases hi : i < ds.length
    · rwa [if_pos hi, if_pos (by omega)] at e2
    · rw [List.getElem?_eq_none (by omega), List.getElem?_eq_none (by omega)]
  rwa [hds] at h

/-- The whole padded response is delivered: the loop ends at the padded size with exactly the
next bytes of the stream in `ACC`. -/
theorem collectBlocks_delivers (k b p : Nat) (s : State) (hb : 0 < b) (hb' : b ≤ 512)
    (hp : s.alen ≤ p) (hdiv : b ∣ p - s.alen) (hk : p - s.alen ≤ k * b)
    (hd : p - s.alen ≤ (deliverable s.stream.reads).length) :
    ∃ t, collectBlocks k b p s = .ok (.ended, t) ∧ t.alen = p ∧
      (∀ a, t.acc.read a = if s.alen ≤ a ∧ a < p then
        (deliverable s.stream.reads)[a - s.alen]? else s.acc.read a) ∧
      deliverable t.stream.reads = (deliverable s.stream.reads).drop (p - s.alen) := by
  have done : s.alen = p → ∃ t, Except.ok (Assembly.ended, s) = (.ok (.ended, t) : Except Fault _) ∧
      t.alen = p ∧ (∀ a, t.acc.read a = if s.alen ≤ a ∧ a < p then
        (deliverable s.stream.reads)[a - s.alen]? else s.acc.read a) ∧
      deliverable t.stream.reads = (deliverable s.stream.reads).drop (p - s.alen) := fun h =>
    ⟨s, rfl, h, fun a => by rw [if_neg (by omega)], by simp [h]⟩
  induction k generalizing s with
  | zero => exact done (by omega)
  | succ k ih =>
    by_cases hlt : s.alen < p
    · clear done
      obtain ⟨q, hq⟩ := hdiv
      have hq1 : b * 1 ≤ b * q := Nat.mul_le_mul_left b (by
        rcases q with _ | q
        · simp at hq; omega
        · omega)
      obtain ⟨t, es, hr, h, hdr, -⟩ := readExact_delivers b s (by omega)
      have hmem := h.memRead hb'
      have hfr := h.frame
      have halen : t.alen = s.alen := by rw [hfr]
      have hacc : t.acc = s.acc := by rw [hfr]
      have hlen : ((deliverable s.stream.reads).take b).length = b := by
        rw [List.length_take]; omega
      simp only [collectBlocks, if_pos hlt, hr, hmem]
      set s1 := t.appendAcc ((deliverable s.stream.reads).take b) with hs1
      have ha1 : s1.alen = s.alen + b := by rw [hs1, State.appendAcc_alen, halen, hlen]
      have hst1 : deliverable s1.stream.reads = (deliverable s.stream.reads).drop b := by
        rw [hs1, State.appendAcc_stream, hdr]
      obtain ⟨u, hu1, hu2, hu3, hu4⟩ := ih s1 (by omega)
        ⟨q - 1, by rw [Nat.mul_sub, Nat.mul_one, ← hq]; omega⟩
        (by rw [Nat.add_mul] at hk; omega) (by rw [hst1, List.length_drop]; omega)
        (fun h => ⟨s1, rfl, h, fun a => by rw [if_neg (by omega)], by simp [h]⟩)
      refine ⟨u, hu1, hu2, fun a => ?_, ?_⟩
      · have hs1acc : s1.acc.read a = if s.alen ≤ a ∧ a < s.alen + b then
            ((deliverable s.stream.reads).take b)[a - s.alen]? else s.acc.read a := by
          rw [hs1, State.appendAcc_acc, Memory.read_write, hacc, halen, hlen]
        rw [hu3 a, ha1, hst1, hs1acc]
        by_cases hx : s.alen + b ≤ a
        · by_cases hy : a < p
          · rw [if_pos ⟨hx, hy⟩, if_pos ⟨by omega, hy⟩, List.getElem?_drop]
            congr 1
            omega
          · rw [if_neg (by omega), if_neg (by omega), if_neg (by omega)]
        · rw [if_neg (by omega)]
          by_cases hy : s.alen ≤ a
          · rw [if_pos ⟨hy, by omega⟩, if_pos ⟨hy, by omega⟩, List.getElem?_take,
              if_pos (by omega)]
          · rw [if_neg (by omega), if_neg (by omega)]
      · rw [hu4, ha1, hst1, List.drop_drop]
        congr 1
        omega
    · simp only [collectBlocks, if_neg hlt]
      exact done (by omega)

/-- How the data loop ends on an answer that brings no bytes. -/
def assemblyOf (a : ReadAnswer) : Assembly := if a.err = .ok then .ended else .readFailed

/-- How many of `n` bytes delivered before such an answer the data loop keeps: all of them before a
timeout, the whole blocks before an error (rule R141). -/
def keptOf (a : ReadAnswer) (b n : Nat) : Nat := if a.err = .ok then n else n / b * b

@[simp] theorem assemblyOf_timeout : assemblyOf { bytes := [], err := .ok } = .ended := rfl
@[simp] theorem assemblyOf_error (bytes : List Byte) :
    assemblyOf { bytes := bytes, err := .error } = .readFailed := rfl
@[simp] theorem keptOf_timeout (b n : Nat) : keptOf { bytes := [], err := .ok } b n = n := rfl
@[simp] theorem keptOf_error (bytes : List Byte) (b n : Nat) :
    keptOf { bytes := bytes, err := .error } b n = n / b * b := rfl

/-- The stream stops before the padded response is complete: the loop ends with exactly the bytes
it keeps. -/
theorem collectBlocks_stops (k b p : Nat) (s : State) (e : ReadAnswer) (rest : List ReadAnswer)
    (hb : 0 < b)
    (hb' : b ≤ 512) (hp : s.alen ≤ p) (hdiv : b ∣ p - s.alen) (hk : p - s.alen ≤ k * b)
    (hd : (deliverable s.stream.reads).length < p - s.alen)
    (hu : undelivered s.stream.reads = e :: rest) :
    ∃ t, collectBlocks k b p s = .ok (assemblyOf e, t) ∧
      t.alen = s.alen + keptOf e b (deliverable s.stream.reads).length ∧
      (∀ a, t.acc.read a =
        if s.alen ≤ a ∧ a < s.alen + keptOf e b (deliverable s.stream.reads).length then
        (deliverable s.stream.reads)[a - s.alen]? else s.acc.read a) ∧
      t.stream.reads = rest := by
  induction k generalizing s with
  | zero => omega
  | succ k ih =>
    have hlt : s.alen < p := by omega
    obtain ⟨q, hq⟩ := hdiv
    have hq1 : b * 1 ≤ b * q := Nat.mul_le_mul_left b (by
      rcases q with _ | q
      · simp at hq; omega
      · omega)
    by_cases hblk : (deliverable s.stream.reads).length < b
    · obtain ⟨t, es, hr, h, hrest⟩ := readExact_stops b s e rest hblk hu
      have hmem := h.memRead hb'
      have hfr := h.frame
      have halen : t.alen = s.alen := by rw [hfr]
      have hacc : t.acc = s.acc := by rw [hfr]
      by_cases he : e.err = .ok
      · simp only [endingOf, he, if_true] at hr
        simp only [collectBlocks, if_pos hlt, hr, hmem, assemblyOf, keptOf, he, if_true]
        refine ⟨_, rfl, by rw [State.appendAcc_alen, halen], fun a => ?_, ?_⟩
        · rw [State.appendAcc_acc, Memory.read_write, hacc, halen]
        · rw [State.appendAcc_stream, hrest]
      · simp only [endingOf, he, if_false] at hr
        simp only [collectBlocks, if_pos hlt, hr, assemblyOf, keptOf, he, if_false,
          Nat.div_eq_of_lt hblk, Nat.zero_mul]
        exact ⟨_, rfl, halen, fun a => by rw [if_neg (by omega), hacc], hrest⟩
    · obtain ⟨t, es, hr, h, hdr, hund⟩ := readExact_delivers b s (by omega)
      have hmem := h.memRead hb'
      have hfr := h.frame
      have halen : t.alen = s.alen := by rw [hfr]
      have hacc : t.acc = s.acc := by rw [hfr]
      have hlen : ((deliverable s.stream.reads).take b).length = b := by
        rw [List.length_take]; omega
      simp only [collectBlocks, if_pos hlt, hr, hmem]
      set s1 := t.appendAcc ((deliverable s.stream.reads).take b) with hs1
      have ha1 : s1.alen = s.alen + b := by rw [hs1, State.appendAcc_alen, halen, hlen]
      have hst1 : deliverable s1.stream.reads = (deliverable s.stream.reads).drop b := by
        rw [hs1, State.appendAcc_stream, hdr]
      obtain ⟨u, hu1, hu2, hu3, hu4⟩ := ih s1 (by omega)
        ⟨q - 1, by rw [Nat.mul_sub, Nat.mul_one, ← hq]; omega⟩
        (by rw [Nat.add_mul] at hk; omega) (by rw [hst1, List.length_drop]; omega)
        (by rw [hs1, State.appendAcc_stream, hund, hu])
      have hkept : b + keptOf e b ((deliverable s.stream.reads).length - b) =
          keptOf e b (deliverable s.stream.reads).length := by
        unfold keptOf
        split
        · omega
        · rw [Nat.div_eq_sub_div (a := (deliverable s.stream.reads).length) hb (by omega),
            Nat.add_mul]
          omega
      have hle : keptOf e b (deliverable s.stream.reads).length ≤
          (deliverable s.stream.reads).length := by
        unfold keptOf
        split
        · exact Nat.le_refl _
        · exact Nat.div_mul_le_self _ _
      refine ⟨u, hu1, ?_, fun a => ?_, hu4⟩
      · rw [hu2, ha1, hst1, List.length_drop]; omega
      · have hs1acc : s1.acc.read a = if s.alen ≤ a ∧ a < s.alen + b then
            ((deliverable s.stream.reads).take b)[a - s.alen]? else s.acc.read a := by
          rw [hs1, State.appendAcc_acc, Memory.read_write, hacc, halen, hlen]
        rw [hu3 a, ha1, hst1, hs1acc, List.length_drop]
        by_cases hx : s.alen + b ≤ a
        · by_cases hy : a < s.alen + keptOf e b (deliverable s.stream.reads).length
          · rw [if_pos ⟨hx, by omega⟩, if_pos ⟨by omega, hy⟩, List.getElem?_drop]
            congr 1
            omega
          · rw [if_neg (by omega), if_neg (by omega), if_neg (by omega)]
        · rw [if_neg (by omega)]
          by_cases hy : s.alen ≤ a
          · rw [if_pos ⟨hy, by omega⟩, if_pos ⟨hy, by omega⟩, List.getElem?_take,
              if_pos (by omega)]
          · rw [if_neg (by omega), if_neg (by omega)]

end Sys2Proof.Machine
end

