-- ==== Sys2Proof/Laws/Commands.lean ====
section
/-! SUPPORT. What each shared part of a command can answer, said once: the gate of rule R172,
`WRITE_FRAME`, `READ_RESPONSE` and the transactions. -/

namespace Sys2Proof.Machine

/-! The gate and the operand checks. -/

theorem State.command_next {s t : State} {body : State → Host.Outcome State Fault Refusal} :
    s.command body = .next t ↔
      (s.perr = true ∧ t = s.returnsNothing) ∨ (s.perr = false ∧ body s = .next t) := by
  unfold State.command
  cases h : s.perr <;> simp [eq_comm]

theorem State.command_run {s : State} (h : s.perr = false)
    (body : State → Host.Outcome State Fault Refusal) : s.command body = body s := by
  simp [State.command, h]

theorem blockSize_some {bsz : U16} {b : BlockSize} (h : blockSize bsz = some b) :
    bsz.toNat = blockBytes b := by
  unfold blockSize at h
  split at h
  · cases h; assumption
  · split at h
    · cases h; assumption
    · cases h

theorem blockSize_none {bsz : U16} (h : blockSize bsz = none) :
    bsz.toNat ≠ 64 ∧ bsz.toNat ≠ 512 := by
  unfold blockSize at h
  split at h
  · cases h
  · split at h
    · cases h
    · exact ⟨‹_›, ‹_›⟩

theorem blockBytes_pos (b : BlockSize) : 0 < blockBytes b := by cases b <;> decide
theorem blockBytes_le (b : BlockSize) : blockBytes b ≤ 512 := by cases b <;> decide

theorem Phase.pending_iff (p : Phase) :
    p.pending = true ↔ p = .awaitingAck ∨ p = .receivingBlocks := by
  simp [Phase.pending]

theorem paddedSize_dvd (size b : Nat) : b ∣ paddedSize size b := by
  unfold paddedSize
  split
  · exact ⟨size / b + 1, by rw [Nat.mul_add, Nat.mul_one, Nat.mul_comm]⟩
  · exact ⟨size / b, by rw [Nat.add_zero, Nat.mul_comm]⟩

theorem le_paddedSize (size b : Nat) (hb : 0 < b) : size ≤ paddedSize size b := by
  have h1 := Nat.div_add_mod size b
  have h2 := Nat.mod_lt size hb
  rw [Nat.mul_comm] at h1
  unfold paddedSize
  split <;> omega

theorem paddedSize_lt (size b : Nat) (hb : 0 < b) : paddedSize size b < size + b := by
  have h1 := Nat.div_add_mod size b
  rw [Nat.mul_comm] at h1
  unfold paddedSize
  split <;> omega

/-- The padded size of a 32-bit size fits 33 bits (rule R121 (e)). -/
theorem paddedSize_fits (e : U32) (b : BlockSize) :
    (BitVec.ofNat 33 (paddedSize e.toNat (blockBytes b))).toNat =
      paddedSize e.toNat (blockBytes b) := by
  have := e.isLt
  have := paddedSize_lt e.toNat (blockBytes b) (blockBytes_pos b)
  have := blockBytes_le b
  rw [BitVec.toNat_ofNat, Nat.mod_eq_of_lt (by omega)]

/-! `WRITE_FRAME`. -/

theorem State.memRead_one {s : State} {b : Buffer} {a : Nat} {bs : List Byte}
    (h : s.memRead b a 1 = .ok bs) :
    bs = [byteAt bs 0] ∧ (s.buffer b).read a = some (byteAt bs 0) := by
  obtain ⟨-, hl, hr⟩ := (State.memRead_ok_iff _ _ _ _ _).1 h
  obtain ⟨x, rfl⟩ := List.length_eq_one_iff.1 hl
  exact ⟨rfl, by simpa using hr 0 (by omega)⟩

/-- The answers of `WRITE_FRAME`: its three faults in order, and one request sent (rule R130). -/
theorem writeFrame_next {s t : State} (h : writeFrame s = .next t) :
    (s.st.pending = true ∧ t = s.progFault .busy) ∨
    (s.st.pending = false ∧ s.fvalid = false ∧ t = s.progFault .noFrame) ∨
    (s.st.pending = false ∧ s.fvalid = true ∧ ∃ op, s.frame.read 4 = some op ∧
      op ≠ s.cfg.opGet ∧ op ≠ s.cfg.opVget ∧ t = s.progFault .unsupported) ∨
    (s.st.pending = false ∧ s.fvalid = true ∧ ∃ op bs, s.frame.read 4 = some op ∧
      (op = s.cfg.opGet ∨ op = s.cfg.opVget) ∧ s.memRead .frame 0 s.flen = .ok bs ∧
      t = sendFrame op bs (s.openRequest op)) := by
  unfold writeFrame at h
  split at h
  · exact .inl ⟨‹_›, by simpa using h.symm⟩
  · rename_i hp
    have hp : s.st.pending = false := by simpa using hp
    split at h
    · exact .inr (.inl ⟨hp, ‹_›, by simpa using h.symm⟩)
    · rename_i hv
      have hv : s.fvalid = true := by simpa using hv
      split at h
      · cases h
      · rename_i head hh
        obtain ⟨-, hr⟩ := State.memRead_one hh
        simp only at h
        split at h
        · rename_i hop
          exact .inr (.inr (.inl ⟨hp, hv, _, hr, hop.1, hop.2, by simpa using h.symm⟩))
        · rename_i hop
          split at h
          · cases h
          · rename_i bs hbs
            refine .inr (.inr (.inr ⟨hp, hv, _, bs, hr, ?_, hbs, by simpa using h.symm⟩))
            by_cases h1 : byteAt head 0 = s.cfg.opGet
            · exact .inl h1
            · exact .inr (by_contra fun h2 => hop ⟨h1, h2⟩)

/-- `WRITE_FRAME` of a whole, sendable frame opens the request and sends it (rule R130). -/
theorem writeFrame_sends {s : State} {op : Byte} {bs : List Byte} (hp : s.st.pending = false)
    (hv : s.fvalid = true) (h4 : 5 ≤ s.flen) (hm : s.memRead .frame 0 s.flen = .ok bs)
    (hop : byteAt bs 4 = op) (hs : op = s.cfg.opGet ∨ op = s.cfg.opVget) :
    writeFrame s = .next (sendFrame op bs (s.openRequest op)) := by
  obtain ⟨hle, hl, hr⟩ := (State.memRead_ok_iff _ _ _ _ _).1 hm
  have m1 : s.memRead .frame 4 1 = .ok [op] := by
    refine (State.memRead_ok_iff _ _ _ _ _).2 ⟨by omega, rfl, fun i hi => ?_⟩
    have hi : i = 0 := by omega
    have := hr 4 (by omega)
    subst hi hop
    simpa [byteAt, show 4 < bs.length by omega] using this
  have m2 : (s.openRequest op).memRead .frame 0 (s.openRequest op).flen = .ok bs := hm
  unfold writeFrame
  rw [hp, if_neg (by simp), if_neg (by simp [hv]), m1]
  dsimp only
  rw [byteAt_cons_zero, if_neg (by rcases hs with h | h <;> simp [h]), m2]

/-- The states `WRITE_FRAME` can end a sent request in, by the stream's answer (rule R130). -/
theorem sendFrame_eq (op : Byte) (bs : List Byte) (s : State) :
    sendFrame op bs s =
      (let a := (s.stream.write bs.length).1
       let u := { s with
          fvalid := false
          stream := (s.stream.write bs.length).2
          hist := s.hist ++ [Event.write bs a.n a.err] : State }
       if a.err ≠ .ok then u.fail .writeError
       else if a.n < s.flen then u.fail .shortWrite
       else State.returnsPhase
        { u with st := if op = s.cfg.opGet then .awaitingAck else .receivingBlocks }) := rfl

/-! `READ_RESPONSE`. -/

/-- The data blocks: never a buffer fault, and one of two ends (rules R141, R142). -/
theorem receiveData_spec (e : U32) (b : BlockSize) (p : Nat) (s : State) (ha : s.alen = 0)
    (hp : blockBytes b ∣ p) :
    ∃ x u es ds, collectBlocks (p / blockBytes b) (blockBytes b) p s = .ok (x, u) ∧
      Collected (blockBytes b) p s x u es ds ∧
      receiveData e (blockBytes b) p s = .next (match x with
        | .readFailed => u.fail .readError
        | .ended => finishResponse e p u) := by
  obtain ⟨x, u, es, ds, h1, h2⟩ := collectBlocks_spec (p / blockBytes b) (blockBytes b) p s
    (blockBytes_pos b) (blockBytes_le b) (by omega) (by rw [ha]; exact hp)
    (by rw [ha, Nat.div_mul_cancel hp]; omega)
  refine ⟨x, u, es, ds, h1, h2, ?_⟩
  unfold receiveData
  rw [h1]
  cases x <;> rfl

/-- The ack block of a GET: one `READ_EXACT`, and one of three ends (rule R140). -/
theorem receiveAck_spec (e : U32) (b p : Nat) (s : State) :
    ∃ es ds, Filled b { s with bfill := 0 } (readExact b s).1 (readExact b s).2 es ds ∧
      receiveAck e b p s = (match (readExact b s).1 with
        | .readErr => .next ((readExact b s).2.fail .readError)
        | .timeout => .next ((readExact b s).2.fail .ackTimeout)
        | .full => receiveData e b p { (readExact b s).2 with st := .receivingBlocks }) := by
  obtain ⟨es, ds, h⟩ := readExact_spec b s
  exact ⟨es, ds, h, rfl⟩

/-- The answers of `READ_RESPONSE`: its faults in order, or the blocks (rule R140). -/
theorem readResponse_cases (e : U32) (bsz : U16) (s : State) :
    (s.st.pending = false ∧ readResponse e bsz s = .next (s.progFault .notPending)) ∨
    (s.st.pending = true ∧ (blockSize bsz = none ∨ e.toNat < 1) ∧
      readResponse e bsz s = .next (s.progFault .range)) ∨
    (s.st.pending = true ∧ 1 ≤ e.toNat ∧ ∃ b, blockSize bsz = some b ∧
      s.cfg.accCap < paddedSize e.toNat (blockBytes b) ∧
      readResponse e bsz s = .next (s.progFault .capacity)) ∨
    (s.st.pending = true ∧ 1 ≤ e.toNat ∧ ∃ b, blockSize bsz = some b ∧
      paddedSize e.toNat (blockBytes b) ≤ s.cfg.accCap ∧
      readResponse e bsz s =
        (let p := paddedSize e.toNat (blockBytes b)
         let u := s.openResponse e (blockBytes b) p
         if s.st = .awaitingAck then receiveAck e (blockBytes b) p u
         else receiveData e (blockBytes b) p u)) := by
  unfold readResponse
  cases hp : s.st.pending with
  | false => exact .inl ⟨rfl, rfl⟩
  | true =>
    rw [if_neg (by simp)]
    cases hb : blockSize bsz with
    | none => exact .inr (.inl ⟨rfl, .inl rfl, rfl⟩)
    | some b =>
      by_cases he : e.toNat < 1
      · exact .inr (.inl ⟨rfl, .inr he, by simp [he]⟩)
      · by_cases hc : s.cfg.accCap < paddedSize e.toNat (blockBytes b)
        · exact .inr (.inr (.inl ⟨rfl, by omega, b, rfl, hc, by simp [he, hc]⟩))
        · refine .inr (.inr (.inr ⟨rfl, by omega, b, rfl, by omega, ?_⟩))
          simp only [he, hc, if_false]
          rfl

/-- `READ_RESPONSE` past all its checks reads the blocks (rule R140). -/
theorem readResponse_runs {s : State} {e : U32} {bsz : U16} {b : BlockSize}
    (hp : s.st.pending = true) (hb : blockSize bsz = some b) (he : 1 ≤ e.toNat)
    (hc : paddedSize e.toNat (blockBytes b) ≤ s.cfg.accCap) :
    readResponse e bsz s =
      (let p := paddedSize e.toNat (blockBytes b)
       let u := s.openResponse e (blockBytes b) p
       if s.st = .awaitingAck then receiveAck e (blockBytes b) p u
       else receiveData e (blockBytes b) p u) := by
  rcases readResponse_cases e bsz s with ⟨h, _⟩ | ⟨_, h, _⟩ | ⟨_, _, b', h1, h2, _⟩ |
    ⟨_, _, b', h1, _, h⟩
  · rw [hp] at h
    cases h
  · rw [hb] at h
    simp at h
    omega
  · rw [hb] at h1
    cases h1
    omega
  · rw [hb] at h1
    cases h1
    exact h

/-- The end of an assembly: a failure, or a completed request with or without the warning
(rule R142). -/
theorem finishResponse_cases (e : U32) (p : Nat) (s : State) :
    (s.alen < e.toNat ∧ finishResponse e p s = s.fail .shortResponse) ∨
    (e.toNat ≤ s.alen ∧ s.alen = p ∧ finishResponse e p s = completeRequest e s) ∨
    (e.toNat ≤ s.alen ∧ s.alen ≠ p ∧ s.cfg.mismatchIsError = true ∧ finishResponse e p s =
      ({ s with warn := true }.emit (.mismatch s.alen p)).fail .mismatch) ∨
    (e.toNat ≤ s.alen ∧ s.alen ≠ p ∧ s.cfg.mismatchIsError = false ∧ finishResponse e p s =
      completeRequest e ({ s with warn := true }.emit (.mismatch s.alen p))) := by
  unfold finishResponse
  by_cases h1 : s.alen < e.toNat
  · exact .inl ⟨h1, by simp [h1]⟩
  · by_cases h2 : s.alen = p
    · exact .inr (.inl ⟨by omega, h2, by rw [if_neg h1, if_neg (by simpa using h2)]⟩)
    · cases h3 : s.cfg.mismatchIsError
      · exact .inr (.inr (.inr ⟨by omega, h2, rfl, by simp [h1, h2, h3]⟩))
      · exact .inr (.inr (.inl ⟨by omega, h2, rfl, by simp [h1, h2, h3]⟩))

/-- `READ_RESPONSE` past the gate always answers a next state: no buffer fault (rule R144 (b)). -/
theorem readResponse_answers (e : U32) (bsz : U16) (s : State) :
    ∃ t, readResponse e bsz s = .next t := by
  rcases readResponse_cases e bsz s with ⟨_, h⟩ | ⟨_, _, h⟩ | ⟨_, _, _, _, _, h⟩ | ⟨_, _, b, _, _, h⟩
  · exact ⟨_, h⟩
  · exact ⟨_, h⟩
  · exact ⟨_, h⟩
  · simp only at h
    rw [h]
    have hdvd := paddedSize_dvd e.toNat (blockBytes b)
    split
    · obtain ⟨es, ds, hf, ho⟩ := receiveAck_spec e (blockBytes b)
        (paddedSize e.toNat (blockBytes b)) (s.openResponse e (blockBytes b)
          (paddedSize e.toNat (blockBytes b)))
      rw [ho]
      have hal : (readExact (blockBytes b) (s.openResponse e (blockBytes b)
          (paddedSize e.toNat (blockBytes b)))).2.alen = 0 := by rw [hf.frame]; rfl
      split
      · exact ⟨_, rfl⟩
      · exact ⟨_, rfl⟩
      · obtain ⟨_, _, _, _, _, _, h⟩ := receiveData_spec e b _
          { (readExact (blockBytes b) (s.openResponse e (blockBytes b)
            (paddedSize e.toNat (blockBytes b)))).2 with st := .receivingBlocks } hal hdvd
        exact ⟨_, h⟩
    · obtain ⟨_, _, _, _, _, _, h⟩ := receiveData_spec e b _ (s.openResponse e (blockBytes b)
        (paddedSize e.toNat (blockBytes b))) rfl hdvd
      exact ⟨_, h⟩

/-! The transactions. -/

/-- The answers of a transaction after its encode (rules R94, R155, R156). -/
theorem transact_next {e : U32} {bsz : U16} {s t : State} (h : transact e bsz s = .next t) :
    (s.perr = true ∧ t = s) ∨
    (s.perr = false ∧ writeFrame s = .next t ∧ (t.perr = true ∨ t.st = .failed)) ∨
    (s.perr = false ∧ ∃ u, writeFrame s = .next u ∧ u.perr = false ∧ u.st ≠ .failed ∧
      readResponse e bsz u = .next t) := by
  unfold transact at h
  split at h
  · exact .inl ⟨‹_›, by simpa using h.symm⟩
  · rename_i hp
    have hp : s.perr = false := by simpa using hp
    split at h
    · rename_i u hu
      split at h
      · rename_i hc
        have : u = t := by simpa using h
        subst this
        exact .inr (.inl ⟨hp, hu, by simpa using hc⟩)
      · rename_i hc
        simp only [Bool.or_eq_true, decide_eq_true_eq, not_or] at hc
        exact .inr (.inr ⟨hp, u, hu, by simpa using hc.1, hc.2, h⟩)
    · cases h
    · cases h

end Sys2Proof.Machine
end

