-- ==== Sys2Proof/Laws/Frames.lean ====
section
/-! SUPPORT. The frames the encoders build, byte by byte, and that the decoder accepts each of
them with its unused bytes zero (rules R72 to R75, R101 to R118). -/

namespace Sys2Proof.Machine

theorem getElem?_byteAt {bs : List Byte} {a : Nat} (h : a < bs.length) :
    bs[a]? = some (byteAt bs a) := by
  simp [byteAt, h]

theorem extractByte_eq {n : Nat} (v : BitVec n) (k : Nat) :
    v.extractLsb' k 8 = BitVec.ofNat 8 (v.toNat / 2 ^ k) := by
  apply BitVec.eq_of_toNat_eq
  rw [extractByte_toNat, BitVec.toNat_ofNat]

/-- What a frame written from address 0 leaves to read: its bytes, and past it what was there. -/
theorem Memory.read_write_zero (m : Memory) (bs : List Byte) :
    (∀ a, a < bs.length → (m.write 0 bs).read a = some (byteAt bs a)) ∧
      ∀ a, bs.length ≤ a → (m.write 0 bs).read a = m.read a := by
  refine ⟨fun a h => ?_, fun a h => ?_⟩
  · rw [Memory.read_write, if_pos (by omega), Nat.sub_zero, getElem?_byteAt h]
  · rw [Memory.read_write, if_neg (by omega)]

/-- The range check of `ENCODE_VGET` (rule R101). -/
theorem slotsOk_iff (slots : List (U32 × U32)) : slotsOk slots = true ↔
    1 ≤ slots.length ∧ slots.length ≤ 8 ∧
      ∀ p ∈ slots, 1 ≤ p.1.toNat ∧ p.1.toNat ≤ 0xFF ∧ p.2.toNat ≤ 0xFFFFFF := by
  simp only [slotsOk, Bool.and_eq_true, decide_eq_true_eq, List.all_eq_true, slotOk, and_assoc]

/-- The range check of `ENCODE_IOVM` (rule R111). -/
theorem iovmOk_iff (flen : U16) (prog : List Byte) : iovmOk flen prog = true ↔
    (flen.toNat = 64 ∨ flen.toNat = 512) ∧ prog.length ≤ flen.toNat - 8 ∧ prog.length ≤ 255 := by
  simp only [iovmOk, Bool.and_eq_true, Bool.or_eq_true, decide_eq_true_eq, and_assoc]

/-- The range check of `ENCODE_VGET_CONTIG` admits only slots that `ENCODE_VGET` admits, and no
slot address wraps (rules R104, R124). -/
theorem contigSlots_spec {addr chunk : U32} {count : Byte} (h : contigOk addr chunk count = true) :
    (contigSlots addr chunk count).length = count.toNat ∧
      slotsOk (contigSlots addr chunk count) = true ∧
      ∀ i, i < count.toNat → (contigSlots addr chunk count)[i]? =
          some (chunk, BitVec.ofNat 32 (addr.toNat + i * chunk.toNat)) ∧
        (BitVec.ofNat 32 (addr.toNat + i * chunk.toNat)).toNat = addr.toNat + i * chunk.toNat := by
  simp only [contigOk, Bool.and_eq_true, decide_eq_true_eq] at h
  obtain ⟨⟨⟨⟨h1, h2⟩, h3⟩, h4⟩, h5⟩ := h
  have hb : ∀ i, i < count.toNat → addr.toNat + i * chunk.toNat ≤ 0xFFFFFF := by
    intro i hi
    have : i * chunk.toNat ≤ (count.toNat - 1) * chunk.toNat :=
      Nat.mul_le_mul_right _ (by omega)
    omega
  have ht : ∀ i, i < count.toNat →
      (BitVec.ofNat 32 (addr.toNat + i * chunk.toNat)).toNat = addr.toNat + i * chunk.toNat := by
    intro i hi
    have := hb i hi
    rw [BitVec.toNat_ofNat, Nat.mod_eq_of_lt (by omega)]
  have hl : (contigSlots addr chunk count).length = count.toNat := by simp [contigSlots]
  refine ⟨hl, (slotsOk_iff _).2 ⟨by omega, by omega, ?_⟩,
    fun i hi => ⟨by simp [contigSlots, hi], ht i hi⟩⟩
  intro p hp
  simp only [contigSlots, List.mem_map, List.mem_range] at hp
  obtain ⟨i, hi, rfl⟩ := hp
  exact ⟨h3, h4, by rw [ht i hi]; exact hb i hi⟩

/-! The bytes of each frame. -/

theorem slotsBytes_bytes (slots : List (Byte × U24)) (i : Nat) (x : Byte × U24)
    (h : slots[i]? = some x) :
    byteAt (slotsBytes slots) (4 * i) = x.1 ∧
      byteAt (slotsBytes slots) (4 * i + 1) = x.2.extractLsb' 16 8 ∧
      byteAt (slotsBytes slots) (4 * i + 2) = x.2.extractLsb' 8 8 ∧
      byteAt (slotsBytes slots) (4 * i + 3) = x.2.extractLsb' 0 8 := by
  induction slots generalizing i with
  | nil => simp at h
  | cons y ys ih =>
    cases i with
    | zero => simp at h; subst h; exact ⟨rfl, rfl, rfl, rfl⟩
    | succ i =>
      have := ih i (by simpa using h)
      simp only [slotsBytes, slotBytes, be24, List.cons_append, List.nil_append]
      exact this

theorem setWidth24_byte (addr : U32) (k : Nat) (hk : k + 8 ≤ 24) :
    (addr.setWidth 24).extractLsb' k 8 = BitVec.ofNat 8 (addr.toNat / 2 ^ k) := by
  apply BitVec.eq_of_toNat_eq
  rw [extractByte_toNat, BitVec.toNat_ofNat, BitVec.toNat_setWidth]
  have h2 : 2 ^ 24 = 2 ^ k * (256 * 2 ^ (16 - k)) := by
    rw [show (256 : Nat) = 2 ^ 8 from rfl, ← Nat.pow_add, ← Nat.pow_add]
    congr 1
    omega
  rw [h2, Nat.mod_mul_right_div_self]
  exact Nat.mod_mul_right_mod _ _ _

/-- The slot area and the unused bytes of a VGET frame (rules R72, R75). -/
theorem vgetRequest_bytes (c : Config) (slots : List (U32 × U32)) (h : slots.length ≤ 8) :
    (∀ i size addr, slots[i]? = some (size, addr) →
      byteAt (vgetRequest c slots) (32 + 4 * i) = BitVec.ofNat 8 size.toNat ∧
      byteAt (vgetRequest c slots) (33 + 4 * i) = BitVec.ofNat 8 (addr.toNat / 65536) ∧
      byteAt (vgetRequest c slots) (34 + 4 * i) = BitVec.ofNat 8 (addr.toNat / 256) ∧
      byteAt (vgetRequest c slots) (35 + 4 * i) = BitVec.ofNat 8 addr.toNat) ∧
    (∀ a, 32 + 4 * slots.length ≤ a → a < 64 → byteAt (vgetRequest c slots) a = 0) ∧
    (∀ a, 7 ≤ a → a < 32 → byteAt (vgetRequest c slots) a = 0) := by
  have key : ∀ k, byteAt (vgetRequest c slots) (32 + k) =
      byteAt (slotsBytes (frameSlots slots)) k := by
    intro k
    simp only [vgetRequest, vgetFrame]
    rw [byteAt_append, if_neg (by simp)]
    congr 1
    simp
  refine ⟨fun i size addr hi => ?_, fun a h1 h2 => ?_, fun a h1 h2 => ?_⟩
  · have hg : (frameSlots slots)[i]? = some (size.setWidth 8, addr.setWidth 24) := by
      have : i < slots.length := by
        by_contra hc
        rw [List.getElem?_eq_none (by omega)] at hi
        cases hi
      rw [frameSlots, List.getElem?_append_left (by simpa using this), List.getElem?_map, hi]
      rfl
    obtain ⟨h1, h2, h3, h4⟩ := slotsBytes_bytes _ _ _ hg
    rw [show 33 + 4 * i = 32 + (4 * i + 1) by omega, show 34 + 4 * i = 32 + (4 * i + 2) by omega,
      show 35 + 4 * i = 32 + (4 * i + 3) by omega, key, key, key, key, h1, h2, h3, h4,
      setWidth24_byte _ _ (by omega), setWidth24_byte _ _ (by omega),
      setWidth24_byte _ _ (by omega)]
    refine ⟨?_, rfl, rfl, by simp⟩
    apply BitVec.eq_of_toNat_eq
    simp
  · obtain ⟨k, rfl⟩ : ∃ k, a = 32 + k := ⟨a - 32, by omega⟩
    rw [key]
    have hg : (frameSlots slots)[k / 4]? = some (0, 0) := by
      have : slots.length ≤ k / 4 := by omega
      rw [frameSlots, List.getElem?_append_right (by simpa using this), List.getElem?_replicate,
        if_pos (by simp; omega)]
    obtain ⟨h1, h2, h3, h4⟩ := slotsBytes_bytes _ _ _ hg
    have hk : k = 4 * (k / 4) ∨ k = 4 * (k / 4) + 1 ∨ k = 4 * (k / 4) + 2 ∨
      k = 4 * (k / 4) + 3 := by omega
    rcases hk with hk | hk | hk | hk <;> rw [hk]
    · exact h1
    · rw [h2]; rfl
    · rw [h3]; rfl
    · rw [h4]; rfl
  · simp only [vgetRequest, vgetFrame, List.append_assoc]
    rw [byteAt_append, if_neg (by simp; omega), byteAt_append, if_pos (by simp; omega)]
    simp

/-- The size, the address and the unused bytes of a GET frame (rules R73, R75). -/
theorem getRequest_bytes (c : Config) (addr size : U32) :
    (∀ a, 7 ≤ a → a < 252 → byteAt (getRequest c addr size) a = 0) ∧
    (∀ a, 252 ≤ a → a < 256 →
      byteAt (getRequest c addr size) a = byteAt (be32 size) (a - 252)) ∧
    (∀ a, 256 ≤ a → a < 260 →
      byteAt (getRequest c addr size) a = byteAt (be32 addr) (a - 256)) ∧
    (∀ a, 260 ≤ a → byteAt (getRequest c addr size) a = 0) := by
  simp only [getRequest, getFrame, List.append_assoc]
  have e1 : ∀ x y z, (header x y z).length = 7 := fun _ _ _ => rfl
  have e2 : ∀ v, (be32 v).length = 4 := fun _ => rfl
  have e3 := zeros_length
  refine ⟨fun a h1 h2 => ?_, fun a h1 h2 => ?_, fun a h1 h2 => ?_, fun a h1 => ?_⟩
  · rw [byteAt_append, if_neg (by rw [e1]; omega), byteAt_append, if_pos (by rw [e1, e3]; omega)]
    simp
  · rw [byteAt_append, if_neg (by rw [e1]; omega), byteAt_append,
      if_neg (by rw [e1, e3]; omega), byteAt_append, if_pos (by rw [e1, e3, e2]; omega), e1, e3]
    exact congrArg _ (by omega)
  · rw [byteAt_append, if_neg (by rw [e1]; omega), byteAt_append,
      if_neg (by rw [e1, e3]; omega), byteAt_append, if_neg (by rw [e1, e3, e2]; omega),
      byteAt_append, if_pos (by rw [e1, e3, e2, e2]; omega), e1, e3, e2]
    exact congrArg _ (by omega)
  · rw [byteAt_append, if_neg (by rw [e1]; omega), byteAt_append,
      if_neg (by rw [e1, e3]; omega), byteAt_append, if_neg (by rw [e1, e3, e2]; omega),
      byteAt_append, if_neg (by rw [e1, e3, e2, e2]; omega)]
    simp

/-! The decoder accepts what the encoders build. -/

/-- Rule R8: the opcode codes are pairwise distinct. -/
theorem Config.valid_opcodes {c : Config} (h : c.Valid) :
    c.opGet ≠ c.opVget ∧ ∀ op, c.opIovm = some op → op ≠ c.opGet ∧ op ≠ c.opVget := by
  have := h.1
  simp only [Config.opcodes, List.nodup_cons, List.mem_cons, not_or] at this
  refine ⟨this.1.1, fun op ho => ?_⟩
  rw [ho] at this
  simp at this
  exact ⟨fun h => this.1.2 h.symm, fun h => this.2 h.symm⟩

theorem allZero_slice {bs : List Byte} {a b : Nat} (hb : b ≤ bs.length)
    (h : ∀ i, a ≤ i → i < b → byteAt bs i = 0) : allZero (slice bs a b) = true := by
  simp only [allZero, List.all_eq_true, beq_iff_eq]
  intro x hx
  obtain ⟨i, hi, rfl⟩ := List.mem_iff_getElem.1 hx
  simp only [slice, List.length_take, List.length_drop] at hi
  have := h (a + i) (by omega) (by omega)
  simp only [slice, List.getElem_take, List.getElem_drop]
  simpa [byteAt, show a + i < bs.length by omega] using this

theorem vgetRequest_accepted (c : Config) (slots : List (U32 × U32)) (h : slotsOk slots = true) :
    checkFrame c (vgetRequest c slots) = .ok ∧ zeroOk c (vgetRequest c slots) = true := by
  obtain ⟨-, h8, hs⟩ := (slotsOk_iff _).1 h
  have hl := vgetRequest_length c slots h8
  obtain ⟨b1, b2, b3⟩ := vgetRequest_bytes c slots h8
  have h4 : byteAt (vgetRequest c slots) 4 = c.opVget := rfl
  have hm : (vgetRequest c slots).take 4 = magic := rfl
  refine ⟨by simp [checkFrame, hl, hm, h4], ?_⟩
  simp only [zeroOk, h4, if_true, Bool.and_eq_true]
  refine ⟨allZero_slice (by omega) b3, ?_⟩
  simp only [List.all_eq_true, List.mem_range, slotZeroOk, Bool.or_eq_true]
  intro i hi
  by_cases hn : i < slots.length
  · left
    obtain ⟨g1, -⟩ := b1 i _ _ (List.getElem?_eq_getElem hn)
    have := hs slots[i] (List.getElem_mem hn)
    rw [g1]
    simp only [bne_iff_ne, ne_eq]
    intro h0
    have := congrArg BitVec.toNat h0
    simp at this
    omega
  · exact .inr (allZero_slice (by omega) fun j h1 h2 => b2 j (by omega) (by omega))

theorem getRequest_accepted (c : Config) (hv : c.Valid) (addr size : U32)
    (h : getOk addr size = true) :
    checkFrame c (getRequest c addr size) = .ok ∧ zeroOk c (getRequest c addr size) = true := by
  have hl := getRequest_length c addr size
  obtain ⟨b1, b2, b3, b4⟩ := getRequest_bytes c addr size
  have h4 : byteAt (getRequest c addr size) 4 = c.opGet := rfl
  have hm : (getRequest c addr size).take 4 = magic := rfl
  have hne := (Config.valid_opcodes hv).1
  refine ⟨by simp [checkFrame, hl, hm, h4, hne], ?_⟩
  simp only [zeroOk, h4, hne, if_false, if_true, Bool.and_eq_true]
  refine ⟨⟨allZero_slice (by omega) b1, ?_⟩, allZero_slice (by omega) fun i h1 _ => b4 i h1⟩
  rw [b3 256 (by omega) (by omega)]
  simp only [getOk, Bool.and_eq_true, decide_eq_true_eq] at h
  have : byteAt (be32 addr) (256 - 256) = 0 := by
    refine (extractByte_eq addr 24).trans ?_
    rw [Nat.div_eq_of_lt (by omega)]
    rfl
  rw [this]
  rfl

theorem iovmRequest_accepted (c : Config) (hv : c.Valid) (op space : Byte) (flen : U16)
    (prog : List Byte) (ho : c.opIovm = some op) (h : iovmOk flen prog = true) :
    checkFrame c (iovmRequest c op space flen prog) = .ok ∧
      zeroOk c (iovmRequest c op space flen prog) = true := by
  have hl := iovmRequest_length c op space flen prog h
  have h4 : byteAt (iovmRequest c op space flen prog) 4 = op := rfl
  have h7 : byteAt (iovmRequest c op space flen prog) 7 = BitVec.ofNat 8 prog.length := rfl
  have hm : (iovmRequest c op space flen prog).take 4 = magic := rfl
  obtain ⟨hf, hp, hq⟩ := (iovmOk_iff _ _).1 h
  obtain ⟨hne1, hne2⟩ := (Config.valid_opcodes hv).2 op ho
  have hn : (BitVec.ofNat 8 prog.length).toNat = prog.length := by
    rw [BitVec.toNat_ofNat, Nat.mod_eq_of_lt (by omega)]
  refine ⟨?_, ?_⟩
  · simp only [checkFrame, hl, hm, h4, h7, hn, hne1, hne2, ho]
    rw [if_neg (by omega)]
    simp
    omega
  · simp only [zeroOk, h4, h7, hn, hne1, hne2, if_false]
    simp only [iovmRequest, iovmFrame]
    rw [List.drop_append_of_le_length (by simp; omega), List.drop_eq_nil_of_le (by simp; omega),
      List.nil_append, allZero_zeros]

/-- The verdict register is the verdict of `CHECK` (rules R115, R116). -/
theorem decodedRegs_verdict (c : Config) (bs : List Byte) :
    (decodedRegs c bs).verdict = checkFrame c bs := by
  unfold decodedRegs
  split
  · rfl
  · rename_i h
    have h : checkFrame c bs = .ok := by simpa using h
    rw [h]
    split
    · rfl
    · split <;> rfl

end Sys2Proof.Machine
end

