-- ==== Sys2Proof/Laws/Recorded.lean ====
section
/-! SUPPORT. What each shared part of a command records: the events it appends to the history, and
that replaying the calls among them gives the stream it leaves (rules R36, R64, R195). -/

namespace Sys2Proof.Machine

/-- A run from `s` to `t` appended `es` to the history, and its stream calls are those of `es`. -/
structure Recorded (s t : State) (es : List Event) : Prop where
  hist : t.hist = s.hist ++ es
  stream : t.stream = Stream.againAll es s.stream

theorem Recorded.silent {s t : State} (hh : t.hist = s.hist) (hs : t.stream = s.stream) :
    Recorded s t [] := ⟨by rw [hh, List.append_nil], hs⟩

theorem Recorded.trans {s t u : State} {es es' : List Event} (h : Recorded s t es)
    (h' : Recorded t u es') : Recorded s u (es ++ es') :=
  ⟨by rw [h'.hist, h.hist, List.append_assoc],
    by rw [h'.stream, h.stream, Stream.againAll_append]⟩

/-- A reset after `k` calls leaves the stream those `k` calls leave. -/
theorem Recorded.cutBy {s t : State} {es : List Event} (h : Recorded s t es) (k : Nat) :
    s.cutBy t k = { s.hardReset with stream := s.stream.replay k es } := by
  rw [State.cutBy, h.hist, List.drop_left]

/-- A replay of at least as many calls as were made leaves the stream of the whole run. -/
theorem Recorded.replay_all {s t : State} {es : List Event} (h : Recorded s t es) {k : Nat}
    (hk : streamCalls es ≤ k) : s.stream.replay k es = t.stream :=
  (Stream.replay_all k es s.stream hk).trans h.stream.symm

/-- Without a write among its calls a run leaves the coming write answers. -/
theorem Recorded.writes {s t : State} {es : List Event} (h : Recorded s t es)
    (hw : ∀ e ∈ es, e.isWrite = false) : t.stream.writes = s.stream.writes := by
  rw [← h.replay_all (Nat.le_refl _), Stream.replay_writes _ _ _ hw]

theorem recorded_progFault (s : State) (c : ProgCause) :
    Recorded s (s.progFault c) [.progFault c] := ⟨rfl, rfl⟩

theorem recorded_fail (s : State) (c : ErrCode) : Recorded s (s.fail c) [.fail c] := ⟨rfl, rfl⟩

theorem blockRead.isWrite {b : Nat} {e : Event} (h : blockRead b e) : e.isWrite = false := by
  obtain ⟨_, _, _, rfl, _⟩ := h
  rfl

/-- One write and, if it failed, one failure (rule R130). -/
theorem sendFrame_recorded (op : Byte) (bs : List Byte) (s : State) :
    ∃ es, Recorded s (sendFrame op bs s) es := by
  rw [sendFrame_eq]
  dsimp only
  set u : State := { s with
    fvalid := false
    stream := (s.stream.write bs.length).2
    hist := s.hist ++ [Event.write bs (s.stream.write bs.length).1.n
      (s.stream.write bs.length).1.err] }
  have sent : Recorded s u [Event.write bs (s.stream.write bs.length).1.n
      (s.stream.write bs.length).1.err] := ⟨rfl, rfl⟩
  split
  · exact ⟨_, sent.trans (recorded_fail _ _)⟩
  · split
    · exact ⟨_, sent.trans (recorded_fail _ _)⟩
    · exact ⟨_, sent.hist, sent.stream⟩

theorem writeFrame_recorded {s t : State} (h : writeFrame s = .next t) :
    ∃ es, Recorded s t es := by
  rcases writeFrame_next h with ⟨_, rfl⟩ | ⟨_, _, rfl⟩ | ⟨_, _, _, _, _, _, rfl⟩ |
    ⟨_, _, op, bs, _, _, _, rfl⟩
  · exact ⟨_, recorded_progFault _ _⟩
  · exact ⟨_, recorded_progFault _ _⟩
  · exact ⟨_, recorded_progFault _ _⟩
  · obtain ⟨es, h⟩ := sendFrame_recorded op bs (s.openRequest op)
    exact ⟨es, h.hist, h.stream⟩

/-- `READ_EXACT` records reads only (rule R135). -/
theorem readExact_recorded (b : Nat) (s : State) :
    ∃ es, Recorded s (readExact b s).2 es ∧ ∀ e ∈ es, e.isWrite = false := by
  obtain ⟨es, _, h⟩ := readExact_spec b s
  exact ⟨es, ⟨h.hist, h.stream⟩, fun e he => (h.calls e he).isWrite⟩

theorem finishResponse_recorded (e : U32) (p : Nat) (s : State) :
    ∃ es, Recorded s (finishResponse e p s) es ∧ ∀ x ∈ es, x.isWrite = false := by
  rcases finishResponse_cases e p s with ⟨_, h⟩ | ⟨_, _, h⟩ | ⟨_, _, _, h⟩ | ⟨_, _, _, h⟩ <;> rw [h]
  · exact ⟨[.fail .shortResponse], ⟨rfl, rfl⟩, by simp [Event.isWrite]⟩
  · exact ⟨[.complete e], ⟨rfl, rfl⟩, by simp [Event.isWrite]⟩
  · exact ⟨[.mismatch s.alen p, .fail .mismatch], ⟨by simp, rfl⟩, by simp [Event.isWrite]⟩
  · exact ⟨[.mismatch s.alen p, .complete e], ⟨by simp [completeRequest], rfl⟩,
      by simp [Event.isWrite]⟩

theorem receiveData_recorded {e : U32} {b : BlockSize} {p : Nat} {s t : State} (ha : s.alen = 0)
    (hp : blockBytes b ∣ p) (h : receiveData e (blockBytes b) p s = .next t) :
    ∃ es, Recorded s t es ∧ ∀ x ∈ es, x.isWrite = false := by
  obtain ⟨x, u, es, ds, -, hc, h'⟩ := receiveData_spec e b p s ha hp
  rw [h'] at h
  have hu : Recorded s u es := ⟨hc.hist, hc.stream⟩
  have hr : ∀ e ∈ es, e.isWrite = false := fun e he => (hc.calls e he).isWrite
  cases x with
  | readFailed =>
    cases h
    exact ⟨_, hu.trans (recorded_fail _ _), by
      simpa [or_imp, forall_and, Event.isWrite] using hr⟩
  | ended =>
    cases h
    obtain ⟨es', hf, hr'⟩ := finishResponse_recorded e p u
    exact ⟨_, hu.trans hf, fun e he => (List.mem_append.1 he).elim (hr e) (hr' e)⟩

/-- `READ_RESPONSE` records no write (rules R64, R140). -/
theorem readResponse_recorded {e : U32} {bsz : U16} {s t : State}
    (h : readResponse e bsz s = .next t) :
    ∃ es, Recorded s t es ∧ ∀ x ∈ es, x.isWrite = false := by
  have fault : ∀ c, ∃ es, Recorded s (s.progFault c) es ∧ ∀ x ∈ es, x.isWrite = false := fun c =>
    ⟨_, recorded_progFault s c, by simp [Event.isWrite]⟩
  rcases readResponse_cases e bsz s with ⟨_, h'⟩ | ⟨_, _, h'⟩ | ⟨_, _, _, _, _, h'⟩ |
    ⟨_, _, b, _, _, h'⟩
  · rw [h'] at h
    cases h
    exact fault _
  · rw [h'] at h
    cases h
    exact fault _
  · rw [h'] at h
    cases h
    exact fault _
  · have hdvd := paddedSize_dvd e.toNat (blockBytes b)
    simp only at h'
    rw [h'] at h
    set p := paddedSize e.toNat (blockBytes b)
    have data : ∀ {u : State} {es}, Recorded s u es → u.alen = 0 →
        (∀ x ∈ es, x.isWrite = false) → receiveData e (blockBytes b) p u = .next t →
        ∃ es, Recorded s t es ∧ ∀ x ∈ es, x.isWrite = false := by
      intro u es hu ha hr hd
      obtain ⟨es', hd, hr'⟩ := receiveData_recorded ha hdvd hd
      exact ⟨_, hu.trans hd, fun e he => (List.mem_append.1 he).elim (hr e) (hr' e)⟩
    split at h
    · obtain ⟨es, ds, hf, ha⟩ :=
        receiveAck_spec e (blockBytes b) p (s.openResponse e (blockBytes b) p)
      rw [ha] at h
      have hr : ∀ e ∈ es, e.isWrite = false := fun e he => (hf.calls e he).isWrite
      have hu : Recorded s (readExact (blockBytes b) (s.openResponse e (blockBytes b) p)).2 es :=
        ⟨hf.hist, hf.stream⟩
      split at h
      · cases h
        exact ⟨_, hu.trans (recorded_fail _ _), by
          simpa [or_imp, forall_and, Event.isWrite] using hr⟩
      · cases h
        exact ⟨_, hu.trans (recorded_fail _ _), by
          simpa [or_imp, forall_and, Event.isWrite] using hr⟩
      · refine data (u := { (readExact (blockBytes b)
          (s.openResponse e (blockBytes b) p)).2 with st := .receivingBlocks })
          (es := es) ⟨hu.hist, hu.stream⟩ ?_ hr h
        show (readExact (blockBytes b) (s.openResponse e (blockBytes b) p)).2.alen = 0
        rw [hf.frame]
        rfl
    · exact data (u := s.openResponse e (blockBytes b) p) (.silent rfl rfl) rfl (by simp) h

/-- A transaction records its request and its response (rules R94, R155, R156). -/
theorem transact_recorded {e : U32} {bsz : U16} {s t : State} (h : transact e bsz s = .next t) :
    ∃ es, Recorded s t es := by
  rcases transact_next h with ⟨_, rfl⟩ | ⟨_, h, _⟩ | ⟨_, u, hu, _, _, h⟩
  · exact ⟨[], .silent rfl rfl⟩
  · exact writeFrame_recorded h
  · obtain ⟨es, h1⟩ := writeFrame_recorded hu
    obtain ⟨es', h2, _⟩ := readResponse_recorded h
    exact ⟨_, h1.trans h2⟩

end Sys2Proof.Machine
end

