-- ==== Sys2Proof/Tests/Slice0.lean ====
section
/-! SUPPORT. Tests of the model, and a witness for every statement that has hypotheses. Expected
values come from the vectors of `95_test_vectors.md` (L1, L2, P1 to P5) and from the encodings of
`30_encoding.md`, written out by hand. -/

namespace Sys2Proof.Tests

-- One test at a time: run together, they ask for more threads than a small machine gives.
set_option Elab.async false

open Sys2Proof Sys2Proof.Machine

/-! ## Helpers -/

/-- The configuration of `95_test_vectors.md`: the defaults with `ACC_CAP = 0x2000`. -/
def cfg : Config := { Config.default with accCap := 0x2000 }

/-- The same with both IOVM codes configured. -/
def cfgX : Config := { cfg with opIovm := some 0x07, iovmSpace := some 0x09 }

/-- The same with a strict mismatch. -/
def cfgStrict : Config := { cfg with mismatchIsError := true }

/-- Reset, with a script of stream answers. -/
def start (c : Config) (ws : List WriteAnswer) (rs : List ReadAnswer) : State :=
  { State.resetWith c with stream := { writes := ws, reads := rs, draws := 0 } }

/-- A pending request, with a script of reads. -/
def pending (c : Config) (st : Phase) (op : Byte) (rs : List ReadAnswer) : State :=
  { start c [] rs with st := st, reqOp := op }

/-- An unsent frame, with a script of writes. -/
def loaded (c : Config) (bs : List Byte) (ws : List WriteAnswer) : State :=
  { start c ws [] with frame := Memory.cells 0 bs, flen := bs.length, fvalid := true }

/-- The host is about to do this. -/
def facing (i : HostInput) (s : State) : State := { s with inbox := [i] }

/-- `R(n)` with bytes all `x`. -/
def got (n : Nat) (x : Byte) : ReadAnswer := { bytes := List.replicate n x, err := .ok }

/-- `R(0)`. -/
def timeout : ReadAnswer := { bytes := [], err := .ok }

/-- The next state, if there is one. -/
def after (o : Host.Outcome State Fault Refusal) : Option State :=
  match o with
  | .next s => some s
  | .fault _ => none
  | .refused _ => none

/-- What holds of each entry of a list, by evaluation over the list alone. -/
theorem each {α : Type} {l : List α} {p : α → Prop} [DecidablePred p]
    (h : l.all (fun x => decide (p x)) = true) : ∀ x ∈ l, p x := by
  simpa using h

theorem next_of_after {o : Host.Outcome State Fault Refusal} (h : (after o).isSome = true) :
    ∃ t, o = .next t := by
  cases o with
  | next s => exact ⟨s, rfl⟩
  | fault f => cases h
  | refused r => cases h

/-- The `STATUS` word after a step. -/
def statusOf (o : Host.Outcome State Fault Refusal) : Option U32 := (after o).map State.status

/-- The result a step returned. -/
def resultOf (o : Host.Outcome State Fault Refusal) : Option Result := (after o).bind State.out

/-- The frame of L2.1 (a). -/
def vgetA : List Byte :=
  [0x55, 0x53, 0x42, 0x41, 0x02, 0x01, 0xC0] ++ zeros 25 ++
    [0x10, 0x7E, 0x00, 0x00, 0x20, 0x7E, 0x00, 0x10] ++ zeros 24

/-- The frame of L1.2. -/
def getA : List Byte :=
  [0x55, 0x53, 0x42, 0x41, 0x00, 0x01, 0x00] ++ zeros 245 ++
    [0x00, 0x00, 0x10, 0x00, 0x00, 0xF5, 0x00, 0x00] ++ zeros 252

/-- The frame of L2.3 (b), with `x = 0x07` and `y = 0x09`. -/
def iovmA : List Byte :=
  [0x55, 0x53, 0x42, 0x41, 0x07, 0x09, 0x80, 0x03, 0xA1, 0xB2, 0xC3] ++ zeros 53

theorem loaded_read (c : Config) (bs : List Byte) (ws : List WriteAnswer) :
    ∀ a, a < (loaded c bs ws).flen → (loaded c bs ws).frame.read a = bs[a]? := by
  intro a _
  show (Memory.cells 0 bs).lookup a = bs[a]?
  rw [Memory.cells_lookup, if_pos (Nat.zero_le a), Nat.sub_zero]

/-! ## Well-formedness refuses (rules R72 to R74, R91) -/

theorem test_wf_refuses_too_many_slots (slots : List (U32 × U32)) (h : slots.length = 256) :
    (Instr.encodeVget slots).wf = false ∧ (Instr.transactVget slots).wf = false := by
  simp only [Instr.wf, h]
  decide

theorem test_wf_refuses_long_program (prog : List Byte) (h : prog.length = 65536) :
    (Instr.encodeIovm 64 prog).wf = false := by
  simp only [Instr.wf, h]
  decide

theorem test_wf_refuses_long_frame (bytes : List Byte) (h : bytes.length = 65536) :
    (Instr.decodeFrame bytes).wf = false := by
  simp only [Instr.wf, h]
  decide

/-- Lists of those lengths exist. -/
theorem test_wf_lengths_exist :
    (List.replicate 256 ((1, 0) : U32 × U32)).length = 256 ∧
      (List.replicate 65536 (0 : Byte)).length = 65536 :=
  ⟨List.length_replicate, List.length_replicate⟩

theorem test_wf_refuses_get_frame_of_511 :
    (Instr.getWireFrame 1 0 (zeros 244) 1 0 (zeros 252)).wf = false ∧
      (Instr.getWireFrame 1 0 (zeros 245) 1 0 (zeros 251)).wf = false := by decide +kernel

theorem test_wf_refuses_vget_frame_of_seven_slots :
    (Instr.vgetWireFrame 1 0xC0 (zeros 25) (List.replicate 7 (1, 0))).wf = false ∧
      (Instr.vgetWireFrame 1 0xC0 (zeros 24) (List.replicate 8 (1, 0))).wf = false := by decide

theorem test_wf_refuses_iovm_frame_lengths :
    (Instr.iovmWireFrame 7 9 0x80 (zeros 256) (zeros 248)).wf = false ∧
      (Instr.iovmWireFrame 7 9 0x80 [1, 2, 3] (zeros 52)).wf = false := by decide +kernel

/-! ## Words written out from the encodings decode (rules R72 to R74, R91) -/

theorem test_decode_encode_vget :
    decode cfg (.command [0x01, 0x02, 0x00, 0x00, 0x00, 0x10, 0x00, 0x00, 0x00, 0x20,
      0x00, 0x7E, 0x00, 0x00, 0x00, 0x7E, 0x00, 0x10]) =
    .ok (.encodeVget [(0x10, 0x7E0000), (0x20, 0x7E0010)]) := by decide

/-- P2, line L1. -/
theorem test_decode_encode_vget_contig :
    decode cfg (.command [0x02, 0x00, 0x7E, 0x00, 0x00, 0x00, 0x00, 0x00, 0x30, 0x03]) =
      .ok (.encodeVgetContig 0x7E0000 0x30 3) := by decide

/-- P1, line L1. -/
theorem test_decode_encode_get :
    decode cfg (.command [0x03, 0x00, 0xF5, 0x00, 0x00, 0x00, 0x00, 0x10, 0x00]) =
      .ok (.encodeGet 0xF50000 0x1000) := by decide

theorem test_decode_encode_iovm :
    decode cfg (.command [0x04, 0x02, 0x00, 0x00, 0x03, 0xA1, 0xB2, 0xC3]) =
      .ok (.encodeIovm 512 [0xA1, 0xB2, 0xC3]) := by decide

theorem test_decode_decode_frame :
    decode cfg (.command [0x05, 0x00, 0x02, 0x55, 0x53]) = .ok (.decodeFrame [0x55, 0x53]) := by
  decide

theorem test_decode_padded_size :
    decode cfg (.command [0x06, 0x00, 0x00, 0x10, 0x01, 0x02, 0x00]) =
      .ok (.paddedSize 0x1001 512) := by decide

theorem test_decode_read_frame : decode cfg (.command [0x07]) = .ok .readFrame := by decide

theorem test_decode_write_frame : decode cfg (.command [0x10]) = .ok .writeFrame := by decide

/-- P1, line L3. -/
theorem test_decode_read_response :
    decode cfg (.command [0x11, 0x00, 0x00, 0x10, 0x00, 0x02, 0x00]) =
      .ok (.readResponse 0x1000 0x200) := by decide

/-- P2, line L5. -/
theorem test_decode_read_result :
    decode cfg (.command [0x12, 0x00, 0x00, 0x00, 0x80, 0x00, 0x00, 0x00, 0x10]) =
      .ok (.readResult 0x80 0x10) := by decide

theorem test_decode_read_status : decode cfg (.command [0x13]) = .ok .readStatus := by decide

/-- P3, line L8. -/
theorem test_decode_transact_get :
    decode cfg (.command [0x20, 0x00, 0x00, 0x00, 0x00, 0x00, 0x00, 0x02, 0x00]) =
      .ok (.transactGet 0 0x200) := by decide

/-- P5, line L1. -/
theorem test_decode_transact_vget :
    decode cfg (.command [0x21, 0x02, 0x00, 0x00, 0x00, 0x40, 0x00, 0x00, 0x00, 0x24,
      0x00, 0x7E, 0x10, 0x00, 0x00, 0x7E, 0x20, 0x00]) =
    .ok (.transactVget [(0x40, 0x7E1000), (0x24, 0x7E2000)]) := by decide

theorem test_decode_get_wire_frame :
    decode cfg (.frame getA) =
      .ok (.getWireFrame 0x01 0x00 (zeros 245) 0x1000 0xF50000 (zeros 252)) := by decide +kernel

theorem test_decode_vget_wire_frame :
    decode cfg (.frame vgetA) =
      .ok (.vgetWireFrame 0x01 0xC0 (zeros 25)
        [(0x10, 0x7E0000), (0x20, 0x7E0010), (0, 0), (0, 0), (0, 0), (0, 0), (0, 0), (0, 0)]) := by
  decide +kernel

theorem test_decode_iovm_wire_frame :
    decode cfgX (.frame iovmA) =
      .ok (.iovmWireFrame 0x07 0x09 0x80 [0xA1, 0xB2, 0xC3] (zeros 53)) := by decide +kernel

/-- `READ_EXACT` has no command code (rule R91), so nothing encodes it. -/
theorem test_read_exact_has_no_encoding : encode cfg (.readExact .b64) = none := by decide

/-- L2.10. -/
theorem test_decode_refuses_codes_outside_the_table :
    ([0x00, 0x08, 0x14, 0x22, 0xFF] : List Byte).all (fun c =>
      decide (decode cfg (.command [c]) = .error (.illegalCode c))) = true := by decide

theorem test_decode_refuses_a_short_record :
    decode cfg (.command [0x06, 0x00, 0x00, 0x10, 0x01, 0x02]) = .error .malformedRecord := by decide

/-- The table's rows: the code in the low byte, and the magic with the opcode (log entry 9). -/
theorem test_table_words :
    decodeTableWord 8 0x13 = some .readStatus ∧
      decodeTableWord 8 0x06 = some (.paddedSize 0 0) ∧
      (decodeTableWord 40 0x5553424102).isSome = true ∧
      decodeTableWord 40 0x5553424102 = decodeTableWord 40 0x0241425355 := by decide +kernel

theorem test_fetch_word_runs_first :
    step (State.reset.withFetchWord 8 0x13) =
      .next { State.reset with out := some (.status 0x00000000) } := rfl

/-! ## One step of each instruction -/

/-- L2.1 (a). -/
theorem test_encode_vget_frame :
    (after (exec (.encodeVget [(0x10, 0x7E0000), (0x20, 0x7E0010)]) (start cfg [] []))).map
      (fun s => (s.frame.map Prod.snd, s.flen, s.fvalid)) = some (vgetA, 64, true) := by
  decide +kernel

/-- L2.1 (f). -/
theorem test_encode_vget_range :
    [[], [(0x00, 0x7E0000)], [(0x100, 0x7E0000)], [(0x10, 0x1000000)], List.replicate 9 (1, 0)].map
      (fun slots => statusOf (exec (.encodeVget slots) (start cfg [] []))) =
    List.replicate 5 (some 0x00010020) := by decide +kernel

/-- L2.1 (e): the second slot's range ends past 0xFFFFFF. -/
theorem test_encode_vget_contig_slots :
    (after (exec (.encodeVgetContig 0xFFFF80 0x40 2) (start cfg [] []))).map
      (fun s => ((s.frame.map Prod.snd).drop 32).take 12) =
    some [0x40, 0xFF, 0xFF, 0x80, 0x40, 0xFF, 0xFF, 0xC0, 0, 0, 0, 0] := by decide +kernel

/-- L2.1 (f): the last slot would start at 0x1000000. -/
theorem test_encode_vget_contig_range :
    statusOf (exec (.encodeVgetContig 0xFFFFC0 0x40 2) (start cfg [] [])) = some 0x00010020 := by
  decide +kernel

/-- L1.2. -/
theorem test_encode_get_frame :
    (after (exec (.encodeGet 0xF50000 0x1000) (start cfg [] []))).map
      (fun s => (s.frame.map Prod.snd, s.flen)) = some (getA, 512) := by decide +kernel

/-- L2.2 (d). -/
theorem test_encode_get_range :
    statusOf (exec (.encodeGet 0x7E0000 0) (start cfg [] [])) = some 0x00010020 ∧
      statusOf (exec (.encodeGet 0x1000000 1) (start cfg [] [])) = some 0x00010020 := by
  decide +kernel

/-- L2.3 (b). -/
theorem test_encode_iovm_frame :
    (after (exec (.encodeIovm 64 [0xA1, 0xB2, 0xC3]) (start cfgX [] []))).map
      (fun s => (s.frame.map Prod.snd, s.flen)) = some (iovmA, 64) := by decide +kernel

/-- L2.3 (a), (e). -/
theorem test_encode_iovm_faults :
    statusOf (exec (.encodeIovm 64 []) (start cfg [] [])) = some 0x00050020 ∧
      statusOf (exec (.encodeIovm 128 []) (start cfgX [] [])) = some 0x00010020 ∧
      statusOf (exec (.encodeIovm 64 (zeros 57)) (start cfgX [] [])) = some 0x00010020 ∧
      statusOf (exec (.encodeIovm 512 (zeros 256)) (start cfgX [] [])) = some 0x00010020 := by
  decide +kernel

/-- L2.4: the frame of L2.1 (a) with byte 46 = 0x01. (The vector says byte 45, whose place rules
R72 and R79 give to bits 23..16 of the address; the address it expects is byte 46's, log entry 16.) -/
theorem test_decode_frame_fields :
    (after (exec (.decodeFrame (vgetA.set 46 0x01)) (start cfg [] []))).map (fun s =>
      (s.dec.verdict, s.dec.slotSize, s.dec.slotAddr.map (fun v => v.toList.take 4), s.dec.zeroOk)) =
    some (.ok, some #v[0x10, 0x20, 0, 0, 0, 0, 0, 0], some [0x7E0000, 0x7E0010, 0, 0x000100],
      some false) := by decide +kernel

/-- L2.4: each verdict. -/
theorem test_decode_frame_verdicts :
    [(zeros 63), (zeros 100), vgetA.set 0 0x75, vgetA.set 4 0x07, vgetA.set 4 0x00].map
      (fun bs => resultOf (exec (.decodeFrame bs) (start cfg [] []))) =
      [some (.verdict .badLength), some (.verdict .badLength), some (.verdict .badMagic),
        some (.verdict .badOpcode), some (.verdict .badLength)] ∧
    [iovmA.set 7 56, iovmA.set 7 57].map
      (fun bs => resultOf (exec (.decodeFrame bs) (start cfgX [] []))) =
      [some (.verdict .ok), some (.verdict .badProgramLength)] := by decide +kernel

/-- L2.5. -/
theorem test_padded_size_values :
    ([(0, 64, 0), (1, 64, 0x40), (0x41, 64, 0x80), (0x7F8, 64, 0x800), (0xFFFFFFFF, 64, 0x100000000),
      (0x200, 512, 0x200), (0x1001, 512, 0x1200), (0xFFFFFFFF, 512, 0x100000000)] :
        List (U32 × U16 × U33)).all (fun x =>
      decide (resultOf (exec (.paddedSize x.1 x.2.1) (start cfg [] [])) = some (.padded x.2.2))) =
    true := by decide +kernel

theorem test_padded_size_range :
    ([0, 1, 128, 1024] : List U16).map
      (fun b => statusOf (exec (.paddedSize 1 b) (start cfg [] []))) =
    List.replicate 4 (some 0x00010020) := by decide +kernel

/-- L2.6. -/
theorem test_read_frame_bytes :
    resultOf (exec .readFrame (loaded cfg vgetA [])) = some (.bytes vgetA) := by decide +kernel

theorem test_read_frame_none : statusOf (exec .readFrame (start cfg [] [])) = some 0x00040020 := by
  decide +kernel

/-- L2.7: the answers of the stream, in the order of the table. -/
theorem test_write_frame_outcomes :
    [(⟨64, .ok⟩ : WriteAnswer), ⟨63, .ok⟩, ⟨0, .ok⟩, ⟨64, .error⟩].map
      (fun a => statusOf (exec .writeFrame (loaded cfg vgetA [a]))) =
    [some 0x00000003, some 0x00000205, some 0x00000205, some 0x00000105] := by decide +kernel

/-- L2.7: `NO_FRAME`, `UNSUPPORTED` and `BUSY`, with no stream call. -/
theorem test_write_frame_faults :
    statusOf (exec .writeFrame (start cfg [] [])) = some 0x00040020 ∧
      statusOf (exec .writeFrame (loaded cfgX iovmA [])) = some 0x00050030 ∧
      statusOf (exec .writeFrame { loaded cfg vgetA [] with st := .awaitingAck }) =
        some 0x00030032 := by decide +kernel

/-- L2.8 (a), (d), (e), (f), (k). -/
theorem test_read_response_vget :
    statusOf (exec (.readResponse 0x80 64)
      (pending cfg .receivingBlocks 2 [got 64 1, got 64 2])) = some 0x00000004 ∧
    statusOf (exec (.readResponse 100 64)
      (pending cfg .receivingBlocks 2 [got 64 1, got 36 2, timeout])) = some 0x0000000C ∧
    statusOf (exec (.readResponse 100 64)
      (pending cfg .receivingBlocks 2 [got 64 1, got 35 2, timeout])) = some 0x00000505 ∧
    statusOf (exec (.readResponse 100 64)
      (pending cfg .receivingBlocks 2 [got 64 1, timeout])) = some 0x00000505 ∧
    statusOf (exec (.readResponse 100 64)
      (pending cfgStrict .receivingBlocks 2 [got 64 1, got 36 2, timeout])) = some 0x0000060D := by
  decide +kernel

/-- L2.8 (h), (j) with blocks of 64, and (m), (o), (q). -/
theorem test_read_response_get_and_faults :
    statusOf (exec (.readResponse 64 64) (pending cfg .awaitingAck 0 [got 10 1, timeout])) =
      some 0x00000405 ∧
    statusOf (exec (.readResponse 64 64)
      (pending cfg .awaitingAck 0 [⟨[1, 2], .error⟩])) = some 0x00000305 ∧
    statusOf (exec (.readResponse 0x10 64) (start cfg [] [])) = some 0x00080020 ∧
    statusOf (exec (.readResponse 0x10 128) (pending cfg .receivingBlocks 2 [])) =
      some 0x00010023 ∧
    statusOf (exec (.readResponse 0x2001 512) (pending cfg .awaitingAck 0 [])) =
      some 0x00020022 := by decide +kernel

/-- A request that ended with the ten bytes 1 to 10 as its result, in a block of 64. -/
def completed : State :=
  { start cfg [] [] with
    st := .complete
    acc := Memory.cells 0 ([1, 2, 3, 4, 5, 6, 7, 8, 9, 10] ++ zeros 54)
    alen := 64
    reqOp := 2
    reqE := 10
    reqB := 64
    reqP := 64
    rlen := 10 }

/-- L2.9. -/
theorem test_read_result_slices :
    resultOf (exec (.readResult 8 2) completed) = some (.bytes [9, 10]) ∧
      resultOf (exec (.readResult 10 0) completed) = some (.bytes []) := by decide +kernel

theorem test_read_result_faults :
    statusOf (exec (.readResult 9 2) completed) = some 0x00010024 ∧
      statusOf (exec (.readResult 0 0) (start cfg [] [])) = some 0x00060020 := by decide +kernel

/-- L2.9, and P5: the word with every field set. -/
theorem test_read_status_words :
    resultOf (exec .readStatus (start cfg [] [])) = some (.status 0) ∧
      resultOf (exec .readStatus (loaded cfg vgetA [])) = some (.status 0x00000010) ∧
      resultOf (exec .readStatus { start cfg [] [] with
        st := .failed, warn := true, err := .mismatch, perr := true, pcause := .noResult }) =
      some (.status 0x0006062D) := by decide +kernel

/-- L2.11 (b), on a VGET, and (d). -/
theorem test_transact_failures :
    statusOf (exec (.transactVget [(1, 0)]) (start cfg [⟨63, .ok⟩] [])) = some 0x00000205 ∧
      statusOf (exec (.transactGet 0x1000000 1) (start cfg [] [])) = some 0x00010020 := by
  decide +kernel

/-- P5, lines L1 and L2. -/
theorem test_transact_vget_strict_mismatch :
    statusOf (exec (.transactVget [(0x40, 0x7E1000), (0x24, 0x7E2000)])
      (start cfgStrict [⟨64, .ok⟩] [got 64 1, got 36 2, timeout])) = some 0x0000060D := by
  decide +kernel

/-- L2.8: chunks of 20, 30 and 14 bytes fill a block of 64, asking for 64, 44 and 14. -/
theorem test_read_exact_chunks :
    (after (exec (.readExact .b64) (start cfg [] [got 20 1, got 30 2, got 14 3]))).map
      (fun s => (s.out, s.bfill, s.hist)) =
    some (some (.exact .full), 64, [.read 64 (List.replicate 20 1) .ok,
      .read 44 (List.replicate 30 2) .ok, .read 14 (List.replicate 14 3) .ok]) := by decide +kernel

/-- L2.8: a timeout after 20 bytes, and a failed read whose bytes are discarded. -/
theorem test_read_exact_cut_short :
    [[got 20 1, timeout], [got 10 1, ⟨[7], .error⟩]].map
      (fun rs => (after (exec (.readExact .b64) (start cfg [] rs))).map
        (fun s => (s.out, s.bfill))) =
    [some (some (.exact .timeout), 20), some (some (.exact .readErr), 10)] := by decide +kernel

/-- L2.4: the frame of L1.2 with byte 256 = 0x01. -/
theorem test_get_wire_frame_verdict :
    (after (step (facing (.frame (getA.set 256 0x01)) (start cfg [] [])))).map
      (fun s => (s.out, s.dec.addr, s.dec.zeroOk)) =
    some (some (.verdict .ok), some 0x01F50000, some false) := by decide +kernel

/-- L2.4: flags and space are returned unexamined. -/
theorem test_vget_wire_frame_verdict :
    (after (step (facing (.frame ((vgetA.set 6 0xFF).set 5 0x04)) (start cfg [] [])))).map
      (fun s => (s.out, s.dec.space, s.dec.flags, s.dec.zeroOk)) =
    some (some (.verdict .ok), some 0x04, some 0xFF, some true) := by decide +kernel

/-- L2.4: the IOVM rows, with the code configured and not. -/
theorem test_iovm_wire_frame_verdict :
    (after (step (facing (.frame iovmA) (start cfgX [] [])))).map
      (fun s => (s.out, s.dec.plen, s.dec.prog)) =
      some (some (.verdict .ok), some 3, some [0xA1, 0xB2, 0xC3]) ∧
    resultOf (step (facing (.frame iovmA) (start cfg [] []))) = some (.verdict .badOpcode) := by
  decide +kernel

/-- L2.10 and P4: an unknown code, then nothing runs until reset. -/
theorem test_illegal_code_and_reset :
    statusOf (step (facing (.command [0x08]) (start cfg [] []))) = some 0x00070020 ∧
      statusOf (step (facing .reset { start cfg [] [] with perr := true, pcause := .notPending })) =
        some 0x00000000 := by decide +kernel

/-- Rule R195: reset after the write of a transaction; the unread response stays in the stream. -/
theorem test_reset_cuts_a_command :
    (after (step (facing (.cutCommand [0x21, 0x01, 0, 0, 0, 0x40, 0, 0, 0, 0] 1)
      (start cfg [⟨64, .ok⟩] [got 64 1])))).map (fun s => (s.st, s.hist, s.stream)) =
    some (.idle, [], { writes := [], reads := [got 64 1], draws := 0 }) := by decide +kernel

/-! ## Witnesses: states and operands that meet the hypotheses of the statements -/

/-- The configurations used here are ones rule R8 admits, at the least `ACC_CAP` too. -/
theorem witness_valid_configurations :
    cfg.Valid ∧ cfgX.Valid ∧ cfgStrict.Valid ∧ Config.default.Valid ∧
      ({ cfg with accCap := 2048 } : Config).Valid := by decide

/-- For statements whose only hypothesis on the state is that it has not faulted. -/
theorem witness_not_faulted :
    (start cfg [] []).perr = false ∧ (start cfg [] []).warn = false := by decide

theorem witness_StepRunsDecodedInstruction :
    (facing (.command [0x13]) (start cfg [] [])).inbox = .command [0x13] :: [] ∧
      decode cfg (.command [0x13]) = .ok .readStatus ∧
      (facing (.frame vgetA) (start cfg [] [])).inbox = .frame vgetA :: [] ∧
      decode cfg (.frame vgetA) = .ok (.vgetWireFrame 0x01 0xC0 (zeros 25)
        [(0x10, 0x7E0000), (0x20, 0x7E0010), (0, 0), (0, 0), (0, 0), (0, 0), (0, 0), (0, 0)]) :=
  ⟨rfl, by decide, rfl, by decide +kernel⟩

theorem witness_IdleBlockWaits : State.reset.inbox = [] := rfl

theorem witness_ResetInputLeavesOnlyTheStream :
    (facing .reset (start cfg [] [])).inbox = .reset :: [] := rfl

/-- A record with a code outside the table, cut. -/
theorem witness_CutCommandLeavesOnlyItsStreamCalls_illegal :
    (facing (.cutCommand [0x08] 0) (start cfg [] [])).inbox = .cutCommand [0x08] 0 :: [] ∧
      decodeCommand [0x08] = .error (.illegalCode 0x08) := ⟨rfl, rfl⟩

/-- A cut before the first of the two stream calls, one between them and one after the last. -/
theorem witness_CutCommandLeavesOnlyItsStreamCalls : ∀ k, k ≤ 2 →
    (facing (.cutCommand [0x21, 0x01, 0, 0, 0, 0x40, 0, 0, 0, 0] k)
      (start cfg [⟨64, .ok⟩] [got 64 1])).inbox =
      .cutCommand [0x21, 0x01, 0, 0, 0, 0x40, 0, 0, 0, 0] k :: [] ∧
    decodeCommand [0x21, 0x01, 0, 0, 0, 0x40, 0, 0, 0, 0] = .ok (.transactVget [(0x40, 0)]) ∧
    ∃ t, exec (.transactVget [(0x40, 0)]) { facing (.cutCommand
      [0x21, 0x01, 0, 0, 0, 0x40, 0, 0, 0, 0] k) (start cfg [⟨64, .ok⟩] [got 64 1]) with
      inbox := [] } = .next t :=
  fun _ _ => ⟨rfl, by decide, next_of_after (by
    show (after (exec (.transactVget [(0x40, 0)]) (start cfg [⟨64, .ok⟩] [got 64 1]))).isSome = true
    decide +kernel)⟩

theorem witness_CommandRecordsDecodeBack :
    (Instr.encodeVget (List.replicate 255 (0xFFFFFFFF, 0))).wf = true ∧
      (Instr.encodeIovm 0xFFFF []).wf = true ∧
      encode cfg (.encodeIovm 0xFFFF []) = some (.command [0x04, 0xFF, 0xFF, 0x00, 0x00]) := by
  decide +kernel

theorem witness_CommandRecordsHaveOneReading :
    decode cfg (.command [0x06, 0xFF, 0xFF, 0xFF, 0xFF, 0x00, 0x40]) =
      .ok (.paddedSize 0xFFFFFFFF 64) := by decide

theorem witness_WireFramesDecodeBack :
    (Instr.getWireFrame 1 0 (zeros 245) 0xFFFFFFFF 0xFFFFFFFF (zeros 252)).wf = true ∧
      (Instr.vgetWireFrame 1 0xC0 (zeros 25) (List.replicate 8 (0xFF, 0xFFFFFF))).wf = true ∧
      (Instr.iovmWireFrame 0x07 0x09 0x80 (zeros 56) []).wf = true ∧
      (Instr.iovmWireFrame 0x07 0x09 0x80 (zeros 255) (zeros 249)).wf = true ∧
      (∀ op space flags prog tail,
        Instr.iovmWireFrame 0x07 0x09 0x80 (zeros 56) [] = .iovmWireFrame op space flags prog tail →
        cfgX.opIovm = some op) ∧
      (∀ op space flags prog tail,
        Instr.getWireFrame 1 0 (zeros 245) 0xFFFFFFFF 0xFFFFFFFF (zeros 252) =
          .iovmWireFrame op space flags prog tail → cfg.opIovm = some op) ∧
      encode cfg (.vgetWireFrame 1 0xC0 (zeros 25) (List.replicate 8 (0xFF, 0xFFFFFF))) =
        some (.frame (magic ++ [0x02, 0x01, 0xC0] ++ zeros 25 ++ List.replicate 32 0xFF)) :=
  ⟨by decide +kernel, by decide +kernel, by decide +kernel, by decide +kernel,
    fun _ _ _ _ _ h => by cases h; rfl, fun _ _ _ _ _ h => (by cases h), by decide +kernel⟩

theorem witness_WireFramesHaveOneReading :
    decode cfgX (.frame iovmA) =
      .ok (.iovmWireFrame 0x07 0x09 0x80 [0xA1, 0xB2, 0xC3] (zeros 53)) := by decide +kernel

theorem witness_UnknownCodeRaisesIllegalCmd :
    (facing (.command [0x08]) (start cfg [] [])).inbox = .command [0x08] :: [] ∧
      (0x08 : Byte).toNat ∉
        [0x01, 0x02, 0x03, 0x04, 0x05, 0x06, 0x07, 0x10, 0x11, 0x12, 0x13, 0x20, 0x21] ∧
      (facing (.command [0x08]) (start cfg [] [])).perr = false ∧
      (facing (.command [0x08]) { start cfg [] [] with perr := true }).perr = true := by
  decide +kernel

theorem witness_OnlyMalformedInputsAreRefused :
    step (facing (.command []) (start cfg [] [])) = .refused .malformedRecord ∧
      step (facing (.cutCommand [0x07, 0x00] 3) (start cfg [] [])) = .refused .malformedRecord :=
  ⟨rfl, rfl⟩

/-- One slot and eight, at the ends of the ranges. -/
theorem witness_EncodeVgetWritesTheFrame :
    ∀ slots ∈ ([[(1, 0)], List.replicate 8 (0xFF, 0xFFFFFF)] : List (List (U32 × U32))),
      1 ≤ slots.length ∧ slots.length ≤ 8 ∧
        ∀ p ∈ slots, 1 ≤ p.1.toNat ∧ p.1.toNat ≤ 0xFF ∧ p.2.toNat ≤ 0xFFFFFF := by simp

theorem witness_EncodeVgetContigWritesThePieces :
    ∀ x ∈ ([(0xFFFFFF, 1, 1), (0xFFFFFF - 7 * 0xFF, 0xFF, 8)] : List (U32 × U32 × Byte)),
      1 ≤ x.2.2.toNat ∧ x.2.2.toNat ≤ 8 ∧ 1 ≤ x.2.1.toNat ∧ x.2.1.toNat ≤ 0xFF ∧
        x.1.toNat + (x.2.2.toNat - 1) * x.2.1.toNat ≤ 0xFFFFFF := each (by decide +kernel)

theorem witness_EncodeGetWritesTheFrame :
    1 ≤ (1 : U32).toNat ∧ 1 ≤ (0xFFFFFFFF : U32).toNat ∧ (0xFFFFFF : U32).toNat ≤ 0xFFFFFF := by
  decide

/-- The largest program of each frame length, and the empty one. -/
theorem witness_EncodeIovmWritesTheFrame :
    cfgX.opIovm = some 0x07 ∧ cfgX.iovmSpace = some 0x09 ∧
      ∀ x ∈ ([(64, 0), (64, 56), (512, 255)] : List (U16 × Nat)),
        (x.1.toNat = 64 ∨ x.1.toNat = 512) ∧ 8 + (zeros x.2).length ≤ x.1.toNat ∧
          (zeros x.2).length ≤ 255 := by decide +kernel

/-- Each fault condition, at the first value outside its range. -/
theorem witness_EncodersFaultOutOfRange :
    (∀ slots ∈ ([[], List.replicate 9 (1, 0), [(0, 0)], [(0x100, 0)], [(1, 0x1000000)]] :
        List (List (U32 × U32))),
      slots.length < 1 ∨ 8 < slots.length ∨
        ∃ p ∈ slots, p.1.toNat < 1 ∨ 0xFF < p.1.toNat ∨ 0xFFFFFF < p.2.toNat) ∧
    (∀ x ∈ ([(0, 1, 0), (0, 1, 9), (0, 0, 1), (0, 0x100, 1), (0xFFFFC0, 0x40, 2)] :
        List (U32 × U32 × Byte)),
      x.2.2.toNat < 1 ∨ 8 < x.2.2.toNat ∨ x.2.1.toNat < 1 ∨ 0xFF < x.2.1.toNat ∨
        0xFFFFFF < x.1.toNat + (x.2.2.toNat - 1) * x.2.1.toNat) ∧
    (∀ x ∈ ([(0, 0), (0x1000000, 1)] : List (U32 × U32)),
      x.2.toNat < 1 ∨ 0xFFFFFF < x.1.toNat) ∧
    (cfg.opIovm = none ∧ ({ cfgX with iovmSpace := none } : Config).iovmSpace = none) ∧
    (cfgX.opIovm ≠ none ∧ cfgX.iovmSpace ≠ none ∧
      ∀ x ∈ ([(63, 0), (64, 57), (512, 256)] : List (U16 × Nat)),
        (x.1.toNat ≠ 64 ∧ x.1.toNat ≠ 512) ∨ x.1.toNat < 8 + (zeros x.2).length ∨
          255 < (zeros x.2).length) :=
  ⟨by simp, each (by decide +kernel), each (by decide +kernel), by decide,
    by decide +kernel, by decide +kernel, each (by decide +kernel)⟩

/-- Two states of one configuration that differ elsewhere, and an encode in each. -/
theorem witness_EncodersReadOnlyTheirOperands :
    (start cfg [] []).cfg = (loaded cfg vgetA []).cfg ∧
      (start cfg [] []).perr = false ∧ (loaded cfg vgetA []).perr = false ∧
      (∃ t, exec (.encodeGet 0 1) (start cfg [] []) = .next t ∧ t.perr = false) ∧
      ∃ t, exec (.encodeGet 0 1) (loaded cfg vgetA []) = .next t ∧ t.perr = false :=
  ⟨rfl, rfl, rfl, ⟨_, rfl, rfl⟩, ⟨_, rfl, rfl⟩⟩

theorem witness_EncodedFramesDecodeBack :
    (∃ t, exec (.encodeVget (List.replicate 8 (0xFF, 0xFFFFFF))) (start cfgX [] []) = .next t ∧
      t.perr = false) ∧
    (∃ t, exec (.encodeGet 0xFFFFFF 0xFFFFFFFF) (start cfgX [] []) = .next t ∧ t.perr = false) ∧
    ∃ t, exec (.encodeIovm 64 (zeros 56)) (start cfgX [] []) = .next t ∧ t.perr = false :=
  ⟨⟨_, rfl, rfl⟩, ⟨_, rfl, rfl⟩, ⟨_, rfl, rfl⟩⟩

/-- An input for each of the five verdicts, from one state. -/
theorem witness_DecodeVerdictsInOrder :
    [zeros 63, vgetA.set 0 0x75, vgetA.set 4 0x0A, iovmA.set 7 57, vgetA, iovmA.set 7 56].map
      (fun bs => (after (exec (.decodeFrame bs) (start cfgX [] []))).map (fun t => t.dec.verdict)) =
    [some .badLength, some .badMagic, some .badOpcode, some .badProgramLength, some .ok,
      some .ok] := by decide +kernel

/-- A frame of each opcode with the verdict `OK`, and one with another. -/
theorem witness_DecodeFrameWritesTheFields :
    checkFrame cfgX vgetA = .ok ∧ vgetA[4]? = some cfgX.opVget ∧
      checkFrame cfgX getA = .ok ∧ getA[4]? = some cfgX.opGet ∧
      checkFrame cfgX iovmA = .ok ∧ iovmA[4]? = cfgX.opIovm ∧
      checkFrame cfgX (zeros 64) ≠ .ok := by decide +kernel

/-- For each opcode a frame whose unused bytes are zero and one whose last unused byte is not. -/
theorem witness_ZeroOkExaminesTheUnusedBytes :
    [vgetA, vgetA.set 63 1, getA, getA.set 511 1, iovmA, iovmA.set 63 1].map
      (fun bs => (after (exec (.decodeFrame bs) (start cfgX [] []))).map
        (fun t => (t.dec.verdict, t.dec.zeroOk))) =
    [some (.ok, some true), some (.ok, some false), some (.ok, some true), some (.ok, some false),
      some (.ok, some true), some (.ok, some false)] := by decide +kernel

theorem witness_wire_frames_are_decoded :
    (Instr.getWireFrame 1 0 (zeros 245) 0x1000 0xF50000 (zeros 252)).wf = true ∧
      (Instr.vgetWireFrame 1 0xC0 (zeros 25) (List.replicate 8 (0, 0))).wf = true ∧
      cfgX.opIovm = some 0x07 ∧ (Instr.iovmWireFrame 0x07 0x09 0x80 [] (zeros 504)).wf = true := by
  decide +kernel

theorem witness_PaddedSizeReturnsTheLeastMultiple :
    (64 : U16).toNat = 64 ∧ (512 : U16).toNat = 512 ∧
      ∀ b ∈ ([0, 63, 65, 511, 513, 0xFFFF] : List U16), b.toNat ≠ 64 ∧ b.toNat ≠ 512 :=
  ⟨rfl, rfl, each (by decide +kernel)⟩

theorem witness_PaddedSizeLaws :
    ((64 = 64 ∨ 64 = 512) ∧ (512 = 64 ∨ 512 = 512)) ∧ 2 ^ 32 - 1 < 2 ^ 32 ∧ 64 ≤ 65 := by decide

theorem witness_ReadFrameReturnsTheUnsentFrame :
    (∀ bs ∈ [vgetA, getA], (loaded cfg bs []).perr = false ∧ (loaded cfg bs []).fvalid = true ∧
      (loaded cfg bs []).flen ≤ 512 ∧ bs.length = (loaded cfg bs []).flen) ∧
    (∀ bs a, a < (loaded cfg bs []).flen → (loaded cfg bs []).frame.read a = bs[a]?) ∧
    (start cfg [] []).fvalid = false :=
  ⟨by decide +kernel, fun bs => loaded_read cfg bs [], rfl⟩

/-- A GET and a VGET frame, taken in full, in part and with an error, at the ends of the counts. -/
theorem witness_WriteFrame :
    (∀ bs ∈ [vgetA, getA], ∀ a ∈ [(⟨bs.length, .ok⟩ : WriteAnswer), ⟨bs.length - 1, .ok⟩, ⟨0, .ok⟩,
        ⟨bs.length, .error⟩, ⟨0, .error⟩],
      let s := loaded cfg bs [a]
      s.perr = false ∧ s.st ≠ .awaitingAck ∧ s.st ≠ .receivingBlocks ∧ s.fvalid = true ∧
        s.flen ≤ 512 ∧ 5 ≤ s.flen ∧ bs.length = s.flen ∧
        (bs[4]? = some cfg.opGet ∨ bs[4]? = some cfg.opVget) ∧
        (s.stream.write s.flen).1 = a) ∧
    ∀ bs ws a, a < (loaded cfg bs ws).flen → (loaded cfg bs ws).frame.read a = bs[a]? :=
  ⟨by decide +kernel, loaded_read cfg⟩

/-- A state for each fault of `WRITE_FRAME`. -/
theorem witness_WriteFrameFaultsInOrder :
    (pending cfg .awaitingAck 0 []).st = .awaitingAck ∧
      (pending cfg .receivingBlocks 2 []).st = .receivingBlocks ∧
      (start cfg [] []).st ≠ .awaitingAck ∧ (start cfg [] []).st ≠ .receivingBlocks ∧
      (start cfg [] []).fvalid = false ∧ (loaded cfgX iovmA []).fvalid = true ∧
      (loaded cfgX iovmA []).st = .idle ∧ (loaded cfgX iovmA []).frame.read 4 = some 0x07 ∧
      0x07 ≠ cfgX.opGet ∧ 0x07 ≠ cfgX.opVget := by decide +kernel

/-- A next state of each command that could write, of the one that may run, and of a step. -/
theorem witness_OneOutstandingRequest :
    (∃ t, exec (.readResponse 1 64) (pending cfg .receivingBlocks 2 [got 64 1]) = .next t) ∧
      (∃ t, step (facing (.command [0x10]) (pending cfg .awaitingAck 0 [])) = .next t) ∧
      (∃ t, exec .writeFrame { loaded cfg vgetA [] with st := .awaitingAck } = .next t) ∧
      (∃ t, exec (.transactGet 0 1) (pending cfg .receivingBlocks 2 []) = .next t) ∧
      ∃ t, exec (.transactVget [(1, 0)]) (pending cfg .awaitingAck 0 []) = .next t :=
  ⟨next_of_after (by decide +kernel), next_of_after (by decide +kernel), ⟨_, rfl⟩,
    next_of_after (by decide +kernel), next_of_after (by decide +kernel)⟩

/-- Answers at the ends of the bounds, with and without an error. -/
theorem witness_StreamAnswersAreTheAdmittedOnes :
    (∀ a ∈ ([⟨0, .ok⟩, ⟨64, .ok⟩, ⟨65, .error⟩] : List WriteAnswer), a.err = .ok → a.n ≤ 64) ∧
      (got 64 1).bytes.length ≤ 64 ∧ timeout.bytes.length ≤ 64 ∧
      ((start cfg [⟨65, .ok⟩] []).stream.write 64).1 = ⟨64, .ok⟩ := by decide +kernel

/-- Exactly one block to deliver, in two chunks, for each block size. -/
theorem witness_ReadExactFillsTheBlock :
    blockBytes .b64 ≤ (deliverable (start cfg [] [got 20 1, got 44 2]).stream.reads).length ∧
      blockBytes .b512 ≤ (deliverable (start cfg [] [got 511 1, got 1 2]).stream.reads).length := by
  decide +kernel

/-- A stream for each outcome of `READ_EXACT`. -/
theorem witness_ReadExactOutcomes :
    [[got 64 1], [got 63 1, timeout], [timeout], [got 63 1, ⟨[], .error⟩]].map
      (fun rs => resultOf (exec (.readExact .b64) (start cfg [] rs))) =
    [some (.exact .full), some (.exact .timeout), some (.exact .timeout),
      some (.exact .readErr)] := by decide +kernel

/-- The least and the largest admitted request, and a stream with exactly the bytes it needs: a
VGET, and a GET whose ack block comes first. -/
theorem witness_ReadResponseDeliversTheRequest :
    let v := pending cfg .receivingBlocks 2 [got 40 1, got 24 2]
    let g := pending { cfg with accCap := 2048 } .awaitingAck 0 [got 512 0, got 2048 1]
    (v.perr = false ∧ v.warn = false ∧ v.st = .receivingBlocks ∧ (64 : U16).toNat = 64 ∧
      1 ≤ (1 : U32).toNat ∧ paddedSize (1 : U32).toNat 64 ≤ v.cfg.accCap ∧
      0 + paddedSize (1 : U32).toNat 64 = (deliverable v.stream.reads).length) ∧
    (g.perr = false ∧ g.warn = false ∧ g.st = .awaitingAck ∧ (512 : U16).toNat = 512 ∧
      1 ≤ (2048 : U32).toNat ∧ paddedSize (2048 : U32).toNat 512 = g.cfg.accCap ∧
      512 + paddedSize (2048 : U32).toNat 512 = (deliverable g.stream.reads).length) := by
  decide +kernel

/-- For `e = 100` in blocks of 64: 99, 100 and 127 bytes before the timeout, after an ack block
and without one, with a mismatch an error and not. -/
theorem witness_ReadResponseEndsByTimeout :
    (∀ n ∈ [0, 99, 100, 127], ∀ c ∈ [cfg, cfgStrict],
      let s := pending c .receivingBlocks 2 ((if n = 0 then [] else [got n 1]) ++ [timeout])
      s.perr = false ∧ s.st = .receivingBlocks ∧
        (deliverable s.stream.reads).length = 0 + n ∧
        n < paddedSize (100 : U32).toNat (64 : U16).toNat ∧
        paddedSize (100 : U32).toNat (64 : U16).toNat ≤ s.cfg.accCap ∧
        undelivered s.stream.reads = [{ bytes := [], err := .ok }]) ∧
    (deliverable (pending cfg .awaitingAck 0 [got 64 0, got 99 1, timeout]).stream.reads).length =
      64 + 99 ∧
    undelivered (pending cfg .awaitingAck 0 [got 64 0, got 99 1, timeout]).stream.reads =
      [{ bytes := [], err := .ok }] := by decide +kernel

/-- An ack block with no byte and one that lacks its last byte, before a timeout. -/
theorem witness_ReadResponseEndsByAckTimeout :
    ∀ rs ∈ [[timeout], [got 63 1, timeout]],
      let s := pending cfg .awaitingAck 0 rs
      s.perr = false ∧ s.st = .awaitingAck ∧ 1 ≤ (100 : U32).toNat ∧
        paddedSize (100 : U32).toNat (64 : U16).toNat ≤ s.cfg.accCap ∧
        (deliverable s.stream.reads).length < (64 : U16).toNat ∧
        undelivered s.stream.reads = [{ bytes := [], err := .ok }] := by decide +kernel

/-- For `e = 100` in blocks of 64, an error before any byte, at the end of the ack block and one
byte before the end of the response; after a VGET, before any byte and one byte before the end. -/
theorem witness_ReadResponseEndsByReadError :
    ∀ x ∈ [(Phase.awaitingAck, 0, 64), (.awaitingAck, 64, 64), (.awaitingAck, 191, 64),
        (.receivingBlocks, 0, 0), (.receivingBlocks, 127, 0)],
      let s := pending cfg x.1 0
        ((if x.2.1 = 0 then [] else [got x.2.1 1]) ++ [{ bytes := [7], err := .error }])
      s.perr = false ∧ s.st = x.1 ∧ 1 ≤ (100 : U32).toNat ∧
        paddedSize (100 : U32).toNat (64 : U16).toNat ≤ s.cfg.accCap ∧
        (deliverable s.stream.reads).length <
          x.2.2 + paddedSize (100 : U32).toNat (64 : U16).toNat ∧
        undelivered s.stream.reads = [{ bytes := [7], err := .error }] := by decide +kernel

/-- Each of the six endings of `READ_RESPONSE`. -/
theorem witness_ReadResponseOutcomes :
    [(cfg, Phase.receivingBlocks, [got 64 1, got 64 2]),
      (cfg, .receivingBlocks, [got 64 1, got 36 2, timeout]),
      (cfgStrict, .receivingBlocks, [got 64 1, got 36 2, timeout]),
      (cfg, .receivingBlocks, [got 64 1, got 35 2, timeout]),
      (cfg, .awaitingAck, [got 63 1, timeout]),
      (cfg, .awaitingAck, [got 64 1, ⟨[1], .error⟩])].map
      (fun x => (after (exec (.readResponse 100 64) (pending x.1 x.2.1 0 x.2.2))).map
        (fun t => (t.st, t.err, t.warn))) =
    [some (.complete, .noError, false), some (.complete, .noError, true),
      some (.failed, .mismatch, true), some (.failed, .shortResponse, false),
      some (.failed, .ackTimeout, false), some (.failed, .readError, false)] := by decide +kernel

/-- For the statements about every next state of `READ_RESPONSE`. -/
theorem witness_ReadResponse_next :
    ∃ t, exec (.readResponse 1 64) (pending cfg .receivingBlocks 2 [got 64 1]) = .next t :=
  next_of_after (by decide +kernel)

/-- The first values outside each range of `READ_RESPONSE`. -/
theorem witness_ReadResponseFaultsInOrder :
    (start cfg [] []).st ≠ .awaitingAck ∧ (start cfg [] []).st ≠ .receivingBlocks ∧
      (∀ b ∈ ([63, 65, 511, 513] : List U16), b.toNat ≠ 64 ∧ b.toNat ≠ 512) ∧
      (0 : U32).toNat < 1 ∧
      ({ cfg with accCap := 2048 } : Config).accCap <
        paddedSize (2049 : U32).toNat (512 : U16).toNat ∧
      ({ cfg with accCap := 2048 } : Config).accCap <
        paddedSize (2049 : U32).toNat (64 : U16).toNat :=
  ⟨by decide, by decide, each (by decide +kernel), by decide +kernel⟩

theorem completed_inv : completed.Inv where
  cfgValid := by decide
  frameWf := by decide
  blkWf := by decide
  accWf := by decide +kernel
  frameBelow := by decide
  blkBelow := by decide
  accBelow := by decide +kernel
  flenLegal := .inl rfl
  frameHeld := fun h => by cases h
  bfillLe := by decide
  blkHeld := fun _ h => absurd h (Nat.not_lt_zero _)
  accHeld := by decide +kernel
  alenLe := by decide
  reqPLe := by decide
  reqBLegal := .inr (.inl rfl)
  reqPadded := by decide
  notWriting := by decide
  failedErr := by decide
  completeResult := by decide
  ackIsGet := by decide
  blocksIsVget := by decide
  warnEnded := fun h => by cases h
  faultCause := by decide
  decRegs := .inl rfl
  histLegal := fun _ h => by cases h

/-- The whole result, its empty slice at the end, and one byte past it. -/
theorem witness_ReadResultReturnsTheSlice :
    completed.perr = false ∧ completed.Inv ∧ completed.st = .complete ∧
      (0 : U32).toNat + (10 : U32).toNat ≤ completed.rlen.toNat ∧
      (10 : U32).toNat + (0 : U32).toNat ≤ completed.rlen.toNat ∧
      completed.rlen.toNat < (1 : U32).toNat + (10 : U32).toNat ∧
      (start cfg [] []).st ≠ .complete :=
  ⟨rfl, completed_inv, rfl, by decide, by decide, by decide, by decide⟩

/-- A stream that takes the frame and delivers exactly the ack block and one data block. -/
theorem witness_TransactGetDelivers :
    let s := start cfg [⟨512, .ok⟩] [got 512 0, got 512 1]
    s.perr = false ∧ s.st ≠ .awaitingAck ∧ s.st ≠ .receivingBlocks ∧ 1 ≤ (1 : U32).toNat ∧
      (0xFFFFFF : U32).toNat ≤ 0xFFFFFF ∧
      (s.stream.write 512).1 = { n := 512, err := .ok } ∧
      paddedSize (1 : U32).toNat 512 ≤ s.cfg.accCap ∧
      512 + paddedSize (1 : U32).toNat 512 ≤ (deliverable s.stream.reads).length := by
  decide +kernel

/-- The largest VGET and the least, each with exactly its padded response. -/
theorem witness_TransactVgetDelivers :
    ∀ x ∈ ([([(1, 0)], 1, 64), (List.replicate 8 (0xFF, 0xFFFFFF), 2040, 2048)] :
        List (List (U32 × U32) × Nat × Nat)),
      let s := start cfg [⟨64, .ok⟩] [got x.2.2 1]
      s.cfg.Valid ∧ s.perr = false ∧ s.st ≠ .awaitingAck ∧ s.st ≠ .receivingBlocks ∧
        1 ≤ x.1.length ∧ x.1.length ≤ 8 ∧
        (∀ p ∈ x.1, 1 ≤ p.1.toNat ∧ p.1.toNat ≤ 0xFF ∧ p.2.toNat ≤ 0xFFFFFF) ∧
        x.2.1 = (x.1.map fun p => p.1.toNat).sum ∧
        (s.stream.write 64).1 = { n := 64, err := .ok } ∧
        paddedSize x.2.1 64 ≤ (deliverable s.stream.reads).length := by
  simp only [List.forall_mem_cons, List.not_mem_nil, false_imp_iff, implies_true, and_true]
  exact ⟨⟨by decide, rfl, by decide, by decide, by decide, by decide, by decide +kernel,
    rfl, rfl, by decide +kernel⟩, by decide, rfl, by decide, by decide, by decide, by decide,
    each (by decide +kernel), rfl, rfl, by decide +kernel⟩

theorem witness_FaultBarsEveryOtherCommand :
    ({ start cfg [] [] with perr := true } : State).perr = true ∧ Instr.writeFrame ≠ .readStatus :=
  ⟨rfl, by decide⟩

/-- For the statements about every next state of every instruction, and their exclusions. -/
theorem witness_exec_next :
    (∃ t, exec (.encodeGet 0 1) (start cfg [] []) = .next t) ∧
      Instr.encodeGet 0 1 ≠ .writeFrame ∧ (∀ e b, Instr.encodeGet 0 1 ≠ .readResponse e b) ∧
      (∀ b, Instr.encodeGet 0 1 ≠ .readExact b) ∧ (∀ a n, Instr.encodeGet 0 1 ≠ .transactGet a n) ∧
      ∀ slots, Instr.encodeGet 0 1 ≠ .transactVget slots :=
  ⟨⟨_, rfl⟩, by decide, fun _ _ h => (by cases h), fun _ h => (by cases h),
    fun _ _ h => (by cases h), fun _ h => (by cases h)⟩

/-- A move along each kind of transition, from a state that is not `Writing`. -/
theorem witness_StateMovesOnlyAlongTheTable :
    (start cfg [] []).st ≠ .writing ∧
    (after (exec .writeFrame (loaded cfg vgetA [⟨64, .ok⟩]))).map State.st =
      some .receivingBlocks ∧
    (after (exec (.readResponse 1 64) (pending cfg .receivingBlocks 2 [got 64 1]))).map State.st =
      some .complete ∧
    (after (exec (.transactVget [(1, 0)]) (start cfg [⟨0, .ok⟩] []))).map State.st = some .failed := by
  decide +kernel

theorem witness_StepKeepsTheInvariant :
    completed.Inv ∧ (∃ t, step completed = .next t) ∧
      ∃ t, exec (.readExact .b64) { completed with
        stream := { writes := [], reads := [timeout], draws := 0 } } = .next t :=
  ⟨completed_inv, ⟨_, rfl⟩, next_of_after (by decide +kernel)⟩

end Sys2Proof.Tests
end

section
/-! PROOFS. Padded sizes (rule R120), and the invariant: what every operation of a command keeps
of it, that every instruction keeps it and reads only bytes that are there (rules R12, R38), and
that every step does. -/

namespace Sys2Proof.Machine

/-! Padded sizes. -/

theorem blockSize_blockBytes {bsz : U16} (b : BlockSize) (h : bsz.toNat = blockBytes b) :
    blockSize bsz = some b := by
  cases b <;> simp [blockSize, h, blockBytes]

theorem paddedSize_le_of_dvd {size b q : Nat} (hb : 0 < b) (hd : b ∣ q) (hq : size ≤ q) :
    paddedSize size b ≤ q :=
  Nat.le_of_lt_add_of_dvd (Nat.lt_of_lt_of_le (paddedSize_lt size b hb) (by omega))
    (paddedSize_dvd size b) hd

theorem execPaddedSize_of_block {s : State} (hp : s.perr = false) (size : U32) {bsz : U16}
    {b : BlockSize} (h : blockSize bsz = some b) :
    exec (.paddedSize size bsz) s = .next { s with
      out := some (.padded (BitVec.ofNat 33 (paddedSize size.toNat (blockBytes b)))) } := by
  rw [exec, execPaddedSize, State.command_run hp, h]
  rfl

theorem execPaddedSize_of_none {s : State} (hp : s.perr = false) (size : U32) {bsz : U16}
    (h : blockSize bsz = none) :
    exec (.paddedSize size bsz) s = .next (s.progFault .range) := by
  rw [exec, execPaddedSize, State.command_run hp, h]

/-- Settles O26: the value is exact because it fits 33 bits, and least because a padded size stays
less than one block above the size. -/
theorem paddedSizeReturnsTheLeastMultiple : Obligations.PaddedSizeReturnsTheLeastMultiple := by
  intro s size bsz hp
  refine ⟨fun h => ?_, fun h64 h512 => ?_⟩
  · obtain ⟨b, hb⟩ : ∃ b, bsz.toNat = blockBytes b := h.elim (⟨.b64, ·⟩) (⟨.b512, ·⟩)
    have hpos := blockBytes_pos b
    refine ⟨_, execPaddedSize_of_block hp size (blockSize_blockBytes b hb), ?_⟩
    rw [paddedSize_fits, hb]
    exact ⟨rfl, paddedSize_dvd _ _, le_paddedSize _ _ hpos,
      fun q hd hq => paddedSize_le_of_dvd hpos hd hq⟩
  · exact execPaddedSize_of_none hp size (by simp [blockSize, h64, h512])

/-! Buffers and frames. -/

theorem Memory.below_nil (size : Nat) : Memory.below [] size := by
  intro a ha
  cases ha

theorem Memory.filled_zero (m : Memory) : m.filled 0 := fun _ ha => absurd ha (Nat.not_lt_zero _)

theorem State.memRead_of_filled {s : State} {b : Buffer} {off n : Nat}
    (hsize : off + n ≤ s.bufferSize b) (h : (s.buffer b).filled (off + n)) :
    ∃ bs, s.memRead b off n = .ok bs := by
  rw [State.memRead, if_pos hsize]
  exact readCells_of_filled _ _ _ _ fun i hi => h _ (by omega)

/-- A read that answers finds a byte at each address of its range. -/
theorem State.memRead_within {s : State} {b : Buffer} {n a : Nat} {bs : List Byte}
    (h : s.memRead b 0 n = .ok bs) (ha : a < n) : ∃ x, s.memRead b a 1 = .ok [x] := by
  obtain ⟨hsize, hl, hr⟩ := (State.memRead_ok_iff _ _ _ _ _).1 h
  refine ⟨bs[a], (State.memRead_ok_iff _ _ _ _ _).2 ⟨by omega, rfl, fun i hi => ?_⟩⟩
  obtain rfl : i = 0 := by omega
  simpa [hl, ha] using hr a ha

/-- `FRAME` read back after an encoder has filled it (rule R12). -/
theorem State.memRead_loadFrame (s : State) {bs : List Byte} (h : bs.length ≤ 512) :
    (s.loadFrame bs).memRead .frame 0 bs.length = .ok bs := by
  refine (State.memRead_ok_iff _ _ _ _ _).2 ⟨by simpa [State.bufferSize] using h, rfl, ?_⟩
  intro i hi
  simp [State.buffer, Memory.read_write, hi]

/-- The decoder accepts frames of 64 and of 512 bytes only (rule R116). -/
theorem checkFrame_ok_length {c : Config} {bs : List Byte} (h : checkFrame c bs = .ok) :
    bs.length = 64 ∨ bs.length = 512 := by
  unfold checkFrame at h
  split at h
  · cases h
  · omega

theorem blockRead.legal {b : Nat} {e : Event} (h : blockRead b e) (hb : b ≤ 512) : e.legal := by
  obtain ⟨m, bytes, err, rfl, h1, h2, h3⟩ := h
  exact ⟨h1, by omega, h3⟩

/-! The states within a command. -/

/-- What holds of the block all through a command, too: the invariant but for the clauses that
speak of `STATE`, `ERR` and `WARN`, which a command settles at its end only. -/
abbrev State.Sound (s : State) : Prop :=
  State.Inv { s with st := .idle, err := .noError, warn := false }

theorem State.Inv.sound {s : State} (h : s.Inv) : s.Sound :=
  { h with
    notWriting := by simp
    failedErr := by simp
    completeResult := by simp
    ackIsGet := by simp
    blocksIsVget := by simp
    warnEnded := by simp }

theorem State.Inv.emit {s : State} {e : Event} (h : s.Inv) (he : e.legal) : (s.emit e).Inv :=
  { h with histLegal := List.forall_mem_append.2 ⟨h.histLegal, by simpa using he⟩ }

/-- The start of a request (rule R130). -/
theorem State.Inv.openRequest {s : State} (h : s.Inv) (op : Byte) : (s.openRequest op).Sound :=
  { h.sound with
    accHeld := Memory.filled_zero _
    alenLe := Nat.zero_le _
    completeResult := by simp
    ackIsGet := by simp
    blocksIsVget := by simp
    warnEnded := by simp }

/-- A request that is sent takes the frame out of `FRAME` (rule R130). -/
theorem State.Sound.streamWrite {s : State} {bs : List Byte} (h : s.Sound)
    (hl : bs.length = 64 ∨ bs.length = 512) :
    (State.streamWrite { s with fvalid := false } bs).2.Sound :=
  { h with
    frameHeld := by simp
    histLegal := List.forall_mem_append.2
      ⟨h.histLegal, List.forall_mem_singleton.2 ⟨hl, s.stream.write_bound bs.length⟩⟩ }

/-- The request registers of a response (rule R140). -/
theorem State.Inv.openResponse {s : State} (h : s.Inv) (e : U32) (b : BlockSize)
    (hp : paddedSize e.toNat (blockBytes b) ≤ s.cfg.accCap) :
    (s.openResponse e (blockBytes b) (paddedSize e.toNat (blockBytes b))).Sound :=
  { h.sound with
    accHeld := Memory.filled_zero _
    alenLe := Nat.zero_le _
    completeResult := by simp
    warnEnded := by simp
    reqPLe := (paddedSize_fits e b).trans_le hp
    reqBLegal := by cases b <;> simp [State.openResponse, blockBytes]
    reqPadded := paddedSize_fits e b }

/-- `BLK` and `BFILL` as a `READ_EXACT` leaves them (rule R135). -/
theorem State.Inv.withBlock {s u t : State} {b : Nat} {r : ExactOutcome} {es : List Event}
    {ds : List Byte} (h : u.Inv) (hf : Filled b { s with bfill := 0 } r t es ds) (hb : b ≤ 512)
    (hblk : u.blk = s.blk) :
    State.Inv { u with
      blk := t.blk, bfill := t.bfill, hist := u.hist ++ es, stream := t.stream } :=
  { h with
    blkWf := hf.wf (hblk ▸ h.blkWf)
    blkBelow := hf.below 512 hb (hblk ▸ h.blkBelow)
    bfillLe := hf.bound.trans hb
    blkHeld := hf.filled
    histLegal := List.forall_mem_append.2
      ⟨h.histLegal, fun e he => (hf.calls e he).legal hb⟩ }

theorem Filled.inv {s t : State} {b : Nat} {r : ExactOutcome} {es : List Event} {ds : List Byte}
    (hf : Filled b { s with bfill := 0 } r t es ds) (h : s.Inv) (hb : b ≤ 512) : t.Inv := by
  rw [hf.frame, hf.hist]
  exact h.withBlock hf hb rfl

theorem Filled.sound {s t : State} {b : Nat} {r : ExactOutcome} {es : List Event}
    {ds : List Byte} (hf : Filled b { s with bfill := 0 } r t es ds) (h : s.Sound)
    (hb : b ≤ 512) : t.Sound := by
  rw [hf.frame, hf.hist]
  exact State.Inv.withBlock (s := s) (t := t) h hf hb rfl

/-- The data loop fills `ACC` from its start up to the padded size at most (rule R144). -/
theorem Collected.sound {s t : State} {b p : Nat} {x : Assembly} {es : List Event}
    {ds : List Byte} (hc : Collected b p s x t es ds) (h : s.Sound) (hb : b ≤ 512)
    (hp : s.reqP.toNat = p) : t.Sound := by
  have hcap : p ≤ s.cfg.accCap := hp ▸ h.reqPLe
  have held : t.acc.filled t.alen := by
    intro a ha
    rw [hc.fill] at ha
    rw [hc.read a]
    split
    · rw [List.getElem?_eq_getElem (by omega)]
      rfl
    · exact h.accHeld a (show a < s.alen by omega)
  rw [hc.frame, hc.hist]
  exact { h with
    blkWf := hc.blkWf h.blkWf
    blkBelow := hc.blkBelow 512 hb h.blkBelow
    accWf := hc.wf h.accWf
    accBelow := hc.below _ hcap h.accBelow
    bfillLe := hc.blkFill h.bfillLe
    blkHeld := hc.blkFilled h.blkHeld
    accHeld := held
    alenLe := hc.bound.trans_eq hp.symm
    completeResult := by simp
    warnEnded := by simp
    histLegal := List.forall_mem_append.2
      ⟨h.histLegal, fun e he => (hc.calls e he).legal hb⟩ }

/-! How commands end. -/

theorem State.Inv.returns {s : State} (h : s.Inv) (r : Result) : (s.returns r).Inv := { h with }

theorem State.Inv.returnsNothing {s : State} (h : s.Inv) : s.returnsNothing.Inv := { h with }

theorem State.Inv.withInbox {s : State} (h : s.Inv) (rest : List HostInput) :
    State.Inv { s with inbox := rest } := { h with }

/-- A programming error sets `PERR` and its cause (rule R172). -/
theorem State.Inv.progFault {s : State} {c : ProgCause} (h : s.Inv) (hc : c ≠ .noFault) :
    (s.progFault c).Inv :=
  { h with
    faultCause := by simpa using hc
    histLegal := List.forall_mem_append.2 ⟨h.histLegal, by simpa [Event.legal] using hc⟩ }

/-- A failure sets `ERR` with `STATE` (rule R171); only the mismatch one leaves the warning. -/
theorem State.Sound.fail {s : State} {c : ErrCode} (h : s.Sound) (hc : c ≠ .noError)
    (hw : s.warn = true → s.alen < s.reqP.toNat ∧ c = .mismatch) : (s.fail c).Inv :=
  { h with
    notWriting := by simp
    failedErr := by simpa using hc
    completeResult := by simp
    ackIsGet := by simp
    blocksIsVget := by simp
    warnEnded := by simpa using hw
    histLegal := List.forall_mem_append.2 ⟨h.histLegal, by simpa [Event.legal] using hc⟩ }

/-- A sent request waits in the state that fits its opcode (rules R23, R130). -/
theorem State.Sound.pend {s : State} {p : Phase} (h : s.Sound) (herr : s.err = .noError)
    (hwarn : s.warn = false) (hp : (p = .awaitingAck ∧ s.reqOp = s.cfg.opGet) ∨
      (p = .receivingBlocks ∧ s.reqOp = s.cfg.opVget)) :
    (State.returnsPhase { s with st := p }).Inv := by
  rcases hp with ⟨rfl, hop⟩ | ⟨rfl, hop⟩ <;>
    exact { h with
      notWriting := by simp
      failedErr := by simp [herr]
      completeResult := by simp
      ackIsGet := by simp [hop]
      blocksIsVget := by simp [hop]
      warnEnded := by simp [hwarn] }

/-- A request is complete with its whole result in `ACC` (rules R28, R142). -/
theorem State.Sound.completeRequest {s : State} {e : U32} (h : s.Sound) (herr : s.err = .noError)
    (hreq : s.reqE = e) (he : 1 ≤ e.toNat) (hlen : e.toNat ≤ s.alen)
    (hw : s.warn = true → s.alen < s.reqP.toNat) : (completeRequest e s).Inv :=
  { h with
    notWriting := by simp [Machine.completeRequest]
    failedErr := by simp [Machine.completeRequest, herr]
    completeResult := fun _ => ⟨hreq.symm, he, hlen⟩
    ackIsGet := by simp [Machine.completeRequest]
    blocksIsVget := by simp [Machine.completeRequest]
    warnEnded := fun hwarn => ⟨hw hwarn, .inl rfl⟩
    histLegal := List.forall_mem_append.2 ⟨h.histLegal, by simpa [Event.legal] using he⟩ }

/-- A reset leaves nothing to check but the parameters (rule R38; the zeros of `REQ_*` are log
entry 1). -/
theorem State.resetWith_inv {c : Config} (h : c.Valid) : (State.resetWith c).Inv where
  cfgValid := h
  frameWf := Memory.wf_nil
  blkWf := Memory.wf_nil
  accWf := Memory.wf_nil
  frameBelow := Memory.below_nil _
  blkBelow := Memory.below_nil _
  accBelow := Memory.below_nil _
  flenLegal := .inl rfl
  frameHeld := by simp [State.resetWith]
  bfillLe := Nat.zero_le _
  blkHeld := Memory.filled_zero _
  accHeld := Memory.filled_zero _
  alenLe := Nat.zero_le _
  reqPLe := Nat.zero_le _
  reqBLegal := .inl rfl
  reqPadded := rfl
  notWriting := by simp [State.resetWith]
  failedErr := by simp [State.resetWith]
  completeResult := by simp [State.resetWith]
  ackIsGet := by simp [State.resetWith]
  blocksIsVget := by simp [State.resetWith]
  warnEnded := by simp [State.resetWith]
  faultCause := by simp [State.resetWith]
  decRegs := .inl rfl
  histLegal := by simp [State.resetWith]

theorem State.Inv.hardReset {s : State} (h : s.Inv) : s.hardReset.Inv :=
  { State.resetWith_inv h.cfgValid with }

theorem State.Inv.cutBy {s : State} (h : s.Inv) (t : State) (k : Nat) : (s.cutBy t k).Inv :=
  { State.resetWith_inv h.cfgValid with }

/-! Instructions. -/

/-- The outcome is a next state that meets the invariant: no model fault, no refusal. -/
def KeepsInv (o : Host.Outcome State Fault Refusal) : Prop := ∃ t, o = .next t ∧ t.Inv

@[simp] theorem keepsInv_next {t : State} : KeepsInv (.next t) ↔ t.Inv := by simp [KeepsInv]

theorem State.Inv.command {s : State} {body : State → Host.Outcome State Fault Refusal}
    (h : s.Inv) (hb : KeepsInv (body s)) : KeepsInv (s.command body) := by
  unfold State.command
  split
  · exact keepsInv_next.2 h.returnsNothing
  · exact hb

theorem State.Inv.command_next {s : State} {f : State → State} (h : s.Inv) (hf : (f s).Inv) :
    KeepsInv (s.command fun s => .next (f s)) :=
  h.command (keepsInv_next.2 hf)

/-- An encoder leaves a frame the decoder accepts (rules R24, R118). -/
theorem State.Inv.loadFrame {s : State} {bs : List Byte} (h : s.Inv)
    (hbs : checkFrame s.cfg bs = .ok ∧ zeroOk s.cfg bs = true) : (s.loadFrame bs).Inv := by
  have hl := checkFrame_ok_length hbs.1
  have hle : bs.length ≤ 512 := by omega
  exact { h with
    frameWf := Memory.write_wf _ _ _ h.frameWf
    frameBelow := Memory.write_below _ _ _ _ h.frameBelow (by omega)
    flenLegal := .inr hl
    frameHeld := fun _ => ⟨bs, s.memRead_loadFrame hle, hbs⟩ }

theorem buildVget_inv {s : State} (h : s.Inv) (slots : List (U32 × U32)) :
    (buildVget slots s).Inv := by
  unfold buildVget
  split
  · exact h.loadFrame (vgetRequest_accepted _ _ ‹_›)
  · exact h.progFault (by simp)

theorem buildGet_inv {s : State} (h : s.Inv) (addr size : U32) : (buildGet addr size s).Inv := by
  unfold buildGet
  split
  · exact h.loadFrame (getRequest_accepted _ h.cfgValid _ _ ‹_›)
  · exact h.progFault (by simp)

theorem iovmCodes_some {c : Config} {op space : Byte} (h : iovmCodes c = some (op, space)) :
    c.opIovm = some op := by
  unfold iovmCodes at h
  split at h
  · cases h
    assumption
  · cases h

theorem buildIovm_inv {s : State} (h : s.Inv) (flen : U16) (prog : List Byte) :
    (buildIovm flen prog s).Inv := by
  unfold buildIovm
  split
  · exact h.progFault (by simp)
  · rename_i op space hcodes
    split
    · exact h.loadFrame (iovmRequest_accepted _ h.cfgValid _ _ _ _ (iovmCodes_some hcodes) ‹_›)
    · exact h.progFault (by simp)

theorem examine_inv {s : State} (h : s.Inv) (bs : List Byte) : (examine bs s).Inv :=
  { h with decRegs := .inr ⟨bs, rfl⟩ }

/-- A sent request ends pending, in the state its opcode asks for, or failed (rule R130). -/
theorem sendFrame_inv {s : State} {op : Byte} {bs : List Byte} (h : s.Inv)
    (hl : bs.length = 64 ∨ bs.length = 512) (hop : op = s.cfg.opGet ∨ op = s.cfg.opVget) :
    (sendFrame op bs (s.openRequest op)).Inv := by
  have sent := (h.openRequest op).streamWrite hl
  unfold sendFrame
  dsimp only
  split
  · exact sent.fail (by simp) (by simp)
  · split
    · exact sent.fail (by simp) (by simp)
    · refine sent.pend rfl rfl ?_
      split
      · exact .inl ⟨rfl, ‹_›⟩
      · exact .inr ⟨rfl, hop.resolve_left ‹_›⟩

/-- Every byte `WRITE_FRAME` reads is one of the unsent frame's. -/
theorem writeFrame_answers {s : State} (h : s.Inv) : ∃ t, writeFrame s = .next t := by
  unfold writeFrame
  split
  · exact ⟨_, rfl⟩
  · split
    · exact ⟨_, rfl⟩
    · rename_i hv
      obtain ⟨bs, hbs, hok, -⟩ := h.frameHeld (by simpa using hv)
      have hl := checkFrame_ok_length hok
      obtain ⟨-, hlen, -⟩ := (State.memRead_ok_iff _ _ _ _ _).1 hbs
      obtain ⟨x, hx⟩ := State.memRead_within hbs (a := 4) (by omega)
      rw [hx]
      dsimp only
      split
      · exact ⟨_, rfl⟩
      · rw [show ∀ op, (s.openRequest op).memRead .frame 0 (s.openRequest op).flen = .ok bs
          from fun _ => hbs]
        exact ⟨_, rfl⟩

theorem writeFrame_keeps {s : State} (h : s.Inv) : KeepsInv (writeFrame s) := by
  obtain ⟨t, ht⟩ := writeFrame_answers h
  refine ⟨t, ht, ?_⟩
  rcases writeFrame_next ht with ⟨-, rfl⟩ | ⟨-, -, rfl⟩ | ⟨-, -, -, -, -, -, rfl⟩ |
    ⟨-, hv, op, bs, -, hop, hbs, rfl⟩
  · exact h.progFault (by simp)
  · exact h.progFault (by simp)
  · exact h.progFault (by simp)
  · obtain ⟨bs', hbs', hok, -⟩ := h.frameHeld hv
    obtain rfl : bs = bs' := Except.ok.inj (hbs.symm.trans hbs')
    exact sendFrame_inv h (checkFrame_ok_length hok) hop

/-- The states within `READ_RESPONSE` for `e` bytes padded to `p`, past its checks. -/
structure State.Answering (e : U32) (p : Nat) (s : State) : Prop where
  sound : s.Sound
  err : s.err = .noError
  warn : s.warn = false
  reqE : s.reqE = e
  reqP : s.reqP.toNat = p

/-- In a pending state nothing has failed and no warning is up (rules R29, R30). -/
theorem State.Inv.answering {s : State} {e : U32} {b : BlockSize} (h : s.Inv)
    (hpend : s.st.pending = true) (hp : paddedSize e.toNat (blockBytes b) ≤ s.cfg.accCap) :
    (s.openResponse e (blockBytes b) (paddedSize e.toNat (blockBytes b))).Answering e
      (paddedSize e.toNat (blockBytes b)) := by
  have hst := (Phase.pending_iff _).1 hpend
  refine ⟨h.openResponse e b hp, ?_, ?_, rfl, paddedSize_fits e b⟩
  · by_contra herr
    rcases hst with hst | hst <;> simp [h.failedErr.2 herr] at hst
  · by_contra hwarn
    obtain ⟨-, hend⟩ := h.warnEnded (by simpa using hwarn)
    rcases hst with hst | hst <;> simp [hst] at hend

theorem Filled.answering {s t : State} {b p : Nat} {e : U32} {r : ExactOutcome}
    {es : List Event} {ds : List Byte} (hf : Filled b { s with bfill := 0 } r t es ds)
    (h : s.Answering e p) (hb : b ≤ 512) : t.Answering e p := by
  have hs := hf.sound h.sound hb
  rw [hf.frame] at hs ⊢
  exact { h with sound := hs }

theorem Collected.answering {s t : State} {b p : Nat} {e : U32} {x : Assembly} {es : List Event}
    {ds : List Byte} (hc : Collected b p s x t es ds) (h : s.Answering e p) (hb : b ≤ 512) :
    t.Answering e p := by
  have hs := hc.sound h.sound hb h.reqP
  rw [hc.frame] at hs ⊢
  exact { h with sound := hs }

theorem State.Answering.fail {s : State} {e : U32} {p : Nat} {c : ErrCode}
    (h : s.Answering e p) (hc : c ≠ .noError) : (s.fail c).Inv :=
  h.sound.fail hc (by simp [h.warn])

/-- The end of an assembly (rule R142): the warning goes up below the padded size only. -/
theorem finishResponse_inv {s : State} {e : U32} {p : Nat} (h : s.Answering e p)
    (he : 1 ≤ e.toNat) (hle : s.alen ≤ p) : (finishResponse e p s).Inv := by
  have warned : s.alen ≠ p →
      ({ s with warn := true }.emit (.mismatch s.alen p)).Sound ∧ s.alen < s.reqP.toNat := by
    intro hne
    have hlt : s.alen < p := by omega
    exact ⟨h.sound.emit hlt, h.reqP.symm ▸ hlt⟩
  rcases finishResponse_cases e p s with ⟨-, hr⟩ | ⟨hlen, -, hr⟩ | ⟨-, hne, -, hr⟩ |
    ⟨hlen, hne, -, hr⟩ <;> rw [hr]
  · exact h.fail (by simp)
  · exact h.sound.completeRequest h.err h.reqE he hlen (by simp [h.warn])
  · exact (warned hne).1.fail (by simp) fun _ => ⟨(warned hne).2, rfl⟩
  · exact (warned hne).1.completeRequest h.err h.reqE he hlen fun _ => (warned hne).2

theorem receiveData_keeps {s : State} {e : U32} {b : BlockSize} {p : Nat}
    (h : s.Answering e p) (he : 1 ≤ e.toNat) (ha : s.alen = 0) (hp : blockBytes b ∣ p) :
    KeepsInv (receiveData e (blockBytes b) p s) := by
  obtain ⟨x, u, es, ds, -, hc, hr⟩ := receiveData_spec e b p s ha hp
  have hu := hc.answering h (blockBytes_le b)
  rw [hr, keepsInv_next]
  cases x with
  | readFailed => exact hu.fail (by simp)
  | ended => exact finishResponse_inv hu he hc.bound

theorem receiveAck_keeps {s : State} {e : U32} {b : BlockSize} {p : Nat}
    (h : s.Answering e p) (he : 1 ≤ e.toNat) (ha : s.alen = 0) (hp : blockBytes b ∣ p) :
    KeepsInv (receiveAck e (blockBytes b) p s) := by
  obtain ⟨es, ds, hf, hr⟩ := receiveAck_spec e (blockBytes b) p s
  have hu := hf.answering h (blockBytes_le b)
  rw [hr]
  split
  · exact keepsInv_next.2 (hu.fail (by simp))
  · exact keepsInv_next.2 (hu.fail (by simp))
  · refine receiveData_keeps { hu with } he ?_ hp
    rw [hf.frame]
    exact ha

theorem readResponse_keeps {s : State} (h : s.Inv) (e : U32) (bsz : U16) :
    KeepsInv (readResponse e bsz s) := by
  rcases readResponse_cases e bsz s with ⟨-, hr⟩ | ⟨-, -, hr⟩ | ⟨-, -, _, -, -, hr⟩ |
    ⟨hpend, he, b, -, hcap, hr⟩ <;> rw [hr]
  · exact keepsInv_next.2 (h.progFault (by simp))
  · exact keepsInv_next.2 (h.progFault (by simp))
  · exact keepsInv_next.2 (h.progFault (by simp))
  · have hopen := h.answering hpend hcap
    have hdvd := paddedSize_dvd e.toNat (blockBytes b)
    dsimp only
    split
    · exact receiveAck_keeps hopen he rfl hdvd
    · exact receiveData_keeps hopen he rfl hdvd

theorem transact_keeps {s : State} (h : s.Inv) (e : U32) (bsz : U16) :
    KeepsInv (transact e bsz s) := by
  obtain ⟨u, hw, hu⟩ := writeFrame_keeps h
  unfold transact
  split
  · exact keepsInv_next.2 h
  · rw [hw]
    dsimp only
    split
    · exact keepsInv_next.2 hu
    · exact readResponse_keeps hu e bsz

theorem execReadFrame_keeps {s : State} (h : s.Inv) : KeepsInv (execReadFrame s) := by
  refine h.command ?_
  split
  · obtain ⟨bs, hbs, -⟩ := h.frameHeld ‹_›
    rw [hbs]
    exact keepsInv_next.2 (h.returns _)
  · exact keepsInv_next.2 (h.progFault (by simp))

/-- `READ_RESULT` reads within the result, which a complete request has in `ACC` (rule R28). -/
theorem execReadResult_keeps {s : State} (h : s.Inv) (off cnt : U32) :
    KeepsInv (execReadResult off cnt s) := by
  refine h.command ?_
  split
  · exact keepsInv_next.2 (h.progFault (by simp))
  · rename_i hst
    split
    · exact keepsInv_next.2 (h.progFault (by simp))
    · obtain ⟨-, -, hlen⟩ := h.completeResult (by simpa using hst)
      have hcap := h.alenLe.trans h.reqPLe
      have hacc := h.accHeld
      obtain ⟨bs, hbs⟩ := State.memRead_of_filled (s := s) (b := .acc) (off := off.toNat)
        (n := cnt.toNat) (by simp only [State.bufferSize]; omega)
        fun a ha => hacc a (by omega)
      rw [hbs]
      exact keepsInv_next.2 (h.returns _)

theorem execPaddedSize_keeps {s : State} (h : s.Inv) (size : U32) (bsz : U16) :
    KeepsInv (execPaddedSize size bsz s) := by
  refine h.command ?_
  split
  · exact keepsInv_next.2 (h.progFault (by simp))
  · exact keepsInv_next.2 (h.returns _)

theorem execEncodeVgetContig_keeps {s : State} (h : s.Inv) (addr chunk : U32) (count : Byte) :
    KeepsInv (execEncodeVgetContig addr chunk count s) := by
  refine h.command ?_
  rw [keepsInv_next]
  split
  · exact buildVget_inv h _
  · exact h.progFault (by simp)

theorem execTransactGet_keeps {s : State} (h : s.Inv) (addr size : U32) :
    KeepsInv (execTransactGet addr size s) := by
  refine h.command ?_
  exact transact_keeps (buildGet_inv h addr size) _ _

theorem execTransactVget_keeps {s : State} (h : s.Inv) (slots : List (U32 × U32)) :
    KeepsInv (execTransactVget slots s) := by
  refine h.command ?_
  exact transact_keeps (buildVget_inv h slots) _ _

theorem execReadExact_keeps {s : State} (h : s.Inv) (b : BlockSize) :
    KeepsInv (execReadExact b s) := by
  obtain ⟨es, ds, hf⟩ := readExact_spec (blockBytes b) s
  exact h.command (keepsInv_next.2 ((hf.inv h (blockBytes_le b)).returns _))

/-- Every instruction answers a next state, and keeps the invariant. -/
theorem exec_keeps {s : State} (h : s.Inv) (i : Instr) : KeepsInv (exec i s) := by
  cases i with
  | encodeVget slots => exact h.command_next (buildVget_inv h slots)
  | encodeVgetContig addr chunk count =>
    exact execEncodeVgetContig_keeps h addr chunk count
  | encodeGet addr size => exact h.command_next (buildGet_inv h addr size)
  | encodeIovm flen prog => exact h.command_next (buildIovm_inv h flen prog)
  | decodeFrame bytes => exact h.command_next (examine_inv h bytes)
  | paddedSize size bsz => exact execPaddedSize_keeps h size bsz
  | readFrame => exact execReadFrame_keeps h
  | writeFrame => exact h.command (writeFrame_keeps h)
  | readResponse e bsz => exact h.command (readResponse_keeps h e bsz)
  | readResult off cnt => exact execReadResult_keeps h off cnt
  | readStatus => exact keepsInv_next.2 (h.returns _)
  | transactGet addr size => exact execTransactGet_keeps h addr size
  | transactVget slots => exact execTransactVget_keeps h slots
  | readExact b => exact execReadExact_keeps h b
  | getWireFrame space flags pre size addr post =>
    exact h.command_next (f := examine _) (examine_inv h _)
  | vgetWireFrame space flags pre slots =>
    exact h.command_next (f := examine _) (examine_inv h _)
  | iovmWireFrame op space flags prog tail =>
    exact h.command_next (f := examine _) (examine_inv h _)

/-! Steps. -/

/-- A command record keeps the invariant, or is no record (log entry 17). -/
theorem runCommand_keeps {s : State} (h : s.Inv) (record : List Byte) :
    KeepsInv (runCommand record s) ∨ runCommand record s = .refused .malformedRecord := by
  unfold runCommand
  split
  · exact .inl (exec_keeps h _)
  · exact .inl (h.command_next (h.progFault (by simp)))
  · exact .inr rfl

theorem runFrame_keeps {s : State} (h : s.Inv) (bytes : List Byte) :
    KeepsInv (runFrame bytes s) ∨ runFrame bytes s = .refused .malformedRecord := by
  unfold runFrame
  split
  · exact .inl (exec_keeps h _)
  · split
    · exact .inl (exec_keeps h _)
    · exact .inr rfl

theorem runInput_keeps {s : State} (h : s.Inv) (i : HostInput) :
    KeepsInv (runInput i s) ∨ runInput i s = .refused .malformedRecord := by
  cases i with
  | command record => exact runCommand_keeps h record
  | frame bytes => exact runFrame_keeps h bytes
  | reset => exact .inl (keepsInv_next.2 h.hardReset)
  | cutCommand record calls =>
    rcases runCommand_keeps h record with ⟨t, ht, -⟩ | hr
    · exact .inl ⟨s.cutBy t calls, by simp only [runInput, ht], h.cutBy t calls⟩
    · exact .inr (by simp only [runInput, hr])

/-- What a step can answer from a state that meets the invariant: a next state that meets it, or
the refusal of an input that is no command; never a model fault. -/
theorem step_keeps {s : State} (h : s.Inv) :
    KeepsInv (step s) ∨ step s = .refused .malformedRecord := by
  unfold step runNext
  split
  · exact .inl (keepsInv_next.2 h)
  · exact runInput_keeps (h.withInbox _) _

/-- Settles O56, by the one lemma on what a step answers. -/
theorem stepKeepsTheInvariant : Obligations.StepKeepsTheInvariant := by
  intro s t h hstep
  rcases step_keeps h with hk | hr
  · rwa [hstep, keepsInv_next] at hk
  · rw [hstep] at hr
    cases hr

/-- Settles O58: a step answers a next state or refuses. -/
theorem noStepReadsAMissingByte : Obligations.NoStepReadsAMissingByte := by
  intro s f h hstep
  rcases step_keeps h with ⟨t, ht, -⟩ | hr
  · rw [hstep] at ht
    cases ht
  · rw [hstep] at hr
    cases hr

end Sys2Proof.Machine
end

section
/-! PROOFS. How a response ends (rules R140 to R142, R171): one lemma on the data blocks, one on
the whole of `READ_RESPONSE`, for every stream. -/

namespace Sys2Proof.Machine

/-! The data blocks. -/

/-- The last read timed out, and every read before it brought bytes. -/
def timedOut (es : List Event) : Prop :=
  ∃ pre m, es = pre ++ [.read m [] .ok] ∧ delivering pre

/-- The last read failed, and every read before it brought bytes. -/
def readFailed (es : List Event) : Prop :=
  ∃ pre m bytes, es = pre ++ [.read m bytes .error] ∧ delivering pre

/-- The ends of a response whose data blocks, from `s` on, recorded `data` (rules R141, R142):
complete, complete with the warning, the mismatch as an error, too short, or a failed read; `tail`
is what the end itself records. -/
def DataOutcome (e : U32) (b p : Nat) (s t : State) (data tail : List Event) : Prop :=
  (t.st = .complete ∧ delivering data ∧ t.alen = bytesRead data ∧ t.alen = p ∧
    t.err = s.err ∧ t.rlen = e ∧ t.warn = s.warn ∧ tail = [.complete e]) ∨
  (t.st = .complete ∧ timedOut data ∧ t.alen = bytesRead data ∧ e.toNat ≤ t.alen ∧ t.alen < p ∧
    s.cfg.mismatchIsError = false ∧ t.err = s.err ∧ t.rlen = e ∧ t.warn = true ∧
    tail = [.mismatch t.alen p, .complete e]) ∨
  (t.st = .failed ∧ t.err = .mismatch ∧ timedOut data ∧ t.alen = bytesRead data ∧
    e.toNat ≤ t.alen ∧ t.alen < p ∧ s.cfg.mismatchIsError = true ∧ t.rlen = s.rlen ∧
    t.warn = true ∧ tail = [.mismatch t.alen p, .fail .mismatch]) ∨
  (t.st = .failed ∧ t.err = .shortResponse ∧ timedOut data ∧ t.alen = bytesRead data ∧
    t.alen < e.toNat ∧ t.rlen = s.rlen ∧ t.warn = s.warn ∧ tail = [.fail .shortResponse]) ∨
  (t.st = .failed ∧ t.err = .readError ∧ readFailed data ∧ bytesRead data < p ∧
    t.alen = bytesRead data / b * b ∧ t.rlen = s.rlen ∧ t.warn = s.warn ∧
    tail = [.fail .readError])

theorem DataOutcome.st {e : U32} {b p : Nat} {s t : State} {data tail : List Event}
    (h : DataOutcome e b p s t data tail) : t.st = .complete ∨ t.st = .failed := by
  rcases h with ⟨h, -⟩ | ⟨h, -⟩ | ⟨h, -⟩ | ⟨h, -⟩ | ⟨h, -⟩
  · exact .inl h
  · exact .inl h
  · exact .inr h
  · exact .inr h
  · exact .inr h

/-- `t` is `s` with the request ended: nothing changed but `STATE`, which is returned, `RLEN`,
`ERR`, `WARN` and the history (rules R142, R171). -/
def State.EndsAs (s t : State) : Prop :=
  t = { s with
    st := t.st, rlen := t.rlen, err := t.err, warn := t.warn, hist := t.hist,
    out := some (.phase t.st) }

theorem State.endsAs_fail (s : State) (c : ErrCode) : s.EndsAs (s.fail c) := rfl

theorem State.endsAs_finishResponse (e : U32) (p : Nat) (s : State) :
    s.EndsAs (finishResponse e p s) := by
  rcases finishResponse_cases e p s with ⟨-, h⟩ | ⟨-, -, h⟩ | ⟨-, -, -, h⟩ | ⟨-, -, -, h⟩ <;>
    rw [h] <;> rfl

/-- How the data blocks and the end of a response went from `s` to `t`. -/
structure DataReceived (e : U32) (b p : Nat) (s t : State) (data tail : List Event) : Prop where
  frame : t = { s with
    st := t.st, blk := t.blk, bfill := t.bfill, acc := t.acc, alen := t.alen, rlen := t.rlen,
    err := t.err, warn := t.warn, hist := t.hist, stream := t.stream, out := some (.phase t.st) }
  hist : t.hist = s.hist ++ data ++ tail
  gave : s.stream.gave data
  calls : ∀ x ∈ data, blockRead b x
  asks : asksMissing b data
  bound : t.alen ≤ p
  held : ∀ a, a < t.alen → t.acc.read a = (received data)[a]?
  outcome : DataOutcome e b p s t data tail

/-- An end of the request keeps what the data loop collected in `ACC`. -/
theorem Collected.received_of_end {e : U32} {b p : Nat} {s u t : State} {x : Assembly}
    {data tail : List Event} {ds part : List Byte} (hc : Collected b p s x u data ds)
    (ha : s.alen = 0) (hds : received data = ds ++ part) (hend : u.EndsAs t)
    (htail : t.hist = u.hist ++ tail) (ho : DataOutcome e b p s t data tail) :
    DataReceived e b p s t data tail where
  frame := by
    rw [hend, hc.frame]
  hist := by rw [htail, hc.hist]
  gave := hc.gave
  calls := hc.calls
  asks := hc.asks
  bound := by
    rw [hend]
    exact hc.bound
  held := by
    have hfill := hc.fill
    rw [hend]
    intro a hlt
    have hlt : a < u.alen := hlt
    show u.acc.read a = _
    rw [hc.read a, ha, if_pos (by omega), hds, List.getElem?_append_left (by omega), Nat.sub_zero]
  outcome := ho

/-- An assembly that ended without a read error ends the request by its byte count (rule R142). -/
theorem Collected.finish_outcome {e : U32} {b p : Nat} {s u : State} {data : List Event}
    {ds : List Byte} (hc : Collected b p s .ended u data ds) (ha : s.alen = 0) (he : e.toNat ≤ p) :
    ∃ tail, (finishResponse e p u).hist = u.hist ++ tail ∧
      DataOutcome e b p s (finishResponse e p u) data tail := by
  obtain ⟨hgot, hend⟩ := hc.outcome
  have hlen : u.alen = bytesRead data := by rw [hc.fill, ha, bytesRead, hgot, Nat.zero_add]
  have hcfg : u.cfg = s.cfg := by rw [hc.frame]
  have herr : u.err = s.err := by rw [hc.frame]
  have hrlen : u.rlen = s.rlen := by rw [hc.frame]
  have hwarn : u.warn = s.warn := by rw [hc.frame]
  have stopped : u.alen ≠ p → u.alen < p ∧ timedOut data := fun hne =>
    hend.resolve_left fun h => hne h.1
  rcases finishResponse_cases e p u with ⟨hlt, h⟩ | ⟨-, heq, h⟩ | ⟨hle, hne, hcfg', h⟩ |
    ⟨hle, hne, hcfg', h⟩ <;> rw [h]
  · obtain ⟨-, hto⟩ := stopped (by omega)
    exact ⟨[.fail .shortResponse], rfl,
      .inr (.inr (.inr (.inl ⟨rfl, rfl, hto, hlen, hlt, hrlen, hwarn, rfl⟩)))⟩
  · have hdel : delivering data := (hend.resolve_right fun h => by omega).2
    exact ⟨[.complete e], rfl, .inl ⟨rfl, hdel, hlen, heq, herr, rfl, hwarn, rfl⟩⟩
  · obtain ⟨hlt, hto⟩ := stopped hne
    exact ⟨[.mismatch u.alen p, .fail .mismatch], by simp,
      .inr (.inr (.inl ⟨rfl, rfl, hto, hlen, hle, hlt, hcfg ▸ hcfg', hrlen, rfl, rfl⟩))⟩
  · obtain ⟨hlt, hto⟩ := stopped hne
    exact ⟨[.mismatch u.alen p, .complete e], by simp [completeRequest],
      .inr (.inl ⟨rfl, hto, hlen, hle, hlt, hcfg ▸ hcfg', herr, rfl, rfl, rfl⟩)⟩

/-- A failed read keeps the whole blocks before it (rule R144). -/
theorem Collected.readError_outcome {e : U32} {b p : Nat} {s u : State} {data : List Event}
    {ds part : List Byte} (hc : Collected b p s .readFailed u data ds) (ha : s.alen = 0)
    (hb : 0 < b) (hds : received data = ds ++ part) (hpart : part.length < b) :
    DataOutcome e b p s (u.fail .readError) data [.fail .readError] := by
  obtain ⟨⟨q, hq⟩, hfit, -, hfailed⟩ := hc.outcome
  have hgot : bytesRead data = b * q + part.length := by
    rw [bytesRead, hds, List.length_append, hq]
  have hlen : u.alen = bytesRead data / b * b := by
    rw [hc.fill, ha, hgot, Nat.mul_add_div hb, Nat.div_eq_of_lt hpart, hq, Nat.zero_add,
      Nat.add_zero, Nat.mul_comm]
  have hrlen : u.rlen = s.rlen := by rw [hc.frame]
  have hwarn : u.warn = s.warn := by rw [hc.frame]
  exact .inr (.inr (.inr (.inr ⟨rfl, rfl, hfailed, by omega, hlen, hrlen, hwarn, rfl⟩)))

/-- The data blocks and the end of a response (rules R141, R142). -/
theorem receiveData_received {e : U32} {b : BlockSize} {p : Nat} {s : State} (ha : s.alen = 0)
    (hp : blockBytes b ∣ p) (he : e.toNat ≤ p) :
    ∃ t data tail, receiveData e (blockBytes b) p s = .next t ∧
      DataReceived e (blockBytes b) p s t data tail := by
  obtain ⟨x, u, data, ds, -, hc, hr⟩ := receiveData_spec e b p s ha hp
  cases x with
  | readFailed =>
    obtain ⟨-, -, ⟨part, hds, hpart⟩, -⟩ := hc.outcome
    exact ⟨_, data, _, hr, hc.received_of_end ha hds (u.endsAs_fail _) rfl
      (hc.readError_outcome ha (blockBytes_pos b) hds hpart)⟩
  | ended =>
    obtain ⟨tail, htail, ho⟩ := hc.finish_outcome ha he
    exact ⟨_, data, tail, hr, hc.received_of_end (part := []) ha
      (hc.outcome.1.trans (List.append_nil ds).symm) (u.endsAs_finishResponse e p) htail ho⟩

/-! The whole response. -/

/-- The ends of a response: those of the data blocks, after the full ack block of a GET, and the
two of an ack block cut short (rule R140). -/
def ResponseOutcome (e : U32) (b p : Nat) (s t : State) (ack data tail : List Event) : Prop :=
  ((s.st = .awaitingAck → delivering ack ∧ bytesRead ack = b) ∧
    DataOutcome e b p s t data tail) ∨
  (s.st = .awaitingAck ∧ data = [] ∧ bytesRead ack < b ∧ t.st = .failed ∧ t.alen = 0 ∧
    t.rlen = s.rlen ∧ t.warn = s.warn ∧ tail = [.fail t.err] ∧
    ((t.err = .ackTimeout ∧ timedOut ack ∧ t.bfill = bytesRead ack) ∨
      (t.err = .readError ∧ readFailed ack)))

theorem ResponseOutcome.st {e : U32} {b p : Nat} {s t : State} {ack data tail : List Event}
    (h : ResponseOutcome e b p s t ack data tail) : t.st = .complete ∨ t.st = .failed := by
  rcases h with ⟨-, h⟩ | ⟨-, -, -, h, -⟩
  · exact h.st
  · exact .inr h

/-- How `READ_RESPONSE` past its checks went from `s` to `t`: the reads `ack` of the ack block,
the reads `data` of the data blocks, and the events `tail` of its end. -/
structure Responded (e : U32) (b p : Nat) (s t : State) (ack data tail : List Event) : Prop where
  frame : t = { s.openResponse e b p with
    st := t.st, blk := t.blk, bfill := t.bfill, acc := t.acc, alen := t.alen, rlen := t.rlen,
    err := t.err, warn := t.warn, hist := t.hist, stream := t.stream, out := some (.phase t.st) }
  hist : t.hist = s.hist ++ (ack ++ data) ++ tail
  gave : s.stream.gave (ack ++ data)
  calls : ∀ x ∈ ack ++ data, blockRead b x
  asksAck : asksMissing b ack
  asksData : asksMissing b data
  bound : t.alen ≤ p
  held : ∀ a, a < t.alen → t.acc.read a = (received data)[a]?
  vget : s.st = .receivingBlocks → ack = []
  outcome : ResponseOutcome e b p s t ack data tail

/-- The response of a VGET has no ack block. -/
theorem DataReceived.responded {e : U32} {b p : Nat} {s t : State} {data tail : List Event}
    (h : DataReceived e b p (s.openResponse e b p) t data tail) (hst : s.st ≠ .awaitingAck) :
    Responded e b p s t [] data tail :=
  { h with
    asksAck := asksMissing_nil b
    asksData := h.asks
    vget := fun _ => rfl
    outcome := .inl ⟨fun hack => absurd hack hst, h.outcome⟩ }

/-- The data blocks of a GET after its full ack block. -/
theorem Filled.responded_full {e : U32} {b p : Nat} {s u t : State} {ack data tail : List Event}
    {ds : List Byte} (hf : Filled b { s.openResponse e b p with bfill := 0 } .full u ack ds)
    (hst : s.st = .awaitingAck)
    (h : DataReceived e b p { u with st := .receivingBlocks } t data tail) :
    Responded e b p s t ack data tail := by
  obtain ⟨hfull, hdel⟩ := hf.outcome
  have hack : bytesRead ack = b := by
    rw [bytesRead, hf.got, ← hfull, hf.fill]
    exact (Nat.zero_add _).symm
  have hcfg : u.cfg = s.cfg := by rw [hf.frame]; rfl
  have herr : u.err = s.err := by rw [hf.frame]; rfl
  have hrlen : u.rlen = s.rlen := by rw [hf.frame]; rfl
  have hwarn : u.warn = s.warn := by rw [hf.frame]; rfl
  refine ⟨?_, ?_, ?_, ?_, hf.asksMissing, h.asks, h.bound, h.held, fun hv => ?_,
    .inl ⟨fun _ => ⟨hdel, hack⟩, ?_⟩⟩
  · rw [h.frame, hf.frame]
  · rw [h.hist, ← List.append_assoc]
    exact congrArg (· ++ data ++ tail) hf.hist
  · refine (Stream.gave_append _ _ _).2 ⟨hf.gave, ?_⟩
    have := h.gave
    rwa [show ({ u with st := .receivingBlocks } : State).stream = _ from hf.stream] at this
  · exact List.forall_mem_append.2 ⟨hf.calls, h.calls⟩
  · rw [hst] at hv
    cases hv
  · have := h.outcome
    simp only [DataOutcome, hcfg, herr, hrlen, hwarn] at this
    exact this

/-- An ack block cut short fails the request before any data (rules R140, R171). -/
theorem Filled.responded_cut {e : U32} {b p : Nat} {s u : State} {r : ExactOutcome}
    {ack : List Event} {ds : List Byte} {c : ErrCode}
    (hf : Filled b { s.openResponse e b p with bfill := 0 } r u ack ds) (hst : s.st = .awaitingAck)
    (hlt : u.bfill < b)
    (hc : (c = .ackTimeout ∧ timedOut ack) ∨ (c = .readError ∧ readFailed ack)) :
    Responded e b p s (u.fail c) ack [] [.fail c] := by
  have hfill : u.bfill = bytesRead ack := by
    rw [bytesRead, hf.got, hf.fill]
    exact Nat.zero_add _
  have halen : u.alen = 0 := by rw [hf.frame]; rfl
  have hrlen : u.rlen = s.rlen := by rw [hf.frame]; rfl
  have hwarn : u.warn = s.warn := by rw [hf.frame]; rfl
  refine ⟨?_, ?_, ?_, ?_, hf.asksMissing, asksMissing_nil b, ?_, fun a ha => ?_, fun hv => ?_,
    .inr ⟨hst, rfl, by omega, rfl, halen, hrlen, hwarn, rfl, ?_⟩⟩
  · rw [u.endsAs_fail c, hf.frame]
  · rw [State.fail_hist, hf.hist, List.append_nil]
    rfl
  · rw [List.append_nil]
    exact hf.gave
  · rw [List.append_nil]
    exact hf.calls
  · exact halen.trans_le (Nat.zero_le p)
  · exact absurd (halen ▸ ha) (Nat.not_lt_zero a)
  · rw [hst] at hv
    cases hv
  · exact hc.imp (fun h => ⟨h.1, h.2, hfill⟩) id

/-- The ack block of a GET and the rest of its response (rules R140 to R142). -/
theorem receiveAck_responds {s : State} {e : U32} {b : BlockSize} {p : Nat}
    (hst : s.st = .awaitingAck) (hdvd : blockBytes b ∣ p) (hle : e.toNat ≤ p) :
    ∃ t ack data tail,
      receiveAck e (blockBytes b) p (s.openResponse e (blockBytes b) p) = .next t ∧
        Responded e (blockBytes b) p s t ack data tail := by
  obtain ⟨ack, ds, hf, hr⟩ := receiveAck_spec e (blockBytes b) p (s.openResponse e (blockBytes b) p)
  rcases hru : readExact (blockBytes b) (s.openResponse e (blockBytes b) p) with ⟨r, u⟩
  rw [hru] at hf hr
  dsimp only at hf hr
  rw [hr]
  cases r with
  | full =>
    have halen : u.alen = 0 := by rw [hf.frame]; rfl
    obtain ⟨t, data, tail, hr, hd⟩ := receiveData_received (e := e) (b := b)
      (s := { u with st := .receivingBlocks }) halen hdvd hle
    exact ⟨t, ack, data, tail, hr, hf.responded_full hst hd⟩
  | timeout =>
    obtain ⟨hlt, pre, hack, hpre⟩ := hf.outcome
    exact ⟨_, ack, [], _, rfl, hf.responded_cut hst hlt (.inl ⟨rfl, pre, _, hack, hpre⟩)⟩
  | readErr =>
    obtain ⟨hlt, pre, bytes, hack, hpre⟩ := hf.outcome
    exact ⟨_, ack, [], _, rfl, hf.responded_cut hst hlt (.inr ⟨rfl, pre, _, bytes, hack, hpre⟩)⟩

/-- `READ_RESPONSE` past its checks, on any stream (rules R140 to R142). -/
theorem readResponse_responds {s : State} {e : U32} {bsz : U16} {b : BlockSize}
    (hpend : s.st.pending = true) (hb : blockSize bsz = some b) (he : 1 ≤ e.toNat)
    (hcap : paddedSize e.toNat (blockBytes b) ≤ s.cfg.accCap) :
    ∃ t ack data tail, readResponse e bsz s = .next t ∧
      Responded e (blockBytes b) (paddedSize e.toNat (blockBytes b)) s t ack data tail := by
  have hdvd := paddedSize_dvd e.toNat (blockBytes b)
  have hle := le_paddedSize e.toNat (blockBytes b) (blockBytes_pos b)
  rw [readResponse_runs hpend hb he hcap]
  dsimp only
  split
  · exact receiveAck_responds ‹_› hdvd hle
  · rename_i hst
    obtain ⟨t, data, tail, hr, hd⟩ := receiveData_received (e := e) (b := b)
      (s := s.openResponse e (blockBytes b) (paddedSize e.toNat (blockBytes b))) rfl hdvd hle
    exact ⟨t, [], data, tail, hr, hd.responded hst⟩

/-- Settles O40, by the one lemma on `READ_RESPONSE` past its checks. -/
theorem readResponseOutcomes : Obligations.ReadResponseOutcomes := by
  intro s e bsz hperr hst hbsz he hcap
  obtain ⟨b, hb⟩ : ∃ b, bsz.toNat = blockBytes b := hbsz.elim (⟨.b64, ·⟩) (⟨.b512, ·⟩)
  rw [hb] at hcap ⊢
  obtain ⟨t, ack, data, tail, hr, h⟩ := readResponse_responds ((Phase.pending_iff _).2 hst)
    (blockSize_blockBytes b hb) he hcap
  have hexec : exec (.readResponse e bsz) s = .next t := (State.command_run hperr _).trans hr
  have hreqE : t.reqE = e := by rw [h.frame]; rfl
  have hreqB : t.reqB = blockBytes b := by rw [h.frame]; rfl
  have hreqP : t.reqP.toNat = paddedSize e.toNat (blockBytes b) := by
    rw [h.frame]
    exact paddedSize_fits e b
  have hperr' : t.perr = false := by rw [h.frame]; exact hperr
  have hout : t.out = some (.phase t.st) := by rw [h.frame]
  refine ⟨t, ack, data, tail, hexec, h.hist, h.gave, h.calls, h.asksAck, h.asksData, h.bound,
    h.held, hreqE, hreqB, hreqP, hperr', hout, h.vget, ?_⟩
  rcases h.outcome with ⟨hack, ho⟩ | ⟨hget, hdata, hlt, hend, halen, hrlen, hwarn, htail, ho⟩
  · rcases ho with ⟨hend, ho⟩ | ⟨hend, ho⟩ | ⟨hend, herr, ho⟩ | ⟨hend, herr, ho⟩ |
      ⟨hend, herr, hfail, hlt, halen, ho⟩
    · exact .inl ⟨hend, hack, ho⟩
    · exact .inr (.inl ⟨hend, hack, ho⟩)
    · exact .inr (.inr (.inl ⟨hend, herr, hack, ho⟩))
    · exact .inr (.inr (.inr (.inl ⟨hend, herr, hack, ho⟩)))
    · exact .inr (.inr (.inr (.inr (.inr
        ⟨hend, herr, .inr ⟨hack, hfail, hlt, halen⟩, ho⟩))))
  · rcases ho with ⟨herr, hto, hfill⟩ | ⟨herr, hfail⟩ <;> rw [herr] at htail
    · exact .inr (.inr (.inr (.inr (.inl
        ⟨hend, herr, hget, hto, hdata, hlt, hfill, halen, hrlen, hwarn, htail⟩))))
    · exact .inr (.inr (.inr (.inr (.inr
        ⟨hend, herr, .inl ⟨hget, hfail, hdata, hlt, halen⟩, hrlen, hwarn, htail⟩))))

end Sys2Proof.Machine
end

section
/-! PROOFS. `WRITE_FRAME` by the stream's answer (rule R130), and what any instruction can answer,
said once: from it, what every instruction does to the history, to its surroundings and to `STATE`
(rules R23, R36, R37). -/

namespace Sys2Proof.Machine

/-! `WRITE_FRAME` and its failures. -/

/-- The state right after the one stream call of `WRITE_FRAME` (rule R130). -/
def State.sent (s : State) (bs : List Byte) : State :=
  (State.streamWrite { s with fvalid := false } bs).2

/-- The ends of a sent request, by the stream's answer (rule R130). -/
theorem sendFrame_cases (op : Byte) (bs : List Byte) (s : State) :
    ((s.stream.write bs.length).1.err = .error ∧
      sendFrame op bs s = (s.sent bs).fail .writeError) ∨
    ((s.stream.write bs.length).1.err = .ok ∧ (s.stream.write bs.length).1.n < s.flen ∧
      sendFrame op bs s = (s.sent bs).fail .shortWrite) ∨
    ((s.stream.write bs.length).1.err = .ok ∧ s.flen ≤ (s.stream.write bs.length).1.n ∧
      sendFrame op bs s = State.returnsPhase
        { s.sent bs with st := if op = s.cfg.opGet then .awaitingAck else .receivingBlocks }) := by
  rw [sendFrame_eq]
  dsimp only
  cases herr : (s.stream.write bs.length).1.err with
  | error => exact .inl ⟨rfl, by rw [if_pos (by simp), State.sent, ← herr]; rfl⟩
  | ok =>
    rw [if_neg (by simp)]
    split
    · exact .inr (.inl ⟨rfl, ‹_›, by rw [State.sent, ← herr]; rfl⟩)
    · exact .inr (.inr ⟨rfl, by omega, by rw [State.sent, ← herr]; rfl⟩)

/-- A request that fails on its one stream call, field by field (rules R130, R171). -/
theorem State.sent_fail {s : State} {bs : List Byte} {n : Nat} {err : IoStatus} (c : ErrCode)
    (h : (s.stream.write bs.length).1 = { n := n, err := err }) :
    (s.sent bs).fail c = { s with
      err := c, fvalid := false, st := .failed, stream := (s.stream.write bs.length).2
      hist := s.hist ++ [.write bs n err, .fail c], out := some (.phase .failed) } := by
  have hhist : (s.sent bs).hist = s.hist ++ [.write bs n err] := by
    show s.hist ++ [Event.write bs (s.stream.write bs.length).1.n
      (s.stream.write bs.length).1.err] = _
    rw [h]
  rw [(s.sent bs).endsAs_fail c, State.fail_hist, hhist, List.append_assoc]
  rfl

/-- Settles O31: a sendable frame is sent, and a failing answer fails the request. -/
theorem writeFrameFailures : Obligations.WriteFrameFailures := by
  intro s op bs n err hperr hack hblocks hv hle hge hl hframe h4 hop hans
  have hpend : s.st.pending = false := by
    rw [Bool.eq_false_iff, ne_eq, Phase.pending_iff]
    exact not_or.2 ⟨hack, hblocks⟩
  have hread : s.memRead .frame 0 s.flen = .ok bs :=
    (State.memRead_ok_iff _ _ _ _ _).2
      ⟨by simpa [State.bufferSize] using hle, hl, fun i hi =>
        (Nat.zero_add i).symm ▸ hframe i hi⟩
  have hexec : exec .writeFrame s = .next (sendFrame op bs (s.openRequest op)) :=
    (State.command_run hperr _).trans
      (writeFrame_sends hpend hv hge hread (by simp [byteAt, h4]) hop)
  have hans' : ((s.openRequest op).stream.write bs.length).1 = { n := n, err := err } := hl ▸ hans
  rw [hexec]
  rcases sendFrame_cases op bs (s.openRequest op) with ⟨herr, hs⟩ | ⟨herr, hn, hs⟩ |
    ⟨herr, hn, hs⟩ <;> rw [hans'] at herr <;> rw [hs]
  · refine ⟨fun h => ?_, fun h => ?_⟩
    · rw [State.sent_fail .writeError hans', hl, h]
      rfl
    · rw [h] at herr
      cases herr
  · refine ⟨fun h => ?_, fun h _ => ?_⟩
    · rw [h] at herr
      cases herr
    · rw [State.sent_fail .shortWrite hans', hl, h]
      rfl
  · rw [hans'] at hn
    refine ⟨fun h => ?_, fun _ hlt => absurd hlt (Nat.not_lt.2 hn)⟩
    rw [h] at herr
    cases herr

/-! What an instruction can answer. -/

/-- `t` is `s` after something that is no part of the block transport: only the frame, fault and
decode registers and the returned result changed, and events may have been appended. -/
structure OffTransport (s t : State) : Prop where
  frame : t = { s with
    frame := t.frame, flen := t.flen, fvalid := t.fvalid, perr := t.perr, pcause := t.pcause
    dec := t.dec, hist := t.hist, out := t.out }
  hist : ∃ es, t.hist = s.hist ++ es

theorem offTransport_returns (s : State) (r : Result) : OffTransport s (s.returns r) :=
  ⟨rfl, [], by simp⟩

theorem offTransport_returnsNothing (s : State) : OffTransport s s.returnsNothing :=
  ⟨rfl, [], by simp⟩

theorem offTransport_progFault (s : State) (c : ProgCause) : OffTransport s (s.progFault c) :=
  ⟨rfl, _, rfl⟩

theorem offTransport_loadFrame (s : State) (bs : List Byte) : OffTransport s (s.loadFrame bs) :=
  ⟨rfl, [], by simp⟩

theorem offTransport_examine (s : State) (bs : List Byte) : OffTransport s (examine bs s) :=
  ⟨rfl, [], by simp [examine]⟩

theorem offTransport_buildVget (slots : List (U32 × U32)) (s : State) :
    OffTransport s (buildVget slots s) := by
  unfold buildVget
  split
  · exact offTransport_loadFrame _ _
  · exact offTransport_progFault _ _

theorem offTransport_buildGet (addr size : U32) (s : State) :
    OffTransport s (buildGet addr size s) := by
  unfold buildGet
  split
  · exact offTransport_loadFrame _ _
  · exact offTransport_progFault _ _

theorem offTransport_buildIovm (flen : U16) (prog : List Byte) (s : State) :
    OffTransport s (buildIovm flen prog s) := by
  unfold buildIovm
  split
  · exact offTransport_progFault _ _
  · split
    · exact offTransport_loadFrame _ _
    · exact offTransport_progFault _ _

/-- A command that the gate bars is off the transport (rule R172), so only its body matters. -/
theorem OffTransport.of_command {s t : State} {body : State → Host.Outcome State Fault Refusal}
    (h : s.command body = .next t) (hb : body s = .next t → OffTransport s t) :
    OffTransport s t := by
  rcases State.command_next.1 h with ⟨-, rfl⟩ | ⟨-, h⟩
  · exact offTransport_returnsNothing s
  · exact hb h

theorem OffTransport.of_command_next {s t : State} {f : State → State}
    (h : (s.command fun s => .next (f s)) = .next t) (hf : OffTransport s (f s)) :
    OffTransport s t :=
  .of_command h fun h => by
    cases h
    exact hf

theorem offTransport_encodeVgetContig {s t : State} {addr chunk : U32} {count : Byte}
    (h : execEncodeVgetContig addr chunk count s = .next t) : OffTransport s t := by
  refine .of_command_next h ?_
  split
  · exact offTransport_buildVget _ _
  · exact offTransport_progFault _ _

theorem offTransport_paddedSize {s t : State} {size : U32} {bsz : U16}
    (h : execPaddedSize size bsz s = .next t) : OffTransport s t := by
  refine .of_command h fun h => ?_
  split at h <;> cases h
  · exact offTransport_progFault _ _
  · exact offTransport_returns _ _

theorem offTransport_readFrame {s t : State} (h : execReadFrame s = .next t) :
    OffTransport s t := by
  refine .of_command h fun h => ?_
  split at h
  · split at h <;> cases h
    exact offTransport_returns _ _
  · cases h
    exact offTransport_progFault _ _

theorem offTransport_readResult {s t : State} {off cnt : U32}
    (h : execReadResult off cnt s = .next t) : OffTransport s t := by
  refine .of_command h fun h => ?_
  split at h
  · cases h
    exact offTransport_progFault _ _
  · split at h
    · cases h
      exact offTransport_progFault _ _
    · split at h <;> cases h
      exact offTransport_returns _ _

/-- A transaction, barred or run after its encode (rules R94, R155, R156). -/
theorem transaction_next {s t : State} {e : U32} {bsz : U16} {build : State → State}
    (h : (s.command fun s => transact e bsz (build s)) = .next t)
    (hb : OffTransport s (build s)) :
    OffTransport s t ∨ ∃ u, OffTransport s u ∧ transact e bsz u = .next t := by
  rcases State.command_next.1 h with ⟨-, rfl⟩ | ⟨-, h⟩
  · exact .inl (offTransport_returnsNothing s)
  · exact .inr ⟨_, hb, h⟩

/-- The ways an instruction answers `t` from `s`: off the transport, or as one of the five
instructions of the block transport past the gate. -/
inductive Answers (s t : State) : Instr → Prop
  | offTransport {i : Instr} (h : OffTransport s t) : Answers s t i
  | writeFrame (h : writeFrame s = .next t) : Answers s t .writeFrame
  | readResponse {e : U32} {bsz : U16} (h : readResponse e bsz s = .next t) :
      Answers s t (.readResponse e bsz)
  | readExact {b : BlockSize}
      (h : t = (readExact (blockBytes b) s).2.returns (.exact (readExact (blockBytes b) s).1)) :
      Answers s t (.readExact b)
  | transact {i : Instr} {u : State} {e : U32} {bsz : U16}
      (hi : (∃ a n, i = .transactGet a n) ∨ ∃ slots, i = .transactVget slots)
      (hu : OffTransport s u) (h : transact e bsz u = .next t) : Answers s t i

theorem answers_of_exec {s t : State} {i : Instr} (h : exec i s = .next t) : Answers s t i := by
  have gated : ∀ {body : State → Host.Outcome State Fault Refusal}, s.command body = .next t →
      (body s = .next t → Answers s t i) → Answers s t i := fun h hb =>
    (State.command_next.1 h).elim
      (fun hg => .offTransport (hg.2 ▸ offTransport_returnsNothing s)) fun hr => hb hr.2
  cases i with
  | encodeVget slots => exact .offTransport (.of_command_next h (offTransport_buildVget slots s))
  | encodeVgetContig addr chunk count => exact .offTransport (offTransport_encodeVgetContig h)
  | encodeGet addr size =>
    exact .offTransport (.of_command_next h (offTransport_buildGet addr size s))
  | encodeIovm flen prog =>
    exact .offTransport (.of_command_next h (offTransport_buildIovm flen prog s))
  | decodeFrame bytes => exact .offTransport (.of_command_next h (offTransport_examine s bytes))
  | paddedSize size bsz => exact .offTransport (offTransport_paddedSize h)
  | readFrame => exact .offTransport (offTransport_readFrame h)
  | writeFrame => exact gated h .writeFrame
  | readResponse e bsz => exact gated h .readResponse
  | readResult off cnt => exact .offTransport (offTransport_readResult h)
  | readStatus =>
    cases h
    exact .offTransport (offTransport_returns _ _)
  | transactGet addr size =>
    rcases transaction_next h (offTransport_buildGet addr size s) with ht | ⟨u, hu, ht⟩
    · exact .offTransport ht
    · exact .transact (.inl ⟨addr, size, rfl⟩) hu ht
  | transactVget slots =>
    rcases transaction_next h (offTransport_buildVget slots s) with ht | ⟨u, hu, ht⟩
    · exact .offTransport ht
    · exact .transact (.inr ⟨slots, rfl⟩) hu ht
  | readExact b =>
    refine gated (body := fun s => .next ((readExact (blockBytes b) s).2.returns
      (.exact (readExact (blockBytes b) s).1))) h fun h => .readExact ?_
    cases h
    rfl
  | getWireFrame space flags pre size addr post =>
    exact .offTransport (.of_command_next (f := fun s => examine _ s) h (offTransport_examine s _))
  | vgetWireFrame space flags pre slots =>
    exact .offTransport (.of_command_next (f := fun s => examine _ s) h (offTransport_examine s _))
  | iovmWireFrame op space flags prog tail =>
    exact .offTransport (.of_command_next h (offTransport_examine s _))

/-! The history. -/

/-- Settles O51: the transport records the events of its calls and ends, and nothing else touches
the history but by appending. -/
theorem historyOnlyGrows : Obligations.HistoryOnlyGrows := by
  intro s t i hexec
  cases answers_of_exec hexec with
  | offTransport h => exact h.hist
  | writeFrame h => exact (writeFrame_recorded h).imp fun _ => Recorded.hist
  | readResponse h => exact (readResponse_recorded h).imp fun _ h => h.1.hist
  | @readExact b h =>
    rw [h]
    exact (readExact_recorded (blockBytes b) s).imp fun _ h => h.1.hist
  | transact _ hu h =>
    obtain ⟨es, hes⟩ := hu.hist
    obtain ⟨es', hes'⟩ := transact_recorded h
    exact ⟨es ++ es', by rw [hes'.hist, hes, List.append_assoc]⟩

/-! The surroundings. -/

/-- The configuration and the host's coming inputs are the same (rules R37, R90). -/
def SameSurroundings (s t : State) : Prop := t.cfg = s.cfg ∧ t.inbox = s.inbox

theorem SameSurroundings.trans {s t u : State} (h : SameSurroundings s t)
    (h' : SameSurroundings t u) : SameSurroundings s u :=
  ⟨h'.1.trans h.1, h'.2.trans h.2⟩

theorem OffTransport.sameSurroundings {s t : State} (h : OffTransport s t) :
    SameSurroundings s t := by
  rw [h.frame]
  exact ⟨rfl, rfl⟩

theorem sendFrame_sameSurroundings (op : Byte) (bs : List Byte) (s : State) :
    SameSurroundings s (sendFrame op bs s) := by
  rcases sendFrame_cases op bs s with ⟨-, h⟩ | ⟨-, -, h⟩ | ⟨-, -, h⟩ <;> rw [h] <;>
    exact ⟨rfl, rfl⟩

theorem writeFrame_sameSurroundings {s t : State} (h : writeFrame s = .next t) :
    SameSurroundings s t := by
  have fault := fun c => (offTransport_progFault s c).sameSurroundings
  rcases writeFrame_next h with ⟨-, rfl⟩ | ⟨-, -, rfl⟩ | ⟨-, -, -, -, -, -, rfl⟩ |
    ⟨-, -, op, bs, -, -, -, rfl⟩
  · exact fault _
  · exact fault _
  · exact fault _
  · exact sendFrame_sameSurroundings op bs (s.openRequest op)

/-- The answers of `READ_RESPONSE`: a fault, or the response to a pending request. -/
theorem readResponse_next {e : U32} {bsz : U16} {s t : State} (h : readResponse e bsz s = .next t) :
    (∃ c, t = s.progFault c) ∨
    (s.st.pending = true ∧ ∃ b p ack data tail, Responded e b p s t ack data tail) := by
  rcases readResponse_cases e bsz s with ⟨-, hr⟩ | ⟨-, -, hr⟩ | ⟨-, -, _, -, -, hr⟩ |
    ⟨hpend, he, b, hb, hcap, -⟩
  · exact .inl ⟨_, Host.Outcome.next.inj (h.symm.trans hr)⟩
  · exact .inl ⟨_, Host.Outcome.next.inj (h.symm.trans hr)⟩
  · exact .inl ⟨_, Host.Outcome.next.inj (h.symm.trans hr)⟩
  · obtain ⟨t', ack, data, tail, hr, hresp⟩ := readResponse_responds hpend hb he hcap
    obtain rfl : t = t' := Host.Outcome.next.inj (h.symm.trans hr)
    exact .inr ⟨hpend, _, _, ack, data, tail, hresp⟩

theorem readResponse_sameSurroundings {e : U32} {bsz : U16} {s t : State}
    (h : readResponse e bsz s = .next t) : SameSurroundings s t := by
  rcases readResponse_next h with ⟨c, rfl⟩ | ⟨-, b, p, ack, data, tail, hresp⟩
  · exact (offTransport_progFault s c).sameSurroundings
  · rw [hresp.frame]
    exact ⟨rfl, rfl⟩

theorem readExact_sameSurroundings (b : Nat) (s : State) :
    SameSurroundings s (readExact b s).2 := by
  obtain ⟨es, ds, hf⟩ := readExact_spec b s
  rw [hf.frame]
  exact ⟨rfl, rfl⟩

theorem transact_sameSurroundings {e : U32} {bsz : U16} {s t : State}
    (h : transact e bsz s = .next t) : SameSurroundings s t := by
  rcases transact_next h with ⟨-, rfl⟩ | ⟨-, hw, -⟩ | ⟨-, u, hw, -, -, hr⟩
  · exact ⟨rfl, rfl⟩
  · exact writeFrame_sameSurroundings hw
  · exact (writeFrame_sameSurroundings hw).trans (readResponse_sameSurroundings hr)

/-- Settles O52, by the ways an instruction answers. -/
theorem noInstructionChangesItsSurroundings :
    Obligations.NoInstructionChangesItsSurroundings := by
  intro s t i hexec
  cases answers_of_exec hexec with
  | offTransport h => exact h.sameSurroundings
  | writeFrame h => exact writeFrame_sameSurroundings h
  | readResponse h => exact readResponse_sameSurroundings h
  | @readExact b h =>
    rw [h]
    exact readExact_sameSurroundings (blockBytes b) s
  | transact _ hu h => exact hu.sameSurroundings.trans (transact_sameSurroundings h)

/-! The moves of `STATE`. -/

theorem OffTransport.st {s t : State} (h : OffTransport s t) : t.st = s.st := by rw [h.frame]

/-- Outside a command a request is pending or may be sent (rules R22, R130). -/
theorem Phase.settled {p : Phase} (hpend : p.pending = false) (hw : p ≠ .writing) :
    p ∈ [.idle, .complete, .failed] := by
  cases p <;> simp [Phase.pending] at hpend hw ⊢

theorem sendFrame_st (op : Byte) (bs : List Byte) (s : State) :
    (sendFrame op bs s).st ∈ [.awaitingAck, .receivingBlocks, .failed] := by
  rcases sendFrame_cases op bs s with ⟨-, h⟩ | ⟨-, -, h⟩ | ⟨-, -, h⟩ <;> rw [h]
  · simp
  · simp
  · rw [State.returnsPhase_st]
    dsimp only
    split <;> simp

/-- `WRITE_FRAME` faults, or moves on from a state in which nothing is pending (rule R23). -/
theorem writeFrame_moves {s t : State} (h : writeFrame s = .next t) :
    (t.st = s.st ∧ t.perr = true) ∨
    (s.st.pending = false ∧ t.st ∈ [.awaitingAck, .receivingBlocks, .failed]) := by
  rcases writeFrame_next h with ⟨-, rfl⟩ | ⟨-, -, rfl⟩ | ⟨-, -, -, -, -, -, rfl⟩ |
    ⟨hpend, -, op, bs, -, -, -, rfl⟩
  · exact .inl ⟨rfl, rfl⟩
  · exact .inl ⟨rfl, rfl⟩
  · exact .inl ⟨rfl, rfl⟩
  · exact .inr ⟨hpend, sendFrame_st _ _ _⟩

/-- `READ_RESPONSE` faults, or ends a pending request (rule R23). -/
theorem readResponse_moves {e : U32} {bsz : U16} {s t : State}
    (h : readResponse e bsz s = .next t) :
    t.st = s.st ∨ (s.st.pending = true ∧ t.st ∈ [.complete, .failed]) := by
  rcases readResponse_next h with ⟨c, rfl⟩ | ⟨hpend, b, p, ack, data, tail, hresp⟩
  · exact .inl rfl
  · exact .inr ⟨hpend, by simpa using hresp.outcome.st⟩

/-- A transaction faults before its write, or moves on from a state in which nothing is pending
(rules R23, R94). -/
theorem transact_moves {e : U32} {bsz : U16} {s t : State} (h : transact e bsz s = .next t) :
    t.st = s.st ∨
    (s.st.pending = false ∧ t.st ∈ [.awaitingAck, .receivingBlocks, .complete, .failed]) := by
  rcases transact_next h with ⟨-, rfl⟩ | ⟨-, hw, -⟩ | ⟨-, u, hw, hperr, -, hr⟩
  · exact .inl rfl
  · rcases writeFrame_moves hw with ⟨hst, -⟩ | ⟨hpend, hst⟩
    · exact .inl hst
    · refine .inr ⟨hpend, ?_⟩
      simp only [List.mem_cons] at hst ⊢
      tauto
  · rcases writeFrame_moves hw with ⟨-, hfault⟩ | ⟨hpend, hu⟩
    · rw [hperr] at hfault
      cases hfault
    · refine .inr ⟨hpend, ?_⟩
      rcases readResponse_moves hr with hst | ⟨-, hst⟩
      · rw [hst]
        simp only [List.mem_cons] at hu ⊢
        tauto
      · exact List.mem_cons_of_mem _ (List.mem_cons_of_mem _ hst)

/-- Settles O54, by the moves of the transport's commands; every other instruction leaves
`STATE`. -/
theorem stateMovesOnlyAlongTheTable : Obligations.StateMovesOnlyAlongTheTable := by
  intro s t i hw hexec
  cases answers_of_exec hexec with
  | offTransport h => exact .inl h.st
  | writeFrame h =>
    rcases writeFrame_moves h with ⟨hst, -⟩ | ⟨hpend, hst⟩
    · exact .inl hst
    · exact .inr (.inl ⟨rfl, Phase.settled hpend hw, hst⟩)
  | @readResponse e bsz h =>
    rcases readResponse_moves h with hst | ⟨hpend, hst⟩
    · exact .inl hst
    · exact .inr (.inr (.inl ⟨⟨e, bsz, rfl⟩, by simpa using (Phase.pending_iff _).1 hpend, hst⟩))
  | @readExact b h =>
    obtain ⟨es, ds, hf⟩ := readExact_spec (blockBytes b) s
    refine .inl ?_
    rw [h, State.returns_st, hf.frame]
  | transact hi hu h =>
    rw [← hu.st] at hw ⊢
    exact (transact_moves h).imp_right fun hmove =>
      .inr (.inr ⟨hi, Phase.settled hmove.1 hw, hmove.2⟩)

end Sys2Proof.Machine
end

section
/-! PROOFS. What reset leaves, the words and slices read back, and the fields of a decoded frame
(rules R28, R32, R33, R38, R115). -/

namespace Sys2Proof.Machine

/-! Reset. -/

theorem State.status_resetWith (c : Config) : (State.resetWith c).status = 0x00000000 := by
  show State.reset.status = 0x00000000
  decide

/-- Settles O3: each row of the table is a field of the reset state. -/
theorem resetLeavesTheTableOfValues : Obligations.ResetLeavesTheTableOfValues := by
  refine ⟨rfl, fun c => ?_⟩
  exact ⟨rfl, rfl, rfl, rfl, rfl, rfl, rfl, rfl, rfl, rfl, rfl, rfl, rfl,
    State.status_resetWith c, fun _ => ⟨rfl, rfl, rfl⟩⟩

theorem Config.default_valid : Config.default.Valid := by decide

/-- Settles O55: the default configuration is one of the valid ones. -/
theorem resetMeetsTheInvariant : Obligations.ResetMeetsTheInvariant :=
  ⟨fun _ => State.resetWith_inv, State.resetWith_inv Config.default_valid⟩

/-- Settles O57: `READ_EXACT` answers one next state, which meets the invariant. -/
theorem readExactKeepsTheInvariant : Obligations.ReadExactKeepsTheInvariant := by
  intro s t b h hexec
  have hk := exec_keeps h (.readExact b)
  rwa [hexec, keepsInv_next] at hk

/-! Results read back. -/

/-- A slice within the result of a complete request is there to read (rules R28, R150). -/
theorem State.Inv.memRead_result {s : State} (h : s.Inv) (hst : s.st = .complete) {off cnt : Nat}
    (hle : off + cnt ≤ s.rlen.toNat) : ∃ bs, s.memRead .acc off cnt = .ok bs := by
  obtain ⟨-, -, hlen⟩ := h.completeResult hst
  have hcap := h.alenLe.trans h.reqPLe
  refine State.memRead_of_filled ?_ fun a ha => h.accHeld a (by omega)
  simp only [State.bufferSize]
  omega

theorem execReadResult_of_read {s : State} {off cnt : U32} {bs : List Byte} (hp : s.perr = false)
    (hst : s.st = .complete) (hle : off.toNat + cnt.toNat ≤ s.rlen.toNat)
    (hbs : s.memRead .acc off.toNat cnt.toNat = .ok bs) :
    exec (.readResult off cnt) s = .next (s.returns (.bytes bs)) := by
  rw [exec, execReadResult, State.command_run hp, if_neg (not_not.2 hst), if_neg (by omega), hbs]

/-- Settles O44: a complete request holds its whole result, and the faults come first. -/
theorem readResultReturnsTheSlice : Obligations.ReadResultReturnsTheSlice := by
  intro s off cnt hp
  refine ⟨fun h hst hle => ?_, fun hst => ?_, fun hst hlt => ?_⟩
  · obtain ⟨bs, hbs⟩ := h.memRead_result hst hle
    obtain ⟨-, hlen, hread⟩ := (State.memRead_ok_iff _ _ _ _ _).1 hbs
    exact ⟨bs, execReadResult_of_read hp hst hle hbs, hlen, hread⟩
  · rw [exec, execReadResult, State.command_run hp, if_pos hst]
    rfl
  · rw [exec, execReadResult, State.command_run hp, if_neg (not_not.2 hst), if_pos hlt]
    rfl

/-! `STATUS`. -/

theorem getLsbD_bit (b : Bool) : (bit b).getLsbD 0 = b := by cases b <;> rfl

/-- The fields of the `STATUS` word (rule R33): each is what is left of the word once the fields
below it are taken off. -/
theorem State.status_fields (s : State) :
    s.status.extractLsb' 0 3 = s.st.code ∧ s.status.getLsbD 3 = s.warn ∧
    s.status.getLsbD 4 = s.fvalid ∧ s.status.getLsbD 5 = s.perr ∧
    s.status.extractLsb' 6 2 = 0 ∧ s.status.extractLsb' 8 8 = s.err.code ∧
    s.status.extractLsb' 16 8 = s.pcause.code ∧ s.status.extractLsb' 24 8 = 0 := by
  simp (disch := decide) only [State.status, BitVec.extractLsb'_append_eq_of_le,
    BitVec.extractLsb'_append_eq_of_add_le, BitVec.extractLsb'_eq_self, BitVec.getLsbD_append,
    getLsbD_bit, if_pos, if_neg, Nat.reduceSub, -Nat.reduceAdd, and_self]

/-- Settles O45, by the fields of the word. -/
theorem readStatusReturnsTheFields : Obligations.ReadStatusReturnsTheFields := by
  refine ⟨?_, fun s => ⟨s.status, rfl, s.status_fields⟩⟩
  rw [← State.status_resetWith Config.default]
  rfl

/-! The fields of a frame. -/

/-- The bytes of a frame from `i` on, one at a time. -/
theorem take_drop_succ {bs : List Byte} {i : Nat} (h : i < bs.length) (n : Nat) :
    (bs.drop i).take (n + 1) = byteAt bs i :: (bs.drop (i + 1)).take n := by
  rw [List.drop_eq_getElem_cons h, List.take_succ_cons]
  simp [byteAt, h]

/-- A 24-bit field is the number its three bytes stand for (rules R11, R79). -/
theorem be24At_toNat {bs : List Byte} {i : Nat} (h : i + 3 ≤ bs.length) :
    (be24At bs i).toNat = beval ((bs.drop i).take 3) := by
  rw [take_drop_succ (by omega), take_drop_succ (by omega), take_drop_succ (by omega),
    be24At, ofBe24_toNat]
  simp [beval]

/-- A 32-bit field is the number its four bytes stand for (rules R11, R79). -/
theorem be32At_toNat {bs : List Byte} {i : Nat} (h : i + 4 ≤ bs.length) :
    (be32At bs i).toNat = beval ((bs.drop i).take 4) := by
  rw [take_drop_succ (by omega), take_drop_succ (by omega), take_drop_succ (by omega),
    take_drop_succ (by omega), be32At, ofBe32_toNat]
  simp [beval]

theorem slotSizes_get (bs : List Byte) (i : Fin 8) :
    (slotSizes bs)[i] = byteAt bs (32 + 4 * i.1) := by
  fin_cases i <;> rfl

theorem slotAddrs_get (bs : List Byte) (i : Fin 8) :
    (slotAddrs bs)[i] = be24At bs (33 + 4 * i.1) := by
  fin_cases i <;> rfl

/-! The decode registers. -/

theorem checkFrame_ne_noDecode (c : Config) (bs : List Byte) : checkFrame c bs ≠ .noDecode := by
  unfold checkFrame
  split_ifs <;> simp

/-- The length an accepted frame has, by its opcode (rule R116). -/
theorem checkFrame_ok_vget {c : Config} {bs : List Byte} (h : checkFrame c bs = .ok)
    (hop : byteAt bs 4 = c.opVget) : bs.length = 64 := by
  unfold checkFrame at h
  by_contra hl
  split_ifs at h

theorem checkFrame_ok_get {c : Config} {bs : List Byte} (h : checkFrame c bs = .ok)
    (hne : byteAt bs 4 ≠ c.opVget) (hop : byteAt bs 4 = c.opGet) : bs.length = 512 := by
  unfold checkFrame at h
  by_contra hl
  split_ifs at h

theorem decodedRegs_of_refused {c : Config} {bs : List Byte} (h : checkFrame c bs ≠ .ok) :
    decodedRegs c bs = DecodeRegs.cleared (checkFrame c bs) (some bs.length) := by
  rw [decodedRegs, if_pos h]

theorem decodedRegs_of_vget {c : Config} {bs : List Byte} (h : checkFrame c bs = .ok)
    (hop : byteAt bs 4 = c.opVget) :
    decodedRegs c bs = { decodedHeader c bs with
      slotSize := some (slotSizes bs), slotAddr := some (slotAddrs bs) } := by
  rw [decodedRegs, if_neg (not_not.2 h), if_pos hop]

theorem decodedRegs_of_get {c : Config} {bs : List Byte} (h : checkFrame c bs = .ok)
    (hne : byteAt bs 4 ≠ c.opVget) (hop : byteAt bs 4 = c.opGet) :
    decodedRegs c bs = { decodedHeader c bs with
      size := some (be32At bs 252), addr := some (be32At bs 256) } := by
  rw [decodedRegs, if_neg (not_not.2 h), if_neg hne, if_pos hop]

theorem decodedRegs_of_iovm {c : Config} {bs : List Byte} (h : checkFrame c bs = .ok)
    (hne : byteAt bs 4 ≠ c.opVget) (hne' : byteAt bs 4 ≠ c.opGet) :
    decodedRegs c bs = { decodedHeader c bs with
      plen := some (byteAt bs 7), prog := some (slice bs 8 (8 + (byteAt bs 7).toNat)) } := by
  rw [decodedRegs, if_neg (not_not.2 h), if_neg hne, if_neg hne']

/-- The registers common to the three opcodes (rule R115). -/
theorem decodedRegs_header {c : Config} {bs : List Byte} (h : checkFrame c bs = .ok) :
    (decodedRegs c bs).op = some (byteAt bs 4) ∧ (decodedRegs c bs).space = some (byteAt bs 5) ∧
    (decodedRegs c bs).flags = some (byteAt bs 6) ∧
    (decodedRegs c bs).zeroOk = some (zeroOk c bs) := by
  by_cases hv : byteAt bs 4 = c.opVget
  · rw [decodedRegs_of_vget h hv]
    exact ⟨rfl, rfl, rfl, rfl⟩
  · by_cases hg : byteAt bs 4 = c.opGet
    · rw [decodedRegs_of_get h hv hg]
      exact ⟨rfl, rfl, rfl, rfl⟩
    · rw [decodedRegs_of_iovm h hv hg]
      exact ⟨rfl, rfl, rfl, rfl⟩

theorem decodedRegs_len (c : Config) (bs : List Byte) :
    (decodedRegs c bs).len = some bs.length := by
  unfold decodedRegs
  split_ifs <;> rfl

theorem execDecodeFrame_of_clear {s : State} (hp : s.perr = false) (bs : List Byte) :
    exec (.decodeFrame bs) s = .next (examine bs s) :=
  State.command_run hp fun s => .next (examine bs s)

/-- Settles O21: the verdict decides between cleared registers and the fields of the opcode. -/
theorem decodeFrameWritesTheFields : Obligations.DecodeFrameWritesTheFields := by
  intro s bs hvalid hp
  obtain ⟨hgv, hiovm⟩ := Config.valid_opcodes hvalid
  have hverdict := decodedRegs_verdict s.cfg bs
  refine ⟨decodedRegs s.cfg bs, execDecodeFrame_of_clear hp bs, decodedRegs_len _ _,
    hverdict ▸ checkFrame_ne_noDecode _ _, fun hbad => ?_, fun hok => ?_⟩
  · rw [hverdict] at hbad ⊢
    exact decodedRegs_of_refused hbad
  rw [hverdict] at hok
  have hl := checkFrame_ok_length hok
  have hbyte : ∀ i, i < 64 → bs[i]? = some (byteAt bs i) := fun i hi =>
    getElem?_byteAt (by omega)
  obtain ⟨hop, hspace, hflags, hzero⟩ := decodedRegs_header hok
  rw [hop, hspace, hflags, hzero, hbyte 4 (by omega), hbyte 5 (by omega), hbyte 6 (by omega)]
  refine ⟨rfl, rfl, rfl, rfl, rfl, rfl, rfl, fun hv => ?_, fun hg => ?_, fun hi => ?_⟩
  · have hv := Option.some.inj hv
    have hl64 := checkFrame_ok_vget hok hv
    rw [decodedRegs_of_vget hok hv]
    refine ⟨_, _, rfl, rfl, rfl, rfl, rfl, rfl, fun i => ⟨?_, ?_⟩⟩
    · rw [slotSizes_get, hbyte _ (by omega)]
    · rw [slotAddrs_get, be24At_toNat (by omega)]
  · have hg := Option.some.inj hg
    have hv : byteAt bs 4 ≠ s.cfg.opVget := hg ▸ hgv
    have hl512 := checkFrame_ok_get hok hv hg
    rw [decodedRegs_of_get hok hv hg]
    exact ⟨_, _, rfl, rfl, rfl, rfl, rfl, rfl, be32At_toNat (by omega), be32At_toNat (by omega)⟩
  · obtain ⟨hg, hv⟩ := hiovm _ hi.symm
    rw [decodedRegs_of_iovm hok hv hg, slice, Nat.add_sub_cancel_left]
    exact ⟨_, hbyte 7 (by omega), rfl, rfl, rfl, rfl, rfl, rfl⟩

end Sys2Proof.Machine
end

section
/-! PROOFS. The stream's answers (rules R58, R59), the buffers that `ENCODE_GET` and `READ_EXACT`
fill (rules R73, R135), and the one write of a request (rule R130). -/

namespace Sys2Proof.Machine

/-! The answers of the stream. -/

theorem boundWrite_of_le {a : WriteAnswer} {len : Nat} (h : a.err = .ok → a.n ≤ len) :
    boundWrite a len = a := by
  obtain ⟨n, err⟩ := a
  cases err with
  | ok => simp [boundWrite, Nat.min_eq_left (h rfl)]
  | error => rfl

theorem boundRead_of_le {a : ReadAnswer} {m : Nat} (h : a.bytes.length ≤ m) :
    boundRead a m = a := by
  rw [boundRead, List.take_of_length_le h]

/-- Settles O29: an answer within the bounds is the one of the stream that is given it next. -/
theorem streamAnswersAreTheAdmittedOnes : Obligations.StreamAnswersAreTheAdmittedOnes :=
  ⟨Stream.write_bound, Stream.read_bound,
    fun _ a h => ⟨{ writes := [a], reads := [], draws := 0 }, boundWrite_of_le h⟩,
    fun _ a h => ⟨{ writes := [], reads := [a], draws := 0 }, boundRead_of_le h⟩,
    fun s bs m => ⟨s.streamWrite_hist bs, s.streamRead_hist m⟩⟩

/-! The frame of `ENCODE_GET`. -/

theorem getOk_iff (addr size : U32) :
    getOk addr size = true ↔ 1 ≤ size.toNat ∧ addr.toNat ≤ 0xFFFFFF := by
  simp only [getOk, Bool.and_eq_true, decide_eq_true_eq]

/-- An encoder's next state, field by field (rules R101, R108, R111). -/
theorem State.loadFrame_eq (s : State) (bs : List Byte) : s.loadFrame bs =
    { s with frame := s.frame.write 0 bs, flen := bs.length, fvalid := true, out := none } := rfl

theorem execEncodeGet_of_ok {s : State} (hp : s.perr = false) {addr size : U32}
    (h : getOk addr size = true) :
    exec (.encodeGet addr size) s = .next (s.loadFrame (getRequest s.cfg addr size)) := by
  rw [exec, execEncodeGet, State.command_run hp, buildGet, if_pos h]

/-- The bytes of a big-endian 32-bit field (rule R11). -/
theorem be32_bytes (v : U32) :
    byteAt (be32 v) 0 = BitVec.ofNat 8 (v.toNat / 16777216) ∧
    byteAt (be32 v) 1 = BitVec.ofNat 8 (v.toNat / 65536) ∧
    byteAt (be32 v) 2 = BitVec.ofNat 8 (v.toNat / 256) ∧
    byteAt (be32 v) 3 = BitVec.ofNat 8 v.toNat :=
  ⟨extractByte_eq v 24, extractByte_eq v 16, extractByte_eq v 8,
    (extractByte_eq v 0).trans (by rw [Nat.pow_zero, Nat.div_one])⟩

/-- Settles O15: an encoder's frame is read back byte by byte, and the bytes of a GET request are
those of its layout. -/
theorem encodeGetWritesTheFrame : Obligations.EncodeGetWritesTheFrame := by
  intro s addr size hp hsize haddr
  obtain ⟨hread, hbeyond⟩ := s.frame.read_write_zero (getRequest s.cfg addr size)
  rw [getRequest_length] at hread hbeyond
  obtain ⟨hpre, hsz, had, hpost⟩ := getRequest_bytes s.cfg addr size
  obtain ⟨hs0, hs1, hs2, hs3⟩ := be32_bytes size
  obtain ⟨ha0, ha1, ha2, ha3⟩ := be32_bytes addr
  have htop : addr.toNat / 16777216 = 0 := by omega
  refine ⟨_, ?_, hread 0 (by omega), hread 1 (by omega), hread 2 (by omega), hread 3 (by omega),
    hread 4 (by omega), hread 5 (by omega), hread 6 (by omega), fun a h1 h2 => ?_, ?_, ?_, ?_, ?_,
    ?_, ?_, ?_, ?_, fun a h1 h2 => ?_, hbeyond⟩
  · rw [execEncodeGet_of_ok hp ((getOk_iff _ _).2 ⟨hsize, haddr⟩), State.loadFrame_eq,
      getRequest_length]
  · rw [hread a (by omega), hpre a h1 h2]
  · rw [hread _ (by omega), hsz _ (by omega) (by omega), hs0]
  · rw [hread _ (by omega), hsz _ (by omega) (by omega), hs1]
  · rw [hread _ (by omega), hsz _ (by omega) (by omega), hs2]
  · rw [hread _ (by omega), hsz _ (by omega) (by omega), hs3]
  · rw [hread _ (by omega), had _ (by omega) (by omega), ha0, htop]
    rfl
  · rw [hread _ (by omega), had _ (by omega) (by omega), ha1]
  · rw [hread _ (by omega), had _ (by omega) (by omega), ha2]
  · rw [hread _ (by omega), had _ (by omega) (by omega), ha3]
  · rw [hread a h2, hpost a h1]

/-! The block of `READ_EXACT`. -/

theorem execReadExact_of_clear {s : State} (hp : s.perr = false) (b : BlockSize) :
    exec (.readExact b) s = .next ((readExact (blockBytes b) s).2.returns
      (.exact (readExact (blockBytes b) s).1)) :=
  State.command_run hp fun s => .next ((readExact (blockBytes b) s).2.returns
    (.exact (readExact (blockBytes b) s).1))

/-- Settles O34: on a stream with a whole block to deliver the bytes placed are its next ones, and
no call was a write. -/
theorem readExactFillsTheBlock : Obligations.ReadExactFillsTheBlock := by
  intro s b hp hd
  obtain ⟨t, es, hrun, hf, hrest, -⟩ := readExact_delivers (blockBytes b) s hd
  have hlen : ((deliverable s.stream.reads).take (blockBytes b)).length = blockBytes b :=
    List.length_take_of_le hd
  have hfill : t.bfill = blockBytes b := hf.outcome.1
  have hblk : ∀ a, t.blk.read a = if a < blockBytes b then (deliverable s.stream.reads)[a]?
      else s.blk.read a := by
    intro a
    rw [hf.read, hlen]
    by_cases ha : a < blockBytes b <;> simp [ha]
  have hwrites : t.stream.writes = s.stream.writes :=
    Recorded.writes (s := { s with bfill := 0 }) ⟨hf.hist, hf.stream⟩
      fun e he => (hf.calls e he).isWrite
  refine ⟨t.returns (.exact .full), ?_, ?_, fun a ha => ?_, fun a ha => ?_, hrest, hwrites⟩
  · rw [execReadExact_of_clear hp, hrun]
  · rw [← hfill, hf.frame]
    rfl
  · rw [State.returns_blk, hblk, if_pos ha]
  · rw [State.returns_blk, hblk, if_neg (Nat.not_lt.2 ha)]

/-! The write of a request. -/

theorem Phase.pending_eq_false {p : Phase} (hack : p ≠ .awaitingAck)
    (hblocks : p ≠ .receivingBlocks) : p.pending = false := by
  rw [Bool.eq_false_iff, ne_eq, Phase.pending_iff]
  exact not_or.2 ⟨hack, hblocks⟩

/-- The end of a request whose frame the stream takes whole (rule R130). -/
theorem sendFrame_taken {op : Byte} {bs : List Byte} {s : State}
    (h : (s.stream.write bs.length).1 = { n := s.flen, err := .ok }) :
    sendFrame op bs s = State.returnsPhase { s with
      fvalid := false, stream := (s.stream.write bs.length).2
      hist := s.hist ++ [.write bs s.flen .ok]
      st := if op = s.cfg.opGet then .awaitingAck else .receivingBlocks } := by
  simp only [sendFrame_eq, h, ne_eq, not_true_eq_false, if_false, Nat.lt_irrefl]

/-- Settles O30: a sendable frame is sent, and an answer that takes it whole opens the request. -/
theorem writeFrameSendsTheFrame : Obligations.WriteFrameSendsTheFrame := by
  intro s op bs hperr hack hblocks hv hle hge hl hframe h4 hop hans
  have hread : s.memRead .frame 0 s.flen = .ok bs :=
    (State.memRead_ok_iff _ _ _ _ _).2
      ⟨by simpa [State.bufferSize] using hle, hl, fun i hi =>
        (Nat.zero_add i).symm ▸ hframe i hi⟩
  have hexec : exec .writeFrame s = .next (sendFrame op bs (s.openRequest op)) :=
    (State.command_run hperr _).trans
      (writeFrame_sends (Phase.pending_eq_false hack hblocks) hv hge hread (by simp [byteAt, h4])
        hop)
  have hans' : ((s.openRequest op).stream.write bs.length).1 =
      { n := (s.openRequest op).flen, err := .ok } := hl ▸ hans
  rw [hexec, sendFrame_taken hans', hl]
  rfl

end Sys2Proof.Machine
end

section
/-! PROOFS. While a response is pending nothing is written to the stream (rules R64, R130, R200):
the instructions that never write, the ones that may, and every input of a step. And what touches
no transport state (rule R57). -/

namespace Sys2Proof.Machine

/-- The run recorded no write, so the coming write answers stay (`WritesNothing.writes`). -/
def WritesNothing (s t : State) : Prop := ∃ es, Recorded s t es ∧ ∀ e ∈ es, e.isWrite = false

theorem WritesNothing.writes {s t : State} (h : WritesNothing s t) :
    t.stream.writes = s.stream.writes := by
  obtain ⟨es, hrec, hes⟩ := h
  exact hrec.writes hes

theorem writesNothing_of_silent {s t : State} (hh : t.hist = s.hist) (hs : t.stream = s.stream) :
    WritesNothing s t := ⟨[], .silent hh hs, by simp⟩

theorem writesNothing_returns (s : State) (r : Result) : WritesNothing s (s.returns r) :=
  writesNothing_of_silent rfl rfl

theorem writesNothing_returnsNothing (s : State) : WritesNothing s s.returnsNothing :=
  writesNothing_of_silent rfl rfl

theorem writesNothing_examine (s : State) (bs : List Byte) : WritesNothing s (examine bs s) :=
  writesNothing_of_silent rfl rfl

theorem writesNothing_progFault (s : State) (c : ProgCause) : WritesNothing s (s.progFault c) :=
  ⟨_, recorded_progFault s c, by simp [Event.isWrite]⟩

/-! The encoders. -/

/-- The two ends of an encoder: its frame in `FRAME`, or a fault (rules R101, R108, R111). -/
def Encoded (s t : State) : Prop := (∃ bs, t = s.loadFrame bs) ∨ ∃ c, t = s.progFault c

theorem encoded_buildVget (slots : List (U32 × U32)) (s : State) :
    Encoded s (buildVget slots s) := by
  unfold buildVget
  split
  · exact .inl ⟨_, rfl⟩
  · exact .inr ⟨_, rfl⟩

theorem encoded_buildGet (addr size : U32) (s : State) : Encoded s (buildGet addr size s) := by
  unfold buildGet
  split
  · exact .inl ⟨_, rfl⟩
  · exact .inr ⟨_, rfl⟩

theorem encoded_buildIovm (flen : U16) (prog : List Byte) (s : State) :
    Encoded s (buildIovm flen prog s) := by
  unfold buildIovm
  split
  · exact .inr ⟨_, rfl⟩
  · split
    · exact .inl ⟨_, rfl⟩
    · exact .inr ⟨_, rfl⟩

theorem Encoded.writesNothing {s t : State} (h : Encoded s t) : WritesNothing s t := by
  rcases h with ⟨bs, rfl⟩ | ⟨c, rfl⟩
  · exact writesNothing_of_silent rfl rfl
  · exact writesNothing_progFault s c

/-! The instructions that may write, and those that never do. -/

/-- `WRITE_FRAME` and the transactions, which are all that write to the stream (rules R130,
R155, R156). -/
def Writer (i : Instr) : Prop :=
  i = .writeFrame ∨ (∃ a n, i = .transactGet a n) ∨ ∃ slots, i = .transactVget slots

/-- A command that the gate bars writes nothing (rule R172), so only its body matters. -/
theorem WritesNothing.of_command {s t : State} {body : State → Host.Outcome State Fault Refusal}
    (h : s.command body = .next t) (hb : body s = .next t → WritesNothing s t) :
    WritesNothing s t := by
  rcases State.command_next.1 h with ⟨-, rfl⟩ | ⟨-, h⟩
  · exact writesNothing_returnsNothing s
  · exact hb h

theorem WritesNothing.of_command_next {s t : State} {f : State → State}
    (h : (s.command fun s => .next (f s)) = .next t) (hf : WritesNothing s (f s)) :
    WritesNothing s t :=
  .of_command h fun h => by
    cases h
    exact hf

theorem writesNothing_encodeVgetContig {s t : State} {addr chunk : U32} {count : Byte}
    (h : execEncodeVgetContig addr chunk count s = .next t) : WritesNothing s t := by
  refine .of_command_next h ?_
  split
  · exact (encoded_buildVget _ s).writesNothing
  · exact writesNothing_progFault s _

theorem writesNothing_paddedSize {s t : State} {size : U32} {bsz : U16}
    (h : execPaddedSize size bsz s = .next t) : WritesNothing s t := by
  refine .of_command h fun h => ?_
  split at h <;> cases h
  · exact writesNothing_progFault s _
  · exact writesNothing_returns s _

theorem writesNothing_readFrame {s t : State} (h : execReadFrame s = .next t) :
    WritesNothing s t := by
  refine .of_command h fun h => ?_
  split at h
  · split at h <;> cases h
    exact writesNothing_returns s _
  · cases h
    exact writesNothing_progFault s _

theorem writesNothing_readResult {s t : State} {off cnt : U32}
    (h : execReadResult off cnt s = .next t) : WritesNothing s t := by
  refine .of_command h fun h => ?_
  split at h
  · cases h
    exact writesNothing_progFault s _
  · split at h
    · cases h
      exact writesNothing_progFault s _
    · split at h <;> cases h
      exact writesNothing_returns s _

theorem writesNothing_readExact {s t : State} {b : BlockSize}
    (h : execReadExact b s = .next t) : WritesNothing s t := by
  refine .of_command_next (f := fun s => (readExact (blockBytes b) s).2.returns
    (.exact (readExact (blockBytes b) s).1)) h ?_
  obtain ⟨es, hrec, hes⟩ := readExact_recorded (blockBytes b) s
  exact ⟨es, ⟨hrec.hist, hrec.stream⟩, hes⟩

/-- Every instruction but the writers leaves the stream unwritten, in any state (rule R64). -/
theorem exec_writesNothing_or_writer {s t : State} {i : Instr} (h : exec i s = .next t) :
    Writer i ∨ WritesNothing s t := by
  cases i with
  | writeFrame => exact .inl (.inl rfl)
  | transactGet addr size => exact .inl (.inr (.inl ⟨addr, size, rfl⟩))
  | transactVget slots => exact .inl (.inr (.inr ⟨slots, rfl⟩))
  | encodeVget slots =>
    exact .inr (.of_command_next h (encoded_buildVget slots s).writesNothing)
  | encodeVgetContig addr chunk count => exact .inr (writesNothing_encodeVgetContig h)
  | encodeGet addr size =>
    exact .inr (.of_command_next h (encoded_buildGet addr size s).writesNothing)
  | encodeIovm flen prog =>
    exact .inr (.of_command_next h (encoded_buildIovm flen prog s).writesNothing)
  | decodeFrame bytes => exact .inr (.of_command_next h (writesNothing_examine s bytes))
  | paddedSize size bsz => exact .inr (writesNothing_paddedSize h)
  | readFrame => exact .inr (writesNothing_readFrame h)
  | readResponse e bsz => exact .inr (.of_command h readResponse_recorded)
  | readResult off cnt => exact .inr (writesNothing_readResult h)
  | readStatus =>
    cases h
    exact .inr (writesNothing_returns s _)
  | readExact b => exact .inr (writesNothing_readExact h)
  | getWireFrame space flags pre size addr post =>
    exact .inr (.of_command_next (f := fun s => examine _ s) h (writesNothing_examine s _))
  | vgetWireFrame space flags pre slots =>
    exact .inr (.of_command_next (f := fun s => examine _ s) h (writesNothing_examine s _))
  | iovmWireFrame op space flags prog tail =>
    exact .inr (.of_command_next h (writesNothing_examine s _))

/-! The writers while a response is pending. -/

/-- The command ended in one programming-error fault and kept the pending request (rule R130). -/
def PendingFault (s t : State) : Prop :=
  t.stream = s.stream ∧ t.st = s.st ∧ t.perr = true ∧ t.alen = s.alen ∧ t.reqOp = s.reqOp ∧
    ∃ c, t.hist = s.hist ++ [.progFault c]

theorem pendingFault_progFault (s : State) (c : ProgCause) : PendingFault s (s.progFault c) :=
  ⟨rfl, rfl, rfl, rfl, rfl, c, rfl⟩

theorem PendingFault.writesNothing {s t : State} (h : PendingFault s t) : WritesNothing s t := by
  obtain ⟨hstream, -, -, -, -, c, hhist⟩ := h
  exact ⟨_, ⟨hhist, hstream⟩, by simp [Event.isWrite]⟩

theorem writeFrame_busy {s : State} (hpend : s.st.pending = true) :
    writeFrame s = .next (s.progFault .busy) := if_pos hpend

/-- A transaction whose encode faulted goes no further, and one whose encode left a frame is
stopped by its `WRITE_FRAME` (rules R94, R130). -/
theorem transact_busy {e : U32} {bsz : U16} {s t u : State} (hp : s.perr = false)
    (hpend : s.st.pending = true) (hu : Encoded s u) (h : transact e bsz u = .next t) :
    PendingFault s t := by
  rcases hu with ⟨bs, rfl⟩ | ⟨c, rfl⟩
  · have hw : writeFrame (s.loadFrame bs) = .next ((s.loadFrame bs).progFault .busy) :=
      writeFrame_busy hpend
    rw [transact, State.loadFrame_perr, hp, if_neg Bool.false_ne_true, hw] at h
    cases h
    exact ⟨rfl, rfl, rfl, rfl, rfl, _, rfl⟩
  · cases h
    exact pendingFault_progFault s c

theorem exec_writer_pending {s t : State} {i : Instr} (hp : s.perr = false)
    (hpend : s.st.pending = true) (hi : Writer i) (h : exec i s = .next t) : PendingFault s t := by
  rcases hi with rfl | ⟨addr, size, rfl⟩ | ⟨slots, rfl⟩
  · rw [exec, execWriteFrame, State.command_run hp, writeFrame_busy hpend] at h
    cases h
    exact pendingFault_progFault s .busy
  · rw [exec, execTransactGet, State.command_run hp] at h
    exact transact_busy hp hpend (encoded_buildGet addr size s) h
  · rw [exec, execTransactVget, State.command_run hp] at h
    exact transact_busy hp hpend (encoded_buildVget slots s) h

theorem exec_writer_barred {s : State} {i : Instr} (hp : s.perr = true) (hi : Writer i) :
    exec i s = .next s.returnsNothing := by
  rcases hi with rfl | ⟨addr, size, rfl⟩ | ⟨slots, rfl⟩ <;> exact if_pos hp

/-- Rule R64 for one instruction. -/
theorem exec_writesNothing {s t : State} {i : Instr} (hpend : s.st.pending = true)
    (h : exec i s = .next t) : WritesNothing s t := by
  rcases exec_writesNothing_or_writer h with hi | hw
  · cases hp : s.perr with
    | false => exact (exec_writer_pending hp hpend hi h).writesNothing
    | true =>
      cases (exec_writer_barred hp hi).symm.trans h
      exact writesNothing_returnsNothing s
  · exact hw

/-! The inputs of a step. -/

/-- What a step leaves when no write was made: the coming write answers, and no write in the
history past what it held. (A reset empties the history.) -/
def StepWritesNothing (s t : State) : Prop :=
  t.stream.writes = s.stream.writes ∧ ∀ e ∈ t.hist.drop s.hist.length, e.isWrite = false

theorem WritesNothing.step {s t : State} (h : WritesNothing s t) : StepWritesNothing s t := by
  refine ⟨h.writes, ?_⟩
  obtain ⟨es, hrec, hes⟩ := h
  rw [hrec.hist, List.drop_left]
  exact hes

theorem stepWritesNothing_hardReset (s : State) : StepWritesNothing s s.hardReset :=
  ⟨rfl, by simp [State.resetWith]⟩

/-- A cut run is a part of the whole one (rules R195, R197). -/
theorem WritesNothing.cutBy {s t : State} (h : WritesNothing s t) (k : Nat) :
    StepWritesNothing s (s.cutBy t k) := by
  obtain ⟨es, hrec, hes⟩ := h
  rw [hrec.cutBy k]
  exact ⟨Stream.replay_writes k es s.stream hes, by simp [State.resetWith]⟩

theorem runCommand_writesNothing {record : List Byte} {s t : State} (hpend : s.st.pending = true)
    (h : runCommand record s = .next t) : WritesNothing s t := by
  unfold runCommand at h
  split at h
  · exact exec_writesNothing hpend h
  · exact .of_command_next h (writesNothing_progFault s _)
  · cases h

theorem runFrame_writesNothing {bytes : List Byte} {s t : State} (hpend : s.st.pending = true)
    (h : runFrame bytes s = .next t) : WritesNothing s t := by
  unfold runFrame at h
  split at h
  · exact exec_writesNothing hpend h
  · split at h
    · exact exec_writesNothing hpend h
    · cases h

theorem runInput_writesNothing {i : HostInput} {s t : State} (hpend : s.st.pending = true)
    (h : runInput i s = .next t) : StepWritesNothing s t := by
  cases i with
  | command record => exact (runCommand_writesNothing hpend h).step
  | frame bytes => exact (runFrame_writesNothing hpend h).step
  | reset =>
    cases h
    exact stepWritesNothing_hardReset s
  | cutCommand record calls =>
    rw [runInput] at h
    split at h
    · rename_i u hu
      cases h
      exact (runCommand_writesNothing hpend hu).cutBy calls
    · cases h
    · cases h

theorem step_writesNothing {s t : State} (hpend : s.st.pending = true) (h : step s = .next t) :
    StepWritesNothing s t := by
  unfold step runNext at h
  split at h
  · cases h
    exact ⟨rfl, by simp⟩
  · rename_i i rest _
    exact runInput_writesNothing (s := { s with inbox := rest }) hpend h

/-- Settles O33: while a response is pending the writers end in a fault before their write, and
no other instruction, and so no input, makes one. -/
theorem oneOutstandingRequest : Obligations.OneOutstandingRequest := by
  intro s t hst
  have hpend := (Phase.pending_iff s.st).2 hst
  refine ⟨fun i h => ?_, step_writesNothing hpend,
    fun i hp hi h => exec_writer_pending hp hpend hi h⟩
  have hw := exec_writesNothing hpend h
  refine ⟨hw.writes, ?_⟩
  obtain ⟨es, hrec, hes⟩ := hw
  exact ⟨es, hrec.hist, hes⟩

/-! What touches no transport state. -/

/-- Settles O53: an instruction that is none of the five of the block transport answers off the
transport. -/
theorem codecLeavesTheTransportAlone : Obligations.CodecLeavesTheTransportAlone := by
  intro s t i hexec hwrite hresponse hexact hget hvget
  cases answers_of_exec hexec with
  | offTransport h =>
    rw [h.frame]
    exact ⟨rfl, rfl, rfl, rfl, rfl, rfl, rfl, rfl, rfl, rfl, rfl, rfl, rfl⟩
  | writeFrame h => exact absurd rfl hwrite
  | @readResponse e bsz h => exact absurd rfl (hresponse e bsz)
  | @readExact b h => exact absurd rfl (hexact b)
  | transact hi hu h =>
    rcases hi with ⟨a, n, rfl⟩ | ⟨slots, rfl⟩
    · exact absurd rfl (hget a n)
    · exact absurd rfl (hvget slots)

end Sys2Proof.Machine
end

section
/-! PROOFS. Command records: each field is read back exactly as it was written, so each record has
one reading (rule R91), and what a step does with a record (rules R90, R92; the record layout is
log entry 7). -/

namespace Sys2Proof.Machine

/-! Operand fields: a field is taken off a byte string exactly when its bytes are at the head. -/

theorem takeU16_iff {bs rest : List Byte} {v : U16} :
    takeU16 bs = some (v, rest) ↔ bs = be16 v ++ rest := by
  constructor
  · intro h
    unfold takeU16 at h
    split at h <;> cases h
    rw [be16_ofBe16]
    rfl
  · rintro rfl
    exact congrArg (fun v => some (v, rest)) (ofBe16_be16 v)

theorem takeU32_iff {bs rest : List Byte} {v : U32} :
    takeU32 bs = some (v, rest) ↔ bs = be32 v ++ rest := by
  constructor
  · intro h
    unfold takeU32 at h
    split at h <;> cases h
    rw [be32_ofBe32]
    rfl
  · rintro rfl
    exact congrArg (fun v => some (v, rest)) (ofBe32_be32 v)

theorem takeTwoU32_iff {bs rest : List Byte} {x y : U32} :
    takeTwoU32 bs = some (x, y, rest) ↔ bs = be32 x ++ be32 y ++ rest := by
  rw [List.append_assoc]
  constructor
  · intro h
    unfold takeTwoU32 at h
    split at h
    · rename_i hx
      split at h <;> cases h
      rename_i hy
      rw [takeU32_iff.1 hx, takeU32_iff.1 hy]
    · cases h
  · rintro rfl
    simp only [takeTwoU32, takeU32_iff.2 rfl]

theorem takeU32U16_iff {bs rest : List Byte} {x : U32} {y : U16} :
    takeU32U16 bs = some (x, y, rest) ↔ bs = be32 x ++ be16 y ++ rest := by
  rw [List.append_assoc]
  constructor
  · intro h
    unfold takeU32U16 at h
    split at h
    · rename_i hx
      split at h <;> cases h
      rename_i hy
      rw [takeU32_iff.1 hx, takeU16_iff.1 hy]
    · cases h
  · rintro rfl
    simp only [takeU32U16, takeU32_iff.2 rfl, takeU16_iff.2 rfl]

theorem takeU32s_iff {n : Nat} {bs rest : List Byte} {xs : List U32} :
    takeU32s n bs = some (xs, rest) ↔ xs.length = n ∧ bs = u32sBytes xs ++ rest := by
  induction n generalizing bs xs with
  | zero =>
    rw [List.length_eq_zero_iff]
    constructor
    · intro h
      cases h
      exact ⟨rfl, rfl⟩
    · rintro ⟨rfl, rfl⟩
      rfl
  | succ n ih =>
    constructor
    · intro h
      unfold takeU32s at h
      split at h
      · split at h <;> cases h
        obtain ⟨hlen, hbs⟩ := ih.1 ‹takeU32s n _ = _›
        rw [takeU32_iff.1 ‹takeU32 bs = _›, hbs, u32sBytes, List.append_assoc]
        exact ⟨congrArg (· + 1) hlen, rfl⟩
      · cases h
    · rintro ⟨hlen, rfl⟩
      obtain ⟨x, xs, rfl⟩ := List.exists_cons_of_length_eq_add_one hlen
      have htail := ih.2 ⟨Nat.succ.inj hlen, rfl⟩
      simp only [takeU32s, u32sBytes, List.append_assoc, takeU32_iff.2 rfl, htail]

theorem takeBytes_iff {n : Nat} {bs rest xs : List Byte} :
    takeBytes n bs = some (xs, rest) ↔ xs.length = n ∧ bs = xs ++ rest := by
  constructor
  · intro h
    unfold takeBytes at h
    split at h <;> cases h
    exact ⟨List.length_take_of_le ‹_›, (List.take_append_drop n bs).symm⟩
  · rintro ⟨rfl, rfl⟩
    rw [takeBytes, if_pos (by simp), List.take_left, List.drop_left]

/-- A count field holds every length it can count. -/
theorem ofNat_length_toNat {α : Type} {w : Nat} {xs : List α} (h : xs.length < 2 ^ w) :
    (BitVec.ofNat w xs.length).toNat = xs.length := by
  rw [BitVec.toNat_ofNat, Nat.mod_eq_of_lt h]

theorem eq_ofNat_length {α : Type} {w : Nat} {n : BitVec w} {xs : List α}
    (h : xs.length = n.toNat) : n = BitVec.ofNat w xs.length := by
  rw [h, BitVec.ofNat_toNat, BitVec.setWidth_eq]

theorem takeSlots_iff {bs rest : List Byte} {slots : List (U32 × U32)} :
    takeSlots bs = some (slots, rest) ↔
      slots.length < 2 ^ 8 ∧ bs = slotOperands slots ++ rest := by
  constructor
  · intro h
    unfold takeSlots at h
    split at h
    · rename_i n bs
      split at h
      · rename_i sizes r hsizes
        split at h <;> cases h
        rename_i addrs haddrs
        obtain ⟨hns, hbs⟩ := takeU32s_iff.1 hsizes
        obtain ⟨hna, hr⟩ := takeU32s_iff.1 haddrs
        have hlen : (sizes.zip addrs).length = n.toNat := by
          rw [List.length_zip, hns, hna, Nat.min_self]
        refine ⟨hlen ▸ n.isLt, ?_⟩
        rw [slotOperands, ← eq_ofNat_length hlen, List.map_fst_zip (by omega),
          List.map_snd_zip (by omega), hbs, hr, List.cons_append, List.append_assoc]
      · cases h
    · cases h
  · rintro ⟨hlt, rfl⟩
    have hsizes : takeU32s slots.length (u32sBytes (slots.map Prod.fst) ++
        (u32sBytes (slots.map Prod.snd) ++ rest)) = _ := takeU32s_iff.2 ⟨List.length_map _, rfl⟩
    have haddrs : takeU32s slots.length (u32sBytes (slots.map Prod.snd) ++ rest) = _ :=
      takeU32s_iff.2 ⟨List.length_map _, rfl⟩
    have hzip : (slots.map Prod.fst).zip (slots.map Prod.snd) = slots :=
      (List.zip_of_prod rfl rfl).symm
    simp only [slotOperands, List.cons_append, List.append_assoc, takeSlots,
      ofNat_length_toNat hlt, hsizes, haddrs, hzip]

theorem takeContig_iff {bs rest : List Byte} {addr chunk : U32} {count : Byte} :
    takeContig bs = some (addr, chunk, count, rest) ↔
      bs = be32 addr ++ be32 chunk ++ [count] ++ rest := by
  rw [List.append_assoc]
  constructor
  · intro h
    unfold takeContig at h
    split at h <;> cases h
    exact takeTwoU32_iff.1 ‹_›
  · rintro rfl
    simp only [takeContig, takeTwoU32_iff.2 rfl, List.singleton_append]

theorem takeIovm_iff {bs rest prog : List Byte} {flen : U16} :
    takeIovm bs = some (flen, prog, rest) ↔ prog.length < 2 ^ 16 ∧
      bs = be16 flen ++ be16 (BitVec.ofNat 16 prog.length) ++ prog ++ rest := by
  rw [List.append_assoc, List.append_assoc]
  constructor
  · intro h
    unfold takeIovm at h
    split at h
    · split at h
      · rename_i plen r' hplen
        split at h <;> cases h
        obtain ⟨hlen, hr⟩ := takeBytes_iff.1 ‹_›
        rw [← eq_ofNat_length hlen, takeU16_iff.1 ‹takeU16 bs = _›, takeU16_iff.1 hplen, hr]
        exact ⟨hlen ▸ plen.isLt, rfl⟩
      · cases h
    · cases h
  · rintro ⟨hlt, rfl⟩
    simp only [takeIovm, takeU16_iff.2 rfl, ofNat_length_toNat hlt, takeBytes_iff.2 ⟨rfl, rfl⟩]

theorem takeFrame_iff {bs rest bytes : List Byte} :
    takeFrame bs = some (bytes, rest) ↔ bytes.length < 2 ^ 16 ∧
      bs = be16 (BitVec.ofNat 16 bytes.length) ++ bytes ++ rest := by
  rw [List.append_assoc]
  constructor
  · intro h
    unfold takeFrame at h
    split at h
    · rename_i len r hlen
      obtain ⟨hl, hr⟩ := takeBytes_iff.1 h
      rw [← eq_ofNat_length hl, takeU16_iff.1 hlen, hr]
      exact ⟨hl ▸ len.isLt, rfl⟩
    · cases h
  · rintro ⟨hlt, rfl⟩
    simp only [takeFrame, takeU16_iff.2 rfl, ofNat_length_toNat hlt, takeBytes_iff.2 ⟨rfl, rfl⟩]

/-! Whole records. -/

/-- What the table of rule R91 reads off a record is a well-formed instruction, whose own record
is the code and the bytes taken. -/
theorem parseOperands_some (c : Config) {code : Byte} {bs rest : List Byte} {i : Instr}
    (h : parseOperands code bs = some (some (i, rest))) :
    i.wf = true ∧ ∃ ops, encode c i = some (.command (code :: ops)) ∧ bs = ops ++ rest := by
  have hcode : ∀ {n : Nat}, code.toNat = n → code = BitVec.ofNat 8 n := fun hn => by
    rw [← hn, BitVec.ofNat_toNat, BitVec.setWidth_eq]
  unfold parseOperands at h
  split at h
  case h_14 => cases h
  all_goals obtain rfl := hcode ‹code.toNat = _›
  case h_7 | h_8 | h_11 =>
    cases h
    exact ⟨rfl, [], rfl, rfl⟩
  all_goals
    obtain ⟨fields, hfields, heq⟩ := Option.map_eq_some_iff.1 (Option.some.inj h)
    cases heq
  case h_1 | h_13 =>
    obtain ⟨hlt, hbs⟩ := takeSlots_iff.1 hfields
    exact ⟨decide_eq_true hlt, _, rfl, hbs⟩
  case h_2 => exact ⟨rfl, _, rfl, takeContig_iff.1 hfields⟩
  case h_3 | h_10 | h_12 => exact ⟨rfl, _, rfl, takeTwoU32_iff.1 hfields⟩
  case h_4 =>
    obtain ⟨hlt, hbs⟩ := takeIovm_iff.1 hfields
    exact ⟨decide_eq_true hlt, _, rfl, hbs⟩
  case h_5 =>
    obtain ⟨hlt, hbs⟩ := takeFrame_iff.1 hfields
    exact ⟨decide_eq_true hlt, _, rfl, hbs⟩
  case h_6 | h_9 => exact ⟨rfl, _, rfl, takeU32U16_iff.1 hfields⟩

/-- The table of rule R91 reads a well-formed instruction off its own record. -/
theorem parseOperands_encode {c : Config} {code : Byte} {ops : List Byte} {i : Instr}
    (hwf : i.wf = true) (h : encode c i = some (.command (code :: ops))) (rest : List Byte) :
    parseOperands code (ops ++ rest) = some (some (i, rest)) := by
  cases i with
  | encodeVget slots | transactVget slots =>
    cases h
    have hlt : slots.length < 2 ^ 8 := of_decide_eq_true hwf
    rw [parseOperands, takeSlots_iff.2 ⟨hlt, rfl⟩]
    rfl
  | encodeVgetContig addr chunk count =>
    cases h
    rw [parseOperands, takeContig_iff.2 rfl]
    rfl
  | encodeGet addr size | readResult addr size | transactGet addr size =>
    cases h
    rw [parseOperands, takeTwoU32_iff.2 rfl]
    rfl
  | encodeIovm flen prog =>
    cases h
    rw [parseOperands, takeIovm_iff.2 ⟨of_decide_eq_true hwf, rfl⟩]
    rfl
  | decodeFrame bytes =>
    cases h
    rw [parseOperands, takeFrame_iff.2 ⟨of_decide_eq_true hwf, rfl⟩]
    rfl
  | paddedSize size bsz | readResponse size bsz =>
    cases h
    rw [parseOperands, takeU32U16_iff.2 rfl]
    rfl
  | readFrame | writeFrame | readStatus =>
    cases h
    rfl
  | readExact _ | getWireFrame _ _ _ _ _ _ | vgetWireFrame _ _ _ _ | iovmWireFrame _ _ _ _ _ =>
    cases h

theorem encode_command_ne_nil {c : Config} {i : Instr} : encode c i ≠ some (.command []) := by
  cases i <;> simp [encode]

theorem decodeCommand_cons {code : Byte} {bs : List Byte} {i : Instr} :
    decodeCommand (code :: bs) = .ok i ↔ parseOperands code bs = some (some (i, [])) := by
  unfold decodeCommand
  dsimp only
  split <;> simp_all

/-- A record decodes exactly to the well-formed instruction whose record it is. -/
theorem decodeCommand_iff (c : Config) {record : List Byte} {i : Instr} :
    decodeCommand record = .ok i ↔ i.wf = true ∧ encode c i = some (.command record) := by
  cases record with
  | nil =>
    refine ⟨fun h => ?_, fun h => absurd h.2 encode_command_ne_nil⟩
    cases h
  | cons code bs =>
    rw [decodeCommand_cons]
    constructor
    · intro h
      obtain ⟨hwf, ops, henc, hbs⟩ := parseOperands_some c h
      rw [hbs, List.append_nil]
      exact ⟨hwf, henc⟩
    · rintro ⟨hwf, henc⟩
      have h := parseOperands_encode hwf henc []
      rwa [List.append_nil] at h

/-- Settles O7: a field is read back as it was written, whatever follows it. -/
theorem commandRecordsDecodeBack : Obligations.CommandRecordsDecodeBack :=
  fun c _ _ hwf henc => (decodeCommand_iff c).2 ⟨hwf, henc⟩

/-- Settles O8: the bytes a field is read from are those the field is written as. -/
theorem commandRecordsHaveOneReading : Obligations.CommandRecordsHaveOneReading :=
  fun c _ _ h => (decodeCommand_iff c).1 h

/-- Settles O6: each byte string is the record of its command, so it decodes to it. -/
theorem writtenRecordsDecode : Obligations.WrittenRecordsDecode :=
  ⟨commandRecordsDecodeBack _ (.encodeGet 0x00F50000 0x00001000) _ rfl rfl,
    commandRecordsDecodeBack _ (.encodeVget [(0x10, 0x7E0000), (0x20, 0x7E0010)]) _ rfl rfl,
    commandRecordsDecodeBack _ (.readResponse 0x1000 0x200) _ rfl rfl,
    commandRecordsDecodeBack _ .readStatus _ rfl rfl⟩

/-! Steps. -/

theorem step_of_inbox {s : State} {i : HostInput} {rest : List HostInput}
    (h : s.inbox = i :: rest) : step s = runInput i { s with inbox := rest } := by
  rw [step, runNext, h]

theorem runCommand_of_decode {s : State} {record : List Byte} {i : Instr}
    (h : decode s.cfg (.command record) = .ok i) : runCommand record s = exec i s := by
  rw [runCommand, h]

theorem runFrame_of_decode {s : State} {bytes : List Byte} {i : Instr}
    (h : decode s.cfg (.frame bytes) = .ok i) : runFrame bytes s = exec i s := by
  rw [runFrame, h]

/-- Settles O1: an input that decodes runs as its instruction once it is taken. -/
theorem stepRunsDecodedInstruction : Obligations.StepRunsDecodedInstruction :=
  fun s rest _ =>
    ⟨fun _ hin hdec => (step_of_inbox hin).trans
        (runCommand_of_decode (s := { s with inbox := rest }) hdec),
      fun _ hin hdec => (step_of_inbox hin).trans
        (runFrame_of_decode (s := { s with inbox := rest }) hdec)⟩

/-- Settles O2: there is no input to take. -/
theorem idleBlockWaits : Obligations.IdleBlockWaits := by
  intro s h
  rw [step, runNext, h]

/-! Codes outside the table, and refusals. -/

theorem parseOperands_none {code : Byte} {bs : List Byte}
    (h : code.toNat ∉ [0x01, 0x02, 0x03, 0x04, 0x05, 0x06, 0x07, 0x10, 0x11, 0x12, 0x13, 0x20,
      0x21]) : parseOperands code bs = none := by
  simp only [List.mem_cons, List.not_mem_nil, or_false, not_or] at h
  unfold parseOperands
  split
  case h_14 => rfl
  all_goals omega

/-- Settles O11: the code alone decides, before any operand is read. -/
theorem unknownCodeRaisesIllegalCmd : Obligations.UnknownCodeRaisesIllegalCmd := by
  intro s code operands rest hin hcode
  have hdec : decodeCommand (code :: operands) = .error (.illegalCode code) := by
    rw [decodeCommand, parseOperands_none hcode]
  have hrun : step s = State.command { s with inbox := rest }
      fun s => .next (s.progFault .illegalCmd) := by
    rw [step_of_inbox hin, runInput, runCommand, decode, hdec]
  rw [hrun]
  exact ⟨fun hp => State.command_run (s := { s with inbox := rest }) hp
    fun s => .next (s.progFault .illegalCmd), fun hp => if_pos hp⟩

/-- The outcome is a next state or a model fault. -/
def Meant (o : Host.Outcome State Fault Refusal) : Prop := ∀ r, o ≠ .refused r

@[simp] theorem meant_next (t : State) : Meant (.next t) := nofun

@[simp] theorem meant_fault (f : Fault) : Meant (.fault f) := nofun

theorem State.command_meant {s : State} {body : State → Host.Outcome State Fault Refusal}
    (h : Meant (body s)) : Meant (s.command body) := by
  unfold State.command
  split
  · exact meant_next _
  · exact h

theorem State.command_next_meant (s : State) (f : State → State) :
    Meant (s.command fun s => .next (f s)) := State.command_meant (meant_next (f s))

theorem writeFrame_meant (s : State) : Meant (writeFrame s) := by
  unfold writeFrame
  split
  · exact meant_next _
  · split
    · exact meant_next _
    · split
      · exact meant_fault _
      · dsimp only
        split
        · exact meant_next _
        · split
          · exact meant_fault _
          · exact meant_next _

theorem readResponse_meant (e : U32) (bsz : U16) (s : State) : Meant (readResponse e bsz s) := by
  obtain ⟨t, h⟩ := readResponse_answers e bsz s
  rw [h]
  exact meant_next t

theorem transact_meant (e : U32) (bsz : U16) (s : State) : Meant (transact e bsz s) := by
  unfold transact
  split
  · exact meant_next s
  · split
    · split
      · exact meant_next _
      · exact readResponse_meant e bsz _
    · exact meant_fault _
    · rename_i r h
      exact absurd h (writeFrame_meant s r)

theorem execPaddedSize_meant (size : U32) (bsz : U16) (s : State) :
    Meant (execPaddedSize size bsz s) := by
  refine State.command_meant ?_
  split <;> exact meant_next _

theorem execReadFrame_meant (s : State) : Meant (execReadFrame s) := by
  refine State.command_meant ?_
  split
  · split
    · exact meant_fault _
    · exact meant_next _
  · exact meant_next _

theorem execReadResult_meant (off cnt : U32) (s : State) : Meant (execReadResult off cnt s) := by
  refine State.command_meant ?_
  split
  · exact meant_next _
  · split
    · exact meant_next _
    · split
      · exact meant_fault _
      · exact meant_next _

/-- No instruction is refused. -/
theorem exec_meant (i : Instr) (s : State) : Meant (exec i s) := by
  cases i with
  | writeFrame => exact State.command_meant (writeFrame_meant s)
  | readResponse e bsz => exact State.command_meant (readResponse_meant e bsz s)
  | transactGet addr size =>
    exact State.command_meant (body := fun s => transact size 512 (buildGet addr size s))
      (transact_meant _ _ _)
  | transactVget slots =>
    exact State.command_meant (body := fun s => transact _ 64 (buildVget slots s))
      (transact_meant _ _ _)
  | paddedSize size bsz => exact execPaddedSize_meant size bsz s
  | readFrame => exact execReadFrame_meant s
  | readResult off cnt => exact execReadResult_meant off cnt s
  | readStatus => exact meant_next _
  | encodeVgetContig addr chunk count =>
    rw [exec, execEncodeVgetContig]
    exact State.command_next_meant s _
  | readExact b =>
    rw [exec, execReadExact]
    exact State.command_next_meant s _
  | encodeVget _ | encodeGet _ _ | encodeIovm _ _ | decodeFrame _ | getWireFrame _ _ _ _ _ _
  | vgetWireFrame _ _ _ _ | iovmWireFrame _ _ _ _ _ =>
    exact State.command_next_meant s _

theorem decodeCommand_error {record : List Byte} {e : DecodeError}
    (h : decodeCommand record = .error e) : e = .malformedRecord ∨ ∃ code, e = .illegalCode code := by
  unfold decodeCommand at h
  split at h
  · cases h
    exact .inl rfl
  · split at h <;> cases h
    · exact .inr ⟨_, rfl⟩
    · exact .inl rfl

theorem runCommand_refused {record : List Byte} {s : State} {r : Refusal}
    (h : runCommand record s = .refused r) :
    r = .malformedRecord ∧ decodeCommand record = .error .malformedRecord := by
  unfold runCommand at h
  split at h
  · exact absurd h (exec_meant _ s r)
  · exact absurd h (State.command_next_meant s _ r)
  · rename_i e hcode hdec
    cases h
    rcases decodeCommand_error hdec with rfl | ⟨code, rfl⟩
    · exact ⟨rfl, hdec⟩
    · exact absurd rfl (hcode code)

theorem runFrame_refused {bytes : List Byte} {s : State} {r : Refusal}
    (h : runFrame bytes s = .refused r) : r = .malformedRecord ∧ 2 ^ 16 ≤ bytes.length := by
  unfold runFrame at h
  split at h
  · exact absurd h (exec_meant _ s r)
  · split at h
    · exact absurd h (exec_meant _ s r)
    · cases h
      exact ⟨rfl, Nat.le_of_not_lt ‹_›⟩

/-- Settles O12: every instruction has a meaning, so only an input without one is refused. -/
theorem onlyMalformedInputsAreRefused : Obligations.OnlyMalformedInputsAreRefused := by
  intro s r h
  cases hin : s.inbox with
  | nil =>
    rw [idleBlockWaits s hin] at h
    cases h
  | cons input rest =>
    rw [step_of_inbox hin] at h
    cases input with
    | command record =>
      obtain ⟨hr, hdec⟩ := runCommand_refused h
      exact ⟨hr, _, rest, rfl, .inl ⟨record, .inl rfl, hdec⟩⟩
    | frame bytes =>
      obtain ⟨hr, hlen⟩ := runFrame_refused h
      exact ⟨hr, _, rest, rfl, .inr ⟨bytes, rfl, hlen⟩⟩
    | reset => cases h
    | cutCommand record calls =>
      rw [runInput] at h
      split at h
      · cases h
      · cases h
      · rename_i r' hrun
        cases h
        obtain ⟨hr, hdec⟩ := runCommand_refused hrun
        exact ⟨hr, _, rest, rfl, .inl ⟨record, .inr ⟨calls, rfl⟩, hdec⟩⟩

end Sys2Proof.Machine
end

section
/-! PROOFS. Wire frames: the fields of each layout read back, that a frame's bytes have one reading
(rules R72 to R74), and what the frame decoder leaves of each frame (rules R115, R117). -/

namespace Sys2Proof.Machine

/-! Slices of a byte string. -/

theorem slice_cons {bs : List Byte} {a b : Nat} (hab : a < b) (hb : b ≤ bs.length) :
    slice bs a b = byteAt bs a :: slice bs (a + 1) b := by
  rw [slice, slice, show b - a = (b - (a + 1)) + 1 by omega, take_drop_succ (by omega)]

theorem slice_self (bs : List Byte) (a : Nat) : slice bs a a = [] := by
  rw [slice, Nat.sub_self, List.take_zero]

theorem slice_append_slice (bs : List Byte) {a b d : Nat} (hab : a ≤ b) (hbd : b ≤ d) :
    slice bs a b ++ slice bs b d = slice bs a d := by
  rw [slice, slice, slice, show d - a = (b - a) + (d - b) by omega, List.take_add, List.drop_drop,
    Nat.add_sub_cancel' hab]

theorem slice_length {bs : List Byte} {a b : Nat} (hb : b ≤ bs.length) :
    (slice bs a b).length = b - a := by
  rw [slice, List.length_take_of_le]
  rw [List.length_drop]
  omega

theorem slice_drop_all (bs : List Byte) (a : Nat) : slice bs a bs.length = bs.drop a := by
  rw [slice, List.take_of_length_le]
  rw [List.length_drop]

/-- A part of a byte string, read back from where it stands. -/
theorem slice_mid (xs ys zs : List Byte) {a b : Nat} (ha : a = xs.length)
    (hb : b = a + ys.length) : slice (xs ++ ys ++ zs) a b = ys := by
  rw [List.append_assoc, slice_append_right _ _ _ _ (by omega),
    slice_append_left _ _ _ _ (by omega), ha, Nat.sub_self]
  exact slice_all _ _ (by omega)

theorem allZero_iff {bs : List Byte} : allZero bs = true ↔ ∀ x ∈ bs, x = 0 := by
  simp only [allZero, List.all_eq_true, beq_iff_eq]

/-! Fields of a byte string. -/

theorem be24_injective : Function.Injective be24 := by
  intro v w h
  simp only [be24, List.cons.injEq, and_true] at h
  obtain ⟨h2, h1, h0⟩ := h
  rw [← ofBe24_be24 v, ← ofBe24_be24 w, h2, h1, h0]

theorem be32_injective : Function.Injective be32 := by
  intro v w h
  have hv : takeU32 (be32 w ++ []) = some (v, []) := takeU32_iff.2 (by rw [h])
  have hw : takeU32 (be32 w ++ []) = some (w, []) := takeU32_iff.2 rfl
  exact congrArg Prod.fst (Option.some.inj (hv.symm.trans hw))

theorem be24_be24At {bs : List Byte} {i : Nat} (h : i + 3 ≤ bs.length) :
    be24 (be24At bs i) = slice bs i (i + 3) := by
  rw [be24At, be24_ofBe24, slice_cons (by omega) h, slice_cons (by omega) h,
    slice_cons (by omega) h, slice_self]

theorem be32_be32At {bs : List Byte} {i : Nat} (h : i + 4 ≤ bs.length) :
    be32 (be32At bs i) = slice bs i (i + 4) := by
  rw [be32At, be32_ofBe32, slice_cons (by omega) h, slice_cons (by omega) h,
    slice_cons (by omega) h, slice_cons (by omega) h, slice_self]

theorem be24At_of_slice {bs : List Byte} {i : Nat} {v : U24} (h : i + 3 ≤ bs.length)
    (hs : slice bs i (i + 3) = be24 v) : be24At bs i = v :=
  be24_injective ((be24_be24At h).trans hs)

theorem be32At_of_slice {bs : List Byte} {i : Nat} {v : U32} (h : i + 4 ≤ bs.length)
    (hs : slice bs i (i + 4) = be32 v) : be32At bs i = v :=
  be32_injective ((be32_be32At h).trans hs)

theorem allZero_be24 (v : U24) : allZero (be24 v) = true ↔ v = 0 := by
  constructor
  · intro h
    refine be24_injective (?_ : be24 v = zeros 3)
    exact List.eq_replicate_iff.2 ⟨rfl, allZero_iff.1 h⟩
  · rintro rfl
    rfl

/-! Slots. -/

theorem parseSlots_slotsBytes (slots : List (Byte × U24)) :
    parseSlots (slotsBytes slots) = slots := by
  induction slots with
  | nil => rfl
  | cons slot slots ih =>
    show (slot.1, ofBe24 _ _ _) :: parseSlots (slotsBytes slots) = slot :: slots
    rw [ih, ofBe24_be24]

theorem slotsBytes_parseSlots (n : Nat) {bs : List Byte} (h : bs.length = 4 * n) :
    (parseSlots bs).length = n ∧ slotsBytes (parseSlots bs) = bs := by
  induction n generalizing bs with
  | zero =>
    rw [List.length_eq_zero_iff.1 h]
    exact ⟨rfl, rfl⟩
  | succ n ih =>
    match bs, h with
    | size :: a :: b :: d :: rest, h =>
      obtain ⟨hlen, hbs⟩ := ih (bs := rest) (by simpa [Nat.mul_add] using h)
      rw [parseSlots, slotsBytes, slotBytes, be24_ofBe24, hbs, List.length_cons, hlen]
      exact ⟨rfl, rfl⟩

theorem slotsBytes_slice {slots : List (Byte × U24)} {i : Nat} {slot : Byte × U24}
    (h : slots[i]? = some slot) :
    slice (slotsBytes slots) (4 * i) (4 * i + 4) = slotBytes slot := by
  induction slots generalizing i with
  | nil => cases h
  | cons x xs ih =>
    cases i with
    | zero =>
      cases h
      rfl
    | succ i =>
      rw [slotsBytes, slice_append_right _ _ _ _ (show 4 ≤ 4 * (i + 1) by omega)]
      exact ih h

/-! The fields of each layout. -/

/-- The fields of a GET frame stand where rule R73 puts them. -/
theorem getFrame_slices (op space flags : Byte) {pre post : List Byte} (size addr : U32)
    (hpre : pre.length = 245) (hpost : post.length = 252) :
    slice (getFrame op space flags pre size addr post) 7 252 = pre ∧
    slice (getFrame op space flags pre size addr post) 252 256 = be32 size ∧
    slice (getFrame op space flags pre size addr post) 256 260 = be32 addr ∧
    slice (getFrame op space flags pre size addr post) 260 512 = post := by
  unfold getFrame
  refine ⟨?_, ?_, ?_, ?_⟩
  · rw [List.append_assoc, List.append_assoc]
    exact slice_mid _ _ _ rfl (by rw [hpre])
  · rw [List.append_assoc _ (be32 addr)]
    exact slice_mid _ _ _ (by simp [hpre]) rfl
  · exact slice_mid _ _ _ (by simp [hpre]) rfl
  · rw [← List.append_nil (_ ++ post)]
    exact slice_mid _ _ _ (by simp [hpre]) (by rw [hpost])

/-- The fields of a VGET frame stand where rule R72 puts them. -/
theorem vgetFrame_slices (op space flags : Byte) {pre : List Byte} {slots : List (Byte × U24)}
    (hpre : pre.length = 25) (hslots : slots.length = 8) :
    slice (vgetFrame op space flags pre slots) 7 32 = pre ∧
    slice (vgetFrame op space flags pre slots) 32 64 = slotsBytes slots := by
  unfold vgetFrame
  refine ⟨slice_mid _ _ _ rfl (by rw [hpre]), ?_⟩
  rw [← List.append_nil (_ ++ slotsBytes slots)]
  exact slice_mid _ _ _ (by simp [hpre]) (by simp [hslots])

/-- The program of an IOVM_EXEC frame and what follows it (rule R74). -/
theorem iovmFrame_parts (op space flags : Byte) (prog tail : List Byte) :
    slice (iovmFrame op space flags prog tail) 8 (8 + prog.length) = prog ∧
    (iovmFrame op space flags prog tail).drop (8 + prog.length) = tail := by
  unfold iovmFrame
  exact ⟨slice_mid _ _ _ rfl rfl, List.drop_left' (by simp; omega)⟩

theorem iovmFrame_plen (op space flags : Byte) (prog tail : List Byte) :
    byteAt (iovmFrame op space flags prog tail) 7 = BitVec.ofNat 8 prog.length := rfl

/-! A byte string put together from its fields. -/

theorem slice_header {bs : List Byte} (hmagic : bs.take 4 = magic) (hl : 7 ≤ bs.length) :
    slice bs 0 7 = header (byteAt bs 4) (byteAt bs 5) (byteAt bs 6) := by
  rw [← slice_append_slice bs (Nat.zero_le 4) (by omega : 4 ≤ 7), slice_cons (by omega) hl,
    slice_cons (by omega) hl, slice_cons (by omega) hl, slice_self]
  exact congrArg (· ++ _) hmagic

theorem eq_getFrame {bs : List Byte} (hmagic : bs.take 4 = magic) (hl : bs.length = 512) :
    getFrame (byteAt bs 4) (byteAt bs 5) (byteAt bs 6) (slice bs 7 252) (be32At bs 252)
      (be32At bs 256) (slice bs 260 512) = bs := by
  rw [getFrame, ← slice_header hmagic (by omega), be32_be32At (by omega), be32_be32At (by omega),
    slice_append_slice _ (by omega) (by omega), slice_append_slice _ (by omega) (by omega),
    slice_append_slice _ (by omega) (by omega), slice_append_slice _ (by omega) (by omega),
    slice_all _ _ hl.symm]

theorem eq_vgetFrame {bs : List Byte} (hmagic : bs.take 4 = magic) (hl : bs.length = 64) :
    vgetFrame (byteAt bs 4) (byteAt bs 5) (byteAt bs 6) (slice bs 7 32)
      (parseSlots (slice bs 32 64)) = bs := by
  obtain ⟨-, hslots⟩ := slotsBytes_parseSlots 8 (slice_length (a := 32) hl.ge)
  rw [vgetFrame, ← slice_header hmagic (by omega), hslots,
    slice_append_slice _ (by omega) (by omega), slice_append_slice _ (by omega) (by omega),
    slice_all _ _ hl.symm]

theorem eq_iovmFrame {bs : List Byte} (hmagic : bs.take 4 = magic)
    (hl : 8 + (byteAt bs 7).toNat ≤ bs.length) :
    iovmFrame (byteAt bs 4) (byteAt bs 5) (byteAt bs 6) (slice bs 8 (8 + (byteAt bs 7).toNat))
      (bs.drop (8 + (byteAt bs 7).toNat)) = bs := by
  have hplen : (slice bs 8 (8 + (byteAt bs 7).toNat)).length = (byteAt bs 7).toNat := by
    rw [slice_length hl, Nat.add_sub_cancel_left]
  have hbyte : [byteAt bs 7] = slice bs 7 8 := by
    rw [slice_cons (by omega) (by omega), slice_self]
  rw [iovmFrame, ← slice_header hmagic (by omega), ← eq_ofNat_length hplen, hbyte, ← slice_drop_all,
    slice_append_slice _ (by omega) (by omega), slice_append_slice _ (by omega) (by omega),
    slice_append_slice _ (by omega) (by omega), slice_all _ _ rfl]

/-! The reader of wire frames. -/

/-- The three readings of a byte string, by its opcode and its length (rules R72 to R74, R82). -/
theorem parseFrame_iff {c : Config} {bs : List Byte} {i : Instr} :
    parseFrame c bs = some i ↔ bs.take 4 = magic ∧
      ((byteAt bs 4 = c.opVget ∧ bs.length = 64 ∧
          i = .vgetWireFrame (byteAt bs 5) (byteAt bs 6) (slice bs 7 32)
            (parseSlots (slice bs 32 64))) ∨
        (byteAt bs 4 ≠ c.opVget ∧ byteAt bs 4 = c.opGet ∧ bs.length = 512 ∧
          i = .getWireFrame (byteAt bs 5) (byteAt bs 6) (slice bs 7 252) (be32At bs 252)
            (be32At bs 256) (slice bs 260 512)) ∨
        (byteAt bs 4 ≠ c.opVget ∧ byteAt bs 4 ≠ c.opGet ∧ c.opIovm = some (byteAt bs 4) ∧
          (bs.length = 64 ∨ bs.length = 512) ∧ 8 + (byteAt bs 7).toNat ≤ bs.length ∧
          i = .iovmWireFrame (byteAt bs 4) (byteAt bs 5) (byteAt bs 6)
            (slice bs 8 (8 + (byteAt bs 7).toNat)) (bs.drop (8 + (byteAt bs 7).toNat)))) := by
  unfold parseFrame
  dsimp only
  split_ifs <;> simp_all [eq_comm]

theorem decode_frame_iff {c : Config} {bs : List Byte} {i : Instr} :
    decode c (.frame bs) = .ok i ↔ parseFrame c bs = some i := by
  unfold decode
  dsimp only
  cases parseFrame c bs <;> simp

/-- Settles O10: the fields a frame is read as, put together again, are its bytes. -/
theorem wireFramesHaveOneReading : Obligations.WireFramesHaveOneReading := by
  intro c i bs h
  obtain ⟨hmagic, ⟨hop, hl, rfl⟩ | ⟨-, hop, hl, rfl⟩ | ⟨-, -, -, hl, hplen, rfl⟩⟩ :=
    parseFrame_iff.1 (decode_frame_iff.1 h)
  · obtain ⟨hslots, -⟩ := slotsBytes_parseSlots 8 (slice_length (a := 32) hl.ge)
    refine ⟨?_, ?_⟩
    · simp [Instr.wf, slice_length, hl, hslots]
    · rw [encode, ← hop, eq_vgetFrame hmagic hl]
  · refine ⟨?_, ?_⟩
    · simp [Instr.wf, slice_length, hl]
    · rw [encode, ← hop, eq_getFrame hmagic hl]
  · have hn := (byteAt bs 7).isLt
    refine ⟨?_, ?_⟩
    · simp only [Instr.wf, Bool.and_eq_true, Bool.or_eq_true, decide_eq_true_eq, List.length_drop,
        slice_length hplen]
      omega
    · rw [encode, eq_iovmFrame hmagic hplen]

theorem wf_getWireFrame {space flags : Byte} {pre post : List Byte} {size addr : U32} :
    (Instr.getWireFrame space flags pre size addr post).wf = true ↔
      pre.length = 245 ∧ post.length = 252 := by
  simp [Instr.wf]

theorem wf_vgetWireFrame {space flags : Byte} {pre : List Byte} {slots : List (Byte × U24)} :
    (Instr.vgetWireFrame space flags pre slots).wf = true ↔
      pre.length = 25 ∧ slots.length = 8 := by
  simp [Instr.wf]

theorem wf_iovmWireFrame {op space flags : Byte} {prog tail : List Byte} :
    (Instr.iovmWireFrame op space flags prog tail).wf = true ↔ prog.length < 2 ^ 8 ∧
      (8 + prog.length + tail.length = 64 ∨ 8 + prog.length + tail.length = 512) := by
  simp [Instr.wf]

theorem parseFrame_getFrame {c : Config} (hc : c.Valid) (space flags : Byte)
    {pre post : List Byte} (size addr : U32) (hpre : pre.length = 245)
    (hpost : post.length = 252) :
    parseFrame c (getFrame c.opGet space flags pre size addr post) =
      some (.getWireFrame space flags pre size addr post) := by
  have hl := getFrame_length c.opGet space flags pre size addr post
  obtain ⟨hp, hs, ha, hq⟩ := getFrame_slices c.opGet space flags size addr hpre hpost
  refine parseFrame_iff.2 ⟨rfl, .inr (.inl ⟨(Config.valid_opcodes hc).1, rfl, by omega, ?_⟩)⟩
  rw [hp, be32At_of_slice (by omega) hs, be32At_of_slice (by omega) ha, hq]
  rfl

theorem parseFrame_vgetFrame (c : Config) (space flags : Byte) {pre : List Byte}
    {slots : List (Byte × U24)} (hpre : pre.length = 25) (hslots : slots.length = 8) :
    parseFrame c (vgetFrame c.opVget space flags pre slots) =
      some (.vgetWireFrame space flags pre slots) := by
  have hl := vgetFrame_length c.opVget space flags pre slots
  obtain ⟨hp, hs⟩ := vgetFrame_slices c.opVget space flags hpre hslots
  refine parseFrame_iff.2 ⟨rfl, .inl ⟨rfl, by omega, ?_⟩⟩
  rw [hp, hs, parseSlots_slotsBytes]
  rfl

theorem parseFrame_iovmFrame {c : Config} (hc : c.Valid) {op : Byte} (hop : c.opIovm = some op)
    (space flags : Byte) {prog tail : List Byte} (hprog : prog.length < 2 ^ 8)
    (hl : 8 + prog.length + tail.length = 64 ∨ 8 + prog.length + tail.length = 512) :
    parseFrame c (iovmFrame op space flags prog tail) =
      some (.iovmWireFrame op space flags prog tail) := by
  obtain ⟨hget, hvget⟩ := (Config.valid_opcodes hc).2 op hop
  obtain ⟨hp, ht⟩ := iovmFrame_parts op space flags prog tail
  rw [parseFrame_iff, iovmFrame_plen, ofNat_length_toNat hprog, hp, ht, iovmFrame_length]
  exact ⟨rfl, .inr (.inr ⟨hvget, hget, hop, hl, by omega, rfl⟩)⟩

/-- Settles O9: each field is read back from where its layout puts it. -/
theorem wireFramesDecodeBack : Obligations.WireFramesDecodeBack := by
  intro c i bytes hc hwf hop henc
  rw [decode_frame_iff]
  cases i with
  | getWireFrame space flags pre size addr post =>
    obtain ⟨hpre, hpost⟩ := wf_getWireFrame.1 hwf
    cases henc
    exact ⟨parseFrame_getFrame hc space flags size addr hpre hpost,
      by rw [getFrame_length]; omega⟩
  | vgetWireFrame space flags pre slots =>
    obtain ⟨hpre, hslots⟩ := wf_vgetWireFrame.1 hwf
    cases henc
    exact ⟨parseFrame_vgetFrame c space flags hpre hslots, by rw [vgetFrame_length]; omega⟩
  | iovmWireFrame op space flags prog tail =>
    obtain ⟨hprog, hl⟩ := wf_iovmWireFrame.1 hwf
    cases henc
    exact ⟨parseFrame_iovmFrame hc (hop _ _ _ _ _ rfl) space flags hprog hl,
      by rwa [iovmFrame_length]⟩
  | _ => cases henc

/-! The decode registers of a frame. -/

/-- The decoder accepts the bytes that are one of the three frames (rules R80, R116). -/
theorem checkFrame_of_parseFrame {c : Config} {bs : List Byte} {i : Instr}
    (h : parseFrame c bs = some i) : checkFrame c bs = .ok := by
  unfold checkFrame
  obtain ⟨hmagic, ⟨hop, hl, -⟩ | ⟨hv, hop, hl, -⟩ | ⟨hv, hg, hop, hl, hplen, -⟩⟩ :=
    parseFrame_iff.1 h
  · rw [if_neg (by omega), if_neg (not_not.2 hmagic), if_pos hop, if_pos hl]
  · rw [if_neg (by omega), if_neg (not_not.2 hmagic), if_neg hv, if_pos hop, if_pos hl]
  · rw [if_neg (by omega), if_neg (not_not.2 hmagic), if_neg hv, if_neg hg, if_pos hop,
      if_pos (by omega)]

/-- A wire frame past the gate is what its decoding leaves (log entry 8). -/
theorem examine_of_regs {s : State} {bs : List Byte} {d : DecodeRegs}
    (h : decodedRegs s.cfg bs = d) :
    examine bs s = { s with dec := d, out := some (.verdict d.verdict) } := by
  rw [← h]
  rfl

theorem zeroOk_getFrame {c : Config} (hc : c.Valid) (space flags : Byte) {pre post : List Byte}
    (size addr : U32) (hpre : pre.length = 245) (hpost : post.length = 252) :
    zeroOk c (getFrame c.opGet space flags pre size addr post) =
      decide ((∀ x ∈ pre, x = 0) ∧ addr.toNat < 2 ^ 24 ∧ ∀ x ∈ post, x = 0) := by
  have hl := getFrame_length c.opGet space flags pre size addr post
  obtain ⟨hp, -, ha, hq⟩ := getFrame_slices c.opGet space flags size addr hpre hpost
  have htop : byteAt (getFrame c.opGet space flags pre size addr post) 256 =
      addr.extractLsb' 24 8 := by
    rw [slice_cons (by omega) (by omega)] at ha
    exact (List.cons.inj ha).1
  have hsmall : addr.extractLsb' 24 8 = 0 ↔ addr.toNat < 2 ^ 24 := by
    have := addr.isLt
    rw [← BitVec.toNat_inj, extractByte_toNat]
    simp only [BitVec.ofNat_eq_ofNat, BitVec.toNat_ofNat]
    omega
  have hop : byteAt (getFrame c.opGet space flags pre size addr post) 4 = c.opGet := rfl
  rw [zeroOk, hop, if_neg (Config.valid_opcodes hc).1, if_pos rfl, hp, htop, hq, Bool.eq_iff_iff]
  simp only [Bool.and_eq_true, allZero_iff, beq_iff_eq, hsmall, decide_eq_true_eq, and_assoc]

/-- Settles O23, by the decode registers of an accepted GET frame. -/
theorem getWireFrameIsDecoded : Obligations.GetWireFrameIsDecoded := by
  intro s space flags pre size addr post hc hp hwf
  obtain ⟨hpre, hpost⟩ := wf_getWireFrame.1 hwf
  have hok := checkFrame_of_parseFrame (parseFrame_getFrame hc space flags size addr hpre hpost)
  have hl := getFrame_length s.cfg.opGet space flags pre size addr post
  obtain ⟨-, hs, ha, -⟩ := getFrame_slices s.cfg.opGet space flags size addr hpre hpost
  have hlen : 15 + pre.length + post.length = 512 := by omega
  rw [exec, execGetWireFrame, State.command_run hp, examine_of_regs (decodedRegs_of_get hok
    (Config.valid_opcodes hc).1 rfl), decodedHeader, be32At_of_slice (by omega) hs,
    be32At_of_slice (by omega) ha, zeroOk_getFrame hc space flags size addr hpre hpost, hl, hlen]
  rfl

/-- Where a VGET frame has its slots, byte by byte (rule R72). -/
theorem vgetFrame_slot (op space flags : Byte) {pre : List Byte} {slots : List (Byte × U24)}
    (hpre : pre.length = 25) {i : Nat} {slot : Byte × U24} (h : slots[i]? = some slot) :
    byteAt (vgetFrame op space flags pre slots) (32 + 4 * i) = slot.1 ∧
    slice (vgetFrame op space flags pre slots) (33 + 4 * i) (36 + 4 * i) = be24 slot.2 := by
  have hi : i < slots.length := (List.getElem?_eq_some_iff.1 h).1
  have hl := vgetFrame_length op space flags pre slots
  have hs : slice (vgetFrame op space flags pre slots) (32 + 4 * i) (36 + 4 * i) =
      slot.1 :: be24 slot.2 := by
    have hhead : (header op space flags ++ pre).length = 32 := by simp [hpre]
    rw [vgetFrame, slice_append_right _ _ _ _ (by omega), hhead, Nat.add_sub_cancel_left,
      show 36 + 4 * i - 32 = 4 * i + 4 by omega]
    exact slotsBytes_slice h
  rw [slice_cons (by omega) (by omega)] at hs
  rw [show 33 + 4 * i = 32 + 4 * i + 1 by omega]
  exact List.cons.inj hs

theorem zeroOk_vgetFrame (c : Config) (space flags : Byte) {pre : List Byte}
    {slots : List (Byte × U24)} (hpre : pre.length = 25) (hslots : slots.length = 8) :
    zeroOk c (vgetFrame c.opVget space flags pre slots) =
      decide ((∀ x ∈ pre, x = 0) ∧ ∀ p ∈ slots, p.1 = 0 → p.2 = 0) := by
  obtain ⟨hp, -⟩ := vgetFrame_slices c.opVget space flags hpre hslots
  have hslot : ∀ i, (hi : i < slots.length) →
      (slotZeroOk (vgetFrame c.opVget space flags pre slots) i = true ↔
        (slots[i].1 = 0 → slots[i].2 = 0)) := by
    intro i hi
    obtain ⟨hsize, haddr⟩ := vgetFrame_slot c.opVget space flags hpre
      (List.getElem?_eq_getElem hi)
    rw [slotZeroOk, hsize, haddr, Bool.or_eq_true, bne_iff_ne, allZero_be24, ne_eq,
      Decidable.imp_iff_not_or]
  have hop : byteAt (vgetFrame c.opVget space flags pre slots) 4 = c.opVget := rfl
  have hrange : List.range 8 = List.range slots.length := by rw [hslots]
  rw [zeroOk, hop, if_pos rfl, hp, hrange, Bool.eq_iff_iff, Bool.and_eq_true, allZero_iff,
    decide_eq_true_eq, List.all_eq_true]
  simp only [List.mem_range]
  exact and_congr_right fun _ => (forall_congr' fun i => forall_congr' (hslot i)).trans
    (List.forall_mem_iff_forall_getElem
      (P := fun (slot : Byte × U24) => slot.1 = 0 → slot.2 = 0)).symm

/-- Settles O24, by the decode registers of an accepted VGET frame. -/
theorem vgetWireFrameIsDecoded : Obligations.VgetWireFrameIsDecoded := by
  intro s space flags pre slots hc hp hwf
  obtain ⟨hpre, hslots⟩ := wf_vgetWireFrame.1 hwf
  have hok := checkFrame_of_parseFrame (parseFrame_vgetFrame s.cfg space flags hpre hslots)
  have hl := vgetFrame_length s.cfg.opVget space flags pre slots
  have hlen : 7 + pre.length + 4 * slots.length = 64 := by omega
  refine ⟨slotSizes (vgetFrame s.cfg.opVget space flags pre slots),
    slotAddrs (vgetFrame s.cfg.opVget space flags pre slots), ?_, fun i => ?_⟩
  · rw [exec, execVgetWireFrame, State.command_run hp,
      examine_of_regs (decodedRegs_of_vget hok rfl), decodedHeader,
      zeroOk_vgetFrame s.cfg space flags hpre hslots, hl, hlen]
    rfl
  · have hi : i.1 < slots.length := by omega
    obtain ⟨hsize, haddr⟩ := vgetFrame_slot s.cfg.opVget space flags hpre
      (List.getElem?_eq_getElem hi)
    rw [slotSizes_get, slotAddrs_get, hsize, List.getElem?_eq_getElem hi,
      be24At_of_slice (by omega) (by rwa [show 33 + 4 * i.1 + 3 = 36 + 4 * i.1 by omega])]

theorem zeroOk_iovmFrame {c : Config} (hc : c.Valid) {op : Byte} (hop : c.opIovm = some op)
    (space flags : Byte) {prog : List Byte} (tail : List Byte) (hprog : prog.length < 2 ^ 8) :
    zeroOk c (iovmFrame op space flags prog tail) = decide (∀ x ∈ tail, x = 0) := by
  obtain ⟨hget, hvget⟩ := (Config.valid_opcodes hc).2 op hop
  obtain ⟨-, ht⟩ := iovmFrame_parts op space flags prog tail
  have hop4 : byteAt (iovmFrame op space flags prog tail) 4 = op := rfl
  rw [zeroOk, hop4, if_neg hvget, if_neg hget, iovmFrame_plen, ofNat_length_toNat hprog, ht,
    Bool.eq_iff_iff, allZero_iff, decide_eq_true_eq]

/-- Settles O25, by the decode registers of an accepted IOVM_EXEC frame. -/
theorem iovmWireFrameIsDecoded : Obligations.IovmWireFrameIsDecoded := by
  intro s op space flags prog tail hc hp hop hwf
  obtain ⟨hprog, hl⟩ := wf_iovmWireFrame.1 hwf
  obtain ⟨hget, hvget⟩ := (Config.valid_opcodes hc).2 op hop
  have hok := checkFrame_of_parseFrame (parseFrame_iovmFrame hc hop space flags hprog hl)
  obtain ⟨hpart, -⟩ := iovmFrame_parts op space flags prog tail
  rw [exec, execIovmWireFrame, State.command_run hp,
    examine_of_regs (decodedRegs_of_iovm hok hvget hget), decodedHeader,
    zeroOk_iovmFrame hc hop space flags tail hprog, iovmFrame_plen, ofNat_length_toNat hprog, hpart,
    iovmFrame_length]
  rfl

end Sys2Proof.Machine
end

section
/-! PROOFS. The frames of `ENCODE_VGET`, `ENCODE_VGET_CONTIG` and `ENCODE_IOVM`, byte by byte
(rules R72, R74, R101, R104, R111). -/

namespace Sys2Proof.Machine

theorem execEncodeVget_of_ok {s : State} (hp : s.perr = false) {slots : List (U32 × U32)}
    (h : slotsOk slots = true) :
    exec (.encodeVget slots) s = .next (s.loadFrame (vgetRequest s.cfg slots)) := by
  rw [exec, execEncodeVget, State.command_run hp, buildVget, if_pos h]

/-- Settles O13: the frame is read back byte by byte, and the bytes of a VGET request are those
of its layout. -/
theorem encodeVgetWritesTheFrame : Obligations.EncodeVgetWritesTheFrame := by
  intro s slots hp hpos hle hslots
  obtain ⟨hread, hbeyond⟩ := s.frame.read_write_zero (vgetRequest s.cfg slots)
  rw [vgetRequest_length _ _ hle] at hread hbeyond
  obtain ⟨hused, hfree, hpre⟩ := vgetRequest_bytes s.cfg slots hle
  refine ⟨_, ?_, hread 0 (by omega), hread 1 (by omega), hread 2 (by omega), hread 3 (by omega),
    hread 4 (by omega), hread 5 (by omega), hread 6 (by omega), fun a h1 h2 => ?_,
    fun i size addr hi => ?_, fun a h1 h2 => ?_, hbeyond⟩
  · rw [execEncodeVget_of_ok hp ((slotsOk_iff _).2 ⟨hpos, hle, hslots⟩), State.loadFrame_eq,
      vgetRequest_length _ _ hle]
  · rw [hread a (by omega), hpre a h1 h2]
  · have hlt : i < slots.length := (List.getElem?_eq_some_iff.1 hi).1
    rw [hread _ (by omega), hread _ (by omega), hread _ (by omega), hread _ (by omega)]
    obtain ⟨hsize, hhigh, hmid, hlow⟩ := hused i size addr hi
    exact ⟨congrArg some hsize, congrArg some hhigh, congrArg some hmid, congrArg some hlow⟩
  · rw [hread a h2, hfree a h1 h2]

theorem contigOk_iff (addr chunk : U32) (count : Byte) : contigOk addr chunk count = true ↔
    1 ≤ count.toNat ∧ count.toNat ≤ 8 ∧ 1 ≤ chunk.toNat ∧ chunk.toNat ≤ 0xFF ∧
      addr.toNat + (count.toNat - 1) * chunk.toNat ≤ 0xFFFFFF := by
  simp only [contigOk, Bool.and_eq_true, decide_eq_true_eq, and_assoc]

/-- In range, `ENCODE_VGET_CONTIG` is `ENCODE_VGET` of its pieces (rule R104). -/
theorem execEncodeVgetContig_of_ok {s : State} (hp : s.perr = false) {addr chunk : U32}
    {count : Byte} (h : contigOk addr chunk count = true) :
    exec (.encodeVgetContig addr chunk count) s =
      exec (.encodeVget (contigSlots addr chunk count)) s := by
  have hcontig : exec (.encodeVgetContig addr chunk count) s =
      .next (buildVget (contigSlots addr chunk count) s) := by
    rw [exec, execEncodeVgetContig, State.command_run hp, if_pos h]
  rw [hcontig, exec, execEncodeVget, State.command_run hp]

/-- Settles O14: the frame is that of `ENCODE_VGET` for the pieces, none of whose addresses
wraps. -/
theorem encodeVgetContigWritesThePieces : Obligations.EncodeVgetContigWritesThePieces := by
  intro s addr chunk count hp hpos hle hchunk hchunk' hlast
  have hok := (contigOk_iff addr chunk count).2 ⟨hpos, hle, hchunk, hchunk', hlast⟩
  obtain ⟨hlen, hslots, hpiece⟩ := contigSlots_spec hok
  obtain ⟨-, -, hrange⟩ := (slotsOk_iff _).1 hslots
  obtain ⟨m, hexec, hm0, hm1, hm2, hm3, hm4, hm5, hm6, hpre, hused, hfree, hbeyond⟩ :=
    encodeVgetWritesTheFrame s _ hp (hlen.symm ▸ hpos) (hlen.symm ▸ hle) hrange
  refine ⟨m, (execEncodeVgetContig_of_ok hp hok).trans hexec, hm0, hm1, hm2, hm3, hm4, hm5, hm6,
    hpre, fun i hi => ?_, hlen ▸ hfree, hbeyond⟩
  obtain ⟨hget, haddr⟩ := hpiece i hi
  have h := hused i _ _ hget
  rwa [haddr] at h

theorem execEncodeIovm_of_ok {s : State} (hp : s.perr = false) {op space : Byte} {flen : U16}
    {prog : List Byte} (hop : s.cfg.opIovm = some op) (hspace : s.cfg.iovmSpace = some space)
    (h : iovmOk flen prog = true) :
    exec (.encodeIovm flen prog) s = .next (s.loadFrame (iovmRequest s.cfg op space flen prog)) := by
  have hcodes : iovmCodes s.cfg = some (op, space) := by rw [iovmCodes, hop, hspace]
  rw [exec, execEncodeIovm, State.command_run hp, buildIovm, hcodes]
  exact congrArg _ (if_pos h)

/-- The program and the unused bytes of an IOVM_EXEC frame (rules R74, R75). -/
theorem iovmRequest_bytes (c : Config) (op space : Byte) (flen : U16) (prog : List Byte) :
    (∀ i, i < prog.length → byteAt (iovmRequest c op space flen prog) (8 + i) = byteAt prog i) ∧
    (∀ a, 8 + prog.length ≤ a → byteAt (iovmRequest c op space flen prog) a = 0) := by
  have hhead : (header op space c.flagData64b ++ [BitVec.ofNat 8 prog.length]).length = 8 := rfl
  simp only [iovmRequest, iovmFrame]
  refine ⟨fun i hi => ?_, fun a ha => ?_⟩
  · rw [List.append_assoc, byteAt_append, if_neg (by omega), hhead, Nat.add_sub_cancel_left,
      byteAt_append, if_pos hi]
  · rw [byteAt_append, if_neg (by rw [List.length_append, hhead]; omega), byteAt_zeros]

/-- Settles O16: the frame is read back byte by byte, and the bytes of an IOVM_EXEC request are
those of its layout. -/
theorem encodeIovmWritesTheFrame : Obligations.EncodeIovmWritesTheFrame := by
  intro s flen prog op space hp hop hspace hflen hfit hprog
  have hok : iovmOk flen prog = true := (iovmOk_iff _ _).2 ⟨hflen, by omega, hprog⟩
  have hlen := iovmRequest_length s.cfg op space flen prog hok
  obtain ⟨hread, hbeyond⟩ := s.frame.read_write_zero (iovmRequest s.cfg op space flen prog)
  rw [hlen] at hread hbeyond
  obtain ⟨hcopy, hfree⟩ := iovmRequest_bytes s.cfg op space flen prog
  refine ⟨_, ?_, hread 0 (by omega), hread 1 (by omega), hread 2 (by omega), hread 3 (by omega),
    hread 4 (by omega), hread 5 (by omega), hread 6 (by omega), hread 7 (by omega),
    fun i hi => ?_, fun a h1 h2 => ?_, hbeyond⟩
  · rw [execEncodeIovm_of_ok hp hop hspace hok, State.loadFrame_eq, hlen]
  · rw [hread _ (by omega), hcopy i hi, getElem?_byteAt hi]
  · rw [hread a h2, hfree a h1]

end Sys2Proof.Machine
end

section
/-! PROOFS. The whole transactions: that each is its expansion (rules R94, R155, R156), and what a
response and a transaction bring back from a stream that delivers (rules R81, R145). -/

namespace Sys2Proof.Machine

/-! Expansions. -/

/-- What a transaction does after its encode, in terms of its commands (rule R94). -/
def expansion (e : U32) (bsz : U16) (t : State) : Host.Outcome State Fault Refusal :=
  if t.perr = true then .next t
  else andThen (exec .writeFrame t) fun u =>
    if u.perr = true ∨ u.st = .failed then .next u else exec (.readResponse e bsz) u

theorem transact_eq_expansion (e : U32) (bsz : U16) (t : State) :
    transact e bsz t = expansion e bsz t := by
  unfold transact expansion
  cases hp : t.perr with
  | true => rfl
  | false =>
    have hw : exec .writeFrame t = writeFrame t := State.command_run hp writeFrame
    rw [if_neg Bool.false_ne_true, if_neg Bool.false_ne_true, hw]
    cases writeFrame t with
    | fault f => rfl
    | refused r => rfl
    | next u =>
      simp only [andThen, Bool.or_eq_true, decide_eq_true_eq]
      split
      · rfl
      · rename_i hu
        have hu : u.perr = false := by simpa using fun h => hu (.inl h)
        exact (State.command_run hu (readResponse e bsz)).symm

/-- A transaction under the gate expands to its encode under the gate and the rest: an encode that
is barred leaves `PERR = 1`, which bars the rest (rule R172). -/
theorem command_transact_expands (s : State) (build : State → State) (e : U32) (bsz : U16) :
    (s.command fun s => transact e bsz (build s)) =
      andThen (s.command fun s => .next (build s)) (expansion e bsz) := by
  unfold State.command
  cases hp : s.perr with
  | true => simp [andThen, expansion, hp]
  | false => exact transact_eq_expansion e bsz (build s)

/-- Settles O46, by the expansion of a command after an encode. -/
theorem transactGetExpands : Obligations.TransactGetExpands :=
  fun s addr size => command_transact_expands s (buildGet addr size) size 512

/-- Settles O47, by the expansion of a command after an encode. -/
theorem transactVgetExpands : Obligations.TransactVgetExpands :=
  fun s slots => command_transact_expands s (buildVget slots) _ 64

/-! A response from a stream that delivers. -/

/-- The request that `s` opened completed in `t` with the `p` bytes that its stream delivers after
the first `skip`, by the reads `es`. -/
structure Delivered (e : U32) (b p skip : Nat) (s t : State) (es : List Event) : Prop where
  frame : t = { s with
    st := .complete, blk := t.blk, bfill := t.bfill, acc := t.acc, alen := p, rlen := e
    hist := s.hist ++ es ++ [.complete e], stream := t.stream, out := some (.phase .complete) }
  calls : ∀ x ∈ es, blockRead b x
  held : ∀ a, a < p → t.acc.read a = (deliverable s.stream.reads)[skip + a]?
  rest : deliverable t.stream.reads = (deliverable s.stream.reads).drop (skip + p)

/-- The data blocks from a stream that delivers them all (rules R141, R142). -/
theorem receiveData_delivers {e : U32} {b : BlockSize} {p : Nat} {s : State} (ha : s.alen = 0)
    (hdvd : blockBytes b ∣ p) (he : e.toNat ≤ p) (hd : p ≤ (deliverable s.stream.reads).length) :
    ∃ t es, receiveData e (blockBytes b) p s = .next t ∧
      Delivered e (blockBytes b) p 0 s t es := by
  obtain ⟨x, u, es, ds, hrun, hc, hr⟩ := receiveData_spec e b p s ha hdvd
  obtain ⟨u', hrun', halen, hacc, hrest⟩ := collectBlocks_delivers (p / blockBytes b)
    (blockBytes b) p s (blockBytes_pos b) (blockBytes_le b) (by omega) (by rwa [ha])
    (by rw [ha, Nat.div_mul_cancel hdvd]; omega) (by omega)
  obtain ⟨rfl, rfl⟩ : x = .ended ∧ u = u' := by
    rw [hrun] at hrun'
    exact Prod.mk.inj (Except.ok.inj hrun')
  have hend : finishResponse e p u = completeRequest e u := by
    rw [finishResponse, if_neg (by omega), if_neg (not_not.2 halen)]
  refine ⟨completeRequest e u, es, by rw [hr, ← hend], ?_, hc.calls, fun a hlt => ?_, ?_⟩
  · rw [← halen, ← hc.hist]
    nth_rw 1 [hc.frame]
    rfl
  · show u.acc.read a = _
    rw [hacc, ha, if_pos ⟨Nat.zero_le a, hlt⟩, Nat.sub_zero, Nat.zero_add]
  · rw [Nat.zero_add, ← Nat.sub_zero p, ← ha]
    exact hrest

/-- The response to a GET from a stream that delivers its ack block too (rule R140). -/
theorem receiveAck_delivers {e : U32} {b : BlockSize} {p : Nat} {s : State} (ha : s.alen = 0)
    (hdvd : blockBytes b ∣ p) (he : e.toNat ≤ p)
    (hd : blockBytes b + p ≤ (deliverable s.stream.reads).length) :
    ∃ t es, receiveAck e (blockBytes b) p s = .next t ∧
      Delivered e (blockBytes b) p (blockBytes b) s t es := by
  obtain ⟨u, ack, hack, hf, hdel, -⟩ := readExact_delivers (blockBytes b) s (by omega)
  have halen : u.alen = 0 := by rw [hf.frame]; exact ha
  obtain ⟨t, es, hr, h⟩ := receiveData_delivers (e := e) (b := b)
    (s := { u with st := .receivingBlocks }) halen hdvd he
    (by rw [hdel, List.length_drop]; omega)
  refine ⟨t, ack ++ es, by simp only [receiveAck, hack, hr], ?_,
    List.forall_mem_append.2 ⟨hf.calls, h.calls⟩, fun a hlt => ?_, ?_⟩
  · rw [h.frame, hf.frame]
    simp [hf.hist]
  · rw [h.held a hlt, Nat.zero_add]
    show (deliverable u.stream.reads)[a]? = _
    rw [hdel, List.getElem?_drop]
  · rw [h.rest, Nat.zero_add]
    show (deliverable u.stream.reads).drop p = _
    rw [hdel, List.drop_drop]

/-- The bytes that a response of `b`-byte blocks has before its data: the ack block of a GET. -/
def ackBytes (p : Phase) (b : Nat) : Nat := if p = .awaitingAck then b else 0

/-- `READ_RESPONSE` past its checks, on a stream that delivers the whole response (rule R145). -/
theorem readResponse_delivers {s : State} {e : U32} {bsz : U16} {b : BlockSize}
    (hpend : s.st.pending = true) (hb : blockSize bsz = some b) (he : 1 ≤ e.toNat)
    (hcap : paddedSize e.toNat (blockBytes b) ≤ s.cfg.accCap)
    (hd : ackBytes s.st (blockBytes b) + paddedSize e.toNat (blockBytes b) ≤
      (deliverable s.stream.reads).length) :
    ∃ t es, readResponse e bsz s = .next t ∧
      Delivered e (blockBytes b) (paddedSize e.toNat (blockBytes b))
        (ackBytes s.st (blockBytes b))
        (s.openResponse e (blockBytes b) (paddedSize e.toNat (blockBytes b))) t es := by
  have hdvd := paddedSize_dvd e.toNat (blockBytes b)
  have hle := le_paddedSize e.toNat (blockBytes b) (blockBytes_pos b)
  rw [readResponse_runs hpend hb he hcap]
  unfold ackBytes at hd ⊢
  dsimp only
  split
  · rw [if_pos ‹_›] at hd
    exact receiveAck_delivers rfl hdvd hle hd
  · rw [if_neg ‹_›, Nat.zero_add] at hd
    exact receiveData_delivers rfl hdvd hle hd

/-- `READ_RESULT` of the whole result returns the bytes delivered (rules R145, R150). -/
theorem Delivered.readResult {e : U32} {b p skip : Nat} {s t : State} {es : List Event}
    (h : Delivered e b p skip s t es) (hp : s.perr = false) (hcap : p ≤ s.cfg.accCap)
    (he : e.toNat ≤ p) (hd : skip + p ≤ (deliverable s.stream.reads).length) :
    exec (.readResult 0 e) t = .next { t with
      out := some (.bytes (((deliverable s.stream.reads).drop skip).take e.toNat)) } := by
  have hperr : t.perr = false := by rw [h.frame]; exact hp
  have hst : t.st = .complete := by rw [h.frame]
  have hrlen : t.rlen = e := by rw [h.frame]
  have hcfg : t.cfg = s.cfg := by rw [h.frame]
  refine execReadResult_of_read hperr hst (by simp [hrlen])
    ((State.memRead_ok_iff _ _ _ _ _).2 ⟨?_, ?_, fun i hi => ?_⟩)
  · simp only [State.bufferSize, hcfg, BitVec.ofNat_eq_ofNat, BitVec.toNat_ofNat]
    omega
  · rw [List.length_take_of_le]
    rw [List.length_drop]
    omega
  · show t.acc.read _ = _
    rw [List.getElem?_take_of_lt hi, List.getElem?_drop, ← h.held i (by omega)]
    exact congrArg _ (Nat.zero_add i)

/-! A transaction on a stream that delivers. -/

/-- The state in which a request waits for its response, once its encode has loaded `bs` and the
stream has taken it whole (rules R101, R108, R130). -/
def State.requested (s : State) (op : Byte) (bs : List Byte) : State :=
  { s.loadFrame bs with
    err := .noError, warn := false, alen := 0, reqOp := op, fvalid := false
    stream := (s.stream.write bs.length).2, hist := s.hist ++ [.write bs bs.length .ok]
    st := if op = s.cfg.opGet then .awaitingAck else .receivingBlocks
    out := some (.phase (if op = s.cfg.opGet then .awaitingAck else .receivingBlocks)) }

theorem State.requested_pending (s : State) (op : Byte) (bs : List Byte) :
    (s.requested op bs).st.pending = true := by
  rw [Phase.pending_iff]
  exact ite_eq_or_eq _ _ _

theorem writeFrame_loadFrame {s : State} {op : Byte} {bs : List Byte} (hp : s.st.pending = false)
    (hl : 5 ≤ bs.length) (hl' : bs.length ≤ 512) (hop : byteAt bs 4 = op)
    (hs : op = s.cfg.opGet ∨ op = s.cfg.opVget)
    (hw : (s.stream.write bs.length).1 = { n := bs.length, err := .ok }) :
    writeFrame (s.loadFrame bs) = .next (s.requested op bs) := by
  rw [writeFrame_sends (s := s.loadFrame bs) hp rfl hl (s.memRead_loadFrame hl') hop hs]
  exact congrArg _ (sendFrame_taken (s := (s.loadFrame bs).openRequest op) hw)

/-- How a transaction completed from `s` to `t`: the frame `bs` with opcode `op` sent, and `e`
bytes read back, in blocks of `b`, after the first `skip`. -/
structure Transacted (s t : State) (op : Byte) (bs : List Byte) (e : U32) (b skip : Nat)
    (es : List Event) : Prop where
  st : t.st = .complete
  rlen : t.rlen = e
  alen : t.alen = paddedSize e.toNat b
  err : t.err = .noError
  warn : t.warn = false
  perr : t.perr = false
  fvalid : t.fvalid = false
  flen : t.flen = bs.length
  reqOp : t.reqOp = op
  dec : t.dec = s.dec
  cfg : t.cfg = s.cfg
  frame : t.memRead .frame 0 bs.length = .ok bs
  hist : t.hist = s.hist ++ [.write bs bs.length .ok] ++ es ++ [.complete e]
  calls : ∀ x ∈ es, blockRead b x
  result : exec (.readResult 0 e) t = .next { t with
    out := some (.bytes (((deliverable s.stream.reads).drop skip).take e.toNat)) }
  rest : deliverable t.stream.reads =
    (deliverable s.stream.reads).drop (skip + paddedSize e.toNat b)

/-- A request that was sent and the response delivered to it make a transaction. -/
theorem Delivered.transacted {s t : State} {op : Byte} {bs : List Byte} {e : U32} {b skip : Nat}
    {es : List Event} (hp : s.perr = false) (hl : bs.length ≤ 512) (hb : 0 < b)
    (hcap : paddedSize e.toNat b ≤ s.cfg.accCap)
    (hd : skip + paddedSize e.toNat b ≤ (deliverable s.stream.reads).length)
    (h : Delivered e b (paddedSize e.toNat b) skip
      ((s.requested op bs).openResponse e b (paddedSize e.toNat b)) t es) :
    Transacted s t op bs e b skip es := by
  have hreads : ((s.requested op bs).openResponse e b (paddedSize e.toNat b)).stream.reads =
      s.stream.reads := Stream.write_reads _ _
  have hresult := h.readResult hp hcap (le_paddedSize _ _ hb) (hreads ▸ hd)
  have hrest := h.rest
  rw [hreads] at hresult hrest
  exact {
    st := congrArg State.st h.frame
    rlen := congrArg State.rlen h.frame
    alen := congrArg State.alen h.frame
    err := congrArg State.err h.frame
    warn := congrArg State.warn h.frame
    perr := (congrArg State.perr h.frame).trans hp
    fvalid := congrArg State.fvalid h.frame
    flen := congrArg State.flen h.frame
    reqOp := congrArg State.reqOp h.frame
    dec := (congrArg State.dec h.frame).trans rfl
    cfg := (congrArg State.cfg h.frame).trans rfl
    frame := h.frame ▸ s.memRead_loadFrame hl
    hist := congrArg State.hist h.frame
    calls := h.calls
    result := hresult
    rest := hrest }

/-- A transaction whose encode loaded a sendable frame, on a stream that takes it and delivers the
whole response (rules R155, R156). -/
theorem transact_delivers {s : State} {bs : List Byte} {e : U32} {bsz : U16} {b : BlockSize}
    {skip : Nat} (op : Byte) (hp : s.perr = false) (hpend : s.st.pending = false)
    (hl : 5 ≤ bs.length) (hl' : bs.length ≤ 512) (hop : byteAt bs 4 = op)
    (hs : op = s.cfg.opGet ∨ op = s.cfg.opVget)
    (hw : (s.stream.write bs.length).1 = { n := bs.length, err := .ok })
    (hb : blockSize bsz = some b) (he : 1 ≤ e.toNat)
    (hcap : paddedSize e.toNat (blockBytes b) ≤ s.cfg.accCap)
    (hskip : ackBytes (s.requested op bs).st (blockBytes b) = skip)
    (hd : skip + paddedSize e.toNat (blockBytes b) ≤ (deliverable s.stream.reads).length) :
    ∃ t es, transact e bsz (s.loadFrame bs) = .next t ∧
      Transacted s t op bs e (blockBytes b) skip es := by
  have hreads : (s.requested op bs).stream.reads = s.stream.reads := Stream.write_reads _ _
  obtain ⟨t, es, hr, h⟩ := readResponse_delivers (s := s.requested op bs)
    (s.requested_pending op bs) hb he hcap (by rwa [hskip, hreads])
  rw [hskip] at h
  refine ⟨t, es, ?_, h.transacted hp hl' (blockBytes_pos b) hcap hd⟩
  have hgo : (s.requested op bs).perr = false := hp
  have hfail : (s.requested op bs).st ≠ .failed := by
    intro hst
    have := s.requested_pending op bs
    rw [hst] at this
    cases this
  rw [transact, State.loadFrame_perr, hp, if_neg Bool.false_ne_true,
    writeFrame_loadFrame hpend hl hl' hop hs hw]
  dsimp only
  rw [hgo, if_neg (by simpa using hfail), hr]

/-- Settles O48: a GET request is sendable, and its response has an ack block. -/
theorem transactGetDelivers : Obligations.TransactGetDelivers := by
  intro s addr size hp hack hblocks hsize haddr hw hcap hd
  have hlen := getRequest_length s.cfg addr size
  have hskip : ackBytes (s.requested s.cfg.opGet (getRequest s.cfg addr size)).st 512 = 512 := by
    simp [ackBytes, State.requested]
  obtain ⟨t, es, hr, h⟩ := transact_delivers (bs := getRequest s.cfg addr size) (bsz := 512)
    (b := .b512) s.cfg.opGet hp (Phase.pending_eq_false hack hblocks) (by omega) (by omega) rfl
    (.inl rfl) (by rwa [hlen]) rfl hsize hcap hskip hd
  have hexec : exec (.transactGet addr size) s = .next t := by
    rw [exec, execTransactGet, State.command_run hp, buildGet,
      if_pos ((getOk_iff _ _).2 ⟨hsize, haddr⟩), hr]
  have hframe := h.frame
  have hhist := h.hist
  rw [hlen] at hframe hhist
  exact ⟨t, _, es, hexec, h.st, h.rlen, h.alen, h.err, h.warn, h.perr, h.fvalid,
    h.flen.trans hlen, h.reqOp, h.dec, h.cfg, hframe, hhist, h.calls, h.result, h.rest⟩

theorem slotTotal_le {slots : List (U32 × U32)} (h : ∀ p ∈ slots, p.1.toNat ≤ 0xFF) :
    slotTotal slots ≤ slots.length * 0xFF := by
  have hsum := List.sum_le_card_nsmul (slots.map fun p => p.1.toNat) 0xFF (List.forall_mem_map.2 h)
  rwa [List.length_map, smul_eq_mul] at hsum

theorem slotTotal_pos {slots : List (U32 × U32)} (hpos : 1 ≤ slots.length)
    (h : ∀ p ∈ slots, 1 ≤ p.1.toNat) : 1 ≤ slotTotal slots := by
  have hsum := List.card_nsmul_le_sum (slots.map fun p => p.1.toNat) 1 (List.forall_mem_map.2 h)
  rw [List.length_map, smul_eq_mul, Nat.mul_one] at hsum
  exact hpos.trans hsum

/-- Settles O49: a VGET request is sendable, its response has no ack block, and the total of
admitted slots fits its operand and every admitted accumulator (rules R8, R102). -/
theorem transactVgetDelivers : Obligations.TransactVgetDelivers := by
  intro s slots total hc hp hack hblocks hpos hle hslots htotal hw hd
  replace htotal : total = slotTotal slots := htotal
  have hlen := vgetRequest_length s.cfg slots hle
  have hne : s.cfg.opVget ≠ s.cfg.opGet := (Config.valid_opcodes hc).1.symm
  have hmax : total ≤ slots.length * 0xFF := htotal ▸ slotTotal_le fun p hp => (hslots p hp).2.1
  have hmin : 1 ≤ total := htotal ▸ slotTotal_pos hpos fun p hp => (hslots p hp).1
  have he : (BitVec.ofNat 32 total).toNat = total := by
    rw [BitVec.toNat_ofNat, Nat.mod_eq_of_lt (by omega)]
  obtain ⟨-, -, -, -, -, hcap⟩ := hc
  have hpad : paddedSize total 64 ≤ 2048 :=
    paddedSize_le_of_dvd (by decide) (by decide) (by omega)
  have hskip : ackBytes (s.requested s.cfg.opVget (vgetRequest s.cfg slots)).st 64 = 0 := by
    simp [ackBytes, State.requested, hne]
  obtain ⟨t, es, hr, h⟩ := transact_delivers (bs := vgetRequest s.cfg slots)
    (e := BitVec.ofNat 32 total) (bsz := 64) (b := .b64) s.cfg.opVget hp
    (Phase.pending_eq_false hack hblocks) (by omega) (by omega) rfl (.inr rfl) (by rwa [hlen]) rfl
    (by rwa [he]) (by rw [he]; exact hpad.trans hcap) hskip (by rw [he, Nat.zero_add]; exact hd)
  have hexec : exec (.transactVget slots) s = .next t := by
    rw [exec, execTransactVget, State.command_run hp, buildVget,
      if_pos ((slotsOk_iff _).2 ⟨hpos, hle, hslots⟩), ← htotal, hr]
  have halen := h.alen
  have hframe := h.frame
  have hhist := h.hist
  have hresult := h.result
  have hrest := h.rest
  rw [hlen] at hframe hhist
  rw [← h.rlen] at he hhist hresult
  rw [he] at hresult
  rw [← h.rlen, he] at halen hrest
  rw [Nat.zero_add] at hrest
  exact ⟨t, _, es, hexec, h.st, he, halen, h.err, h.warn, h.perr, h.fvalid, h.flen.trans hlen,
    h.reqOp, h.dec, h.cfg, hframe, hhist, h.calls, hresult, hrest⟩

end Sys2Proof.Machine
end

section
/-! PROOFS. The encoders as functions of the configuration and the operands (rules R101 to R113):
the one frame or fault each makes of them, and that the decoder reads an encoder's frame back
(rule R118). -/

namespace Sys2Proof.Machine

/-! What an encoder makes of its operands. -/

/-- What an encoder makes of its operands: the frame it loads, or the fault it raises. -/
abbrev Encoding := Except ProgCause (List Byte)

/-- `ENCODE_VGET` (rule R101). -/
def vgetEncoding (c : Config) (slots : List (U32 × U32)) : Encoding :=
  if slotsOk slots then .ok (vgetRequest c slots) else .error .range

/-- `ENCODE_VGET_CONTIG` (rule R104). -/
def contigEncoding (c : Config) (addr chunk : U32) (count : Byte) : Encoding :=
  if contigOk addr chunk count then vgetEncoding c (contigSlots addr chunk count)
  else .error .range

/-- `ENCODE_GET` (rule R108). -/
def getEncoding (c : Config) (addr size : U32) : Encoding :=
  if getOk addr size then .ok (getRequest c addr size) else .error .range

/-- `ENCODE_IOVM` (rules R111, R112). -/
def iovmEncoding (c : Config) (flen : U16) (prog : List Byte) : Encoding :=
  match iovmCodes c with
  | none => .error .unsupported
  | some (op, space) =>
    if iovmOk flen prog then .ok (iovmRequest c op space flen prog) else .error .range

/-- The end of an encoder: the frame loaded, or the fault raised. -/
def State.endWith (s : State) : Encoding → State
  | .ok bs => s.loadFrame bs
  | .error c => s.progFault c

theorem buildVget_eq_endWith (slots : List (U32 × U32)) (s : State) :
    buildVget slots s = s.endWith (vgetEncoding s.cfg slots) := by
  unfold buildVget vgetEncoding
  split <;> rfl

theorem exec_encodeVget {s : State} (hp : s.perr = false) (slots : List (U32 × U32)) :
    exec (.encodeVget slots) s = .next (s.endWith (vgetEncoding s.cfg slots)) := by
  rw [exec, execEncodeVget, State.command_run hp, buildVget_eq_endWith]

theorem exec_encodeVgetContig {s : State} (hp : s.perr = false) (addr chunk : U32) (count : Byte) :
    exec (.encodeVgetContig addr chunk count) s =
      .next (s.endWith (contigEncoding s.cfg addr chunk count)) := by
  rw [exec, execEncodeVgetContig, State.command_run hp, buildVget_eq_endWith, contigEncoding]
  split <;> rfl

theorem exec_encodeGet {s : State} (hp : s.perr = false) (addr size : U32) :
    exec (.encodeGet addr size) s = .next (s.endWith (getEncoding s.cfg addr size)) := by
  rw [exec, execEncodeGet, State.command_run hp, buildGet, getEncoding]
  split <;> rfl

theorem exec_encodeIovm {s : State} (hp : s.perr = false) (flen : U16) (prog : List Byte) :
    exec (.encodeIovm flen prog) s = .next (s.endWith (iovmEncoding s.cfg flen prog)) := by
  rw [exec, execEncodeIovm, State.command_run hp, buildIovm, iovmEncoding]
  cases iovmCodes s.cfg with
  | none => rfl
  | some codes =>
    dsimp only
    split <;> rfl

/-! When it is a frame. -/

theorem vgetEncoding_ok {c : Config} {slots : List (U32 × U32)} {bs : List Byte}
    (h : vgetEncoding c slots = .ok bs) : slotsOk slots = true ∧ bs = vgetRequest c slots := by
  unfold vgetEncoding at h
  split at h
  · cases h
    exact ⟨‹_›, rfl⟩
  · cases h

theorem getEncoding_ok {c : Config} {addr size : U32} {bs : List Byte}
    (h : getEncoding c addr size = .ok bs) :
    getOk addr size = true ∧ bs = getRequest c addr size := by
  unfold getEncoding at h
  split at h
  · cases h
    exact ⟨‹_›, rfl⟩
  · cases h

theorem iovmEncoding_ok {c : Config} {flen : U16} {prog bs : List Byte}
    (h : iovmEncoding c flen prog = .ok bs) : ∃ op space, c.opIovm = some op ∧
      iovmOk flen prog = true ∧ bs = iovmRequest c op space flen prog := by
  unfold iovmEncoding at h
  split at h
  · cases h
  · rename_i op space hcodes
    split at h
    · cases h
      exact ⟨op, space, iovmCodes_some hcodes, ‹_›, rfl⟩
    · cases h

/-- An encoder that ends without a fault has loaded its frame (rules R113, R172). -/
theorem endWith_frame {s t : State} {i : Instr} {r : Encoding}
    (hend : exec i s = .next (s.endWith r)) (h : exec i s = .next t) (ht : t.perr = false) :
    ∃ bs, r = .ok bs ∧ t = s.loadFrame bs := by
  cases hend.symm.trans h
  cases r with
  | ok bs => exact ⟨bs, rfl, rfl⟩
  | error c => cases ht

/-! Decoding an encoder's frame. -/

/-- An encoder's frame, read from `FRAME` and given to the decoder (rule R118). -/
theorem decode_loadFrame {s : State} (hp : s.perr = false) {bs : List Byte} {n : Nat}
    (hn : bs.length = n) (hle : n ≤ 512) :
    (s.loadFrame bs).memRead .frame 0 n = .ok bs ∧
    exec (.decodeFrame bs) (s.loadFrame bs) = .next (examine bs (s.loadFrame bs)) ∧
    (examine bs (s.loadFrame bs)).dec = decodedRegs s.cfg bs := by
  subst hn
  exact ⟨s.memRead_loadFrame hle, execDecodeFrame_of_clear (s := s.loadFrame bs) hp bs, rfl⟩

/-- A used slot of a request keeps its size and address, which fit their fields (rules R72,
R101). -/
theorem frameSlots_used {slots : List (U32 × U32)} (hok : slotsOk slots = true) {i : Nat}
    {size addr : U32} (h : slots[i]? = some (size, addr)) :
    ∃ slot, (frameSlots slots)[i]? = some slot ∧
      slot.1.toNat = size.toNat ∧ slot.2.toNat = addr.toNat := by
  obtain ⟨-, -, hrange⟩ := (slotsOk_iff _).1 hok
  obtain ⟨-, hsize, haddr⟩ : 1 ≤ size.toNat ∧ size.toNat ≤ 0xFF ∧ addr.toNat ≤ 0xFFFFFF :=
    hrange _ (List.mem_of_getElem? h)
  refine ⟨(size.setWidth 8, addr.setWidth 24), ?_, ?_, ?_⟩
  · have hi : i < slots.length := (List.getElem?_eq_some_iff.1 h).1
    rw [frameSlots, List.getElem?_append_left (by rwa [List.length_map]), List.getElem?_map, h]
    rfl
  · rw [BitVec.toNat_setWidth, Nat.mod_eq_of_lt (by omega)]
  · rw [BitVec.toNat_setWidth, Nat.mod_eq_of_lt (by omega)]

/-- An unused slot of a request is zero (rules R72, R75). -/
theorem frameSlots_unused {slots : List (U32 × U32)} {i : Nat} (h : slots.length ≤ i)
    (hi : i < 8) : (frameSlots slots)[i]? = some (0, 0) := by
  rw [frameSlots, List.getElem?_append_right (by rwa [List.length_map]), List.length_map,
    List.getElem?_replicate, if_pos (by omega)]

/-- The slot registers of a decoded VGET request are its slot fields (rules R72, R115). -/
theorem vgetRequest_slot (c : Config) {slots : List (U32 × U32)} (h8 : slots.length ≤ 8)
    {i : Fin 8} {slot : Byte × U24} (h : (frameSlots slots)[i.1]? = some slot) :
    (slotSizes (vgetRequest c slots))[i] = slot.1 ∧
    (slotAddrs (vgetRequest c slots))[i] = slot.2 := by
  have hl := vgetRequest_length c slots h8
  obtain ⟨hsize, haddr⟩ := vgetFrame_slot c.opVget c.spaceSnes
    (c.flagData64b ||| c.flagNoResponse) (zeros_length 25) h
  rw [slotSizes_get, slotAddrs_get]
  refine ⟨hsize, be24At_of_slice (by omega) ?_⟩
  rwa [show 33 + 4 * i.1 + 3 = 36 + 4 * i.1 by omega]

/-- The size and address registers of a decoded GET request (rules R73, R115). -/
theorem getRequest_fields (c : Config) (addr size : U32) :
    be32At (getRequest c addr size) 252 = size ∧ be32At (getRequest c addr size) 256 = addr := by
  have hl := getRequest_length c addr size
  obtain ⟨-, hsize, haddr, -⟩ := getFrame_slices c.opGet c.spaceSnes 0x00 size addr
    (zeros_length 245) (zeros_length 252)
  exact ⟨be32At_of_slice (by omega) hsize, be32At_of_slice (by omega) haddr⟩

/-- Settles O19: the decoder accepts the frame an encoder loads, and each operand is read back from
where the frame's layout puts it. -/
theorem encodedFramesDecodeBack : Obligations.EncodedFramesDecodeBack := by
  intro s hc hp
  refine ⟨fun slots t hexec ht => ?_, fun addr size t hexec ht => ?_,
    fun flen prog t hexec ht => ?_⟩
  · obtain ⟨bs, hbs, rfl⟩ := endWith_frame (exec_encodeVget hp slots) hexec ht
    obtain ⟨hslots, rfl⟩ := vgetEncoding_ok hbs
    obtain ⟨-, h8, -⟩ := (slotsOk_iff _).1 hslots
    obtain ⟨hok, hzero⟩ := vgetRequest_accepted s.cfg slots hslots
    obtain ⟨hread, hdec, hregs⟩ := decode_loadFrame hp (vgetRequest_length s.cfg slots h8)
      (by omega)
    rw [decodedRegs_of_vget hok rfl, decodedHeader, hzero] at hregs
    refine ⟨_, _, slotSizes (vgetRequest s.cfg slots), slotAddrs (vgetRequest s.cfg slots), hread,
      hdec, ?_⟩
    rw [hregs]
    refine ⟨rfl, rfl, rfl, rfl, rfl, rfl, rfl, fun i => ⟨fun size addr hi => ?_, fun hi => ?_⟩⟩
    · obtain ⟨slot, hslot, hsize, haddr⟩ := frameSlots_used hslots hi
      obtain ⟨hs, ha⟩ := vgetRequest_slot s.cfg h8 hslot
      exact ⟨hs ▸ hsize, ha ▸ haddr⟩
    · exact vgetRequest_slot s.cfg h8 (frameSlots_unused hi i.isLt)
  · obtain ⟨bs, hbs, rfl⟩ := endWith_frame (exec_encodeGet hp addr size) hexec ht
    obtain ⟨hget, rfl⟩ := getEncoding_ok hbs
    obtain ⟨hok, hzero⟩ := getRequest_accepted s.cfg hc addr size hget
    obtain ⟨hread, hdec, hregs⟩ := decode_loadFrame hp (getRequest_length s.cfg addr size)
      (by omega)
    obtain ⟨hsize, haddr⟩ := getRequest_fields s.cfg addr size
    rw [decodedRegs_of_get hok (Config.valid_opcodes hc).1 rfl, decodedHeader, hzero, hsize,
      haddr] at hregs
    refine ⟨_, _, hread, hdec, ?_⟩
    rw [hregs]
    exact ⟨rfl, rfl, rfl, rfl⟩
  · obtain ⟨bs, hbs, rfl⟩ := endWith_frame (exec_encodeIovm hp flen prog) hexec ht
    obtain ⟨op, space, hop, hfit, rfl⟩ := iovmEncoding_ok hbs
    obtain ⟨hget, hvget⟩ := (Config.valid_opcodes hc).2 op hop
    obtain ⟨hflen, -, hprog⟩ := (iovmOk_iff _ _).1 hfit
    have hplen : (BitVec.ofNat 8 prog.length).toNat = prog.length :=
      ofNat_length_toNat (by omega)
    obtain ⟨hok, -⟩ := iovmRequest_accepted s.cfg hc op space flen prog hop hfit
    obtain ⟨hread, hdec, hregs⟩ := decode_loadFrame hp
      (iovmRequest_length s.cfg op space flen prog hfit) (by omega)
    obtain ⟨hpart, -⟩ := iovmFrame_parts op space s.cfg.flagData64b prog
      (zeros (flen.toNat - 8 - prog.length))
    rw [decodedRegs_of_iovm hok hvget hget] at hregs
    refine ⟨_, _, BitVec.ofNat 8 prog.length, hread, hdec, ?_⟩
    rw [hregs]
    refine ⟨rfl, rfl, hplen, congrArg some ?_⟩
    rw [iovmRequest, iovmFrame_plen, hplen, hpart]

/-! The faults of the encoders. -/

theorem vgetEncoding_range {slots : List (U32 × U32)} (c : Config) (h : slotsOk slots ≠ true) :
    vgetEncoding c slots = .error .range := if_neg h

theorem contigEncoding_range {addr chunk : U32} {count : Byte} (c : Config)
    (h : contigOk addr chunk count ≠ true) : contigEncoding c addr chunk count = .error .range :=
  if_neg h

theorem getEncoding_range {addr size : U32} (c : Config) (h : getOk addr size ≠ true) :
    getEncoding c addr size = .error .range := if_neg h

theorem iovmEncoding_unsupported {c : Config} (h : c.opIovm = none ∨ c.iovmSpace = none)
    (flen : U16) (prog : List Byte) : iovmEncoding c flen prog = .error .unsupported := by
  have hcodes : iovmCodes c = none := by
    unfold iovmCodes
    rcases h with h | h
    · rw [h]
    · rw [h]
      cases c.opIovm <;> rfl
  rw [iovmEncoding, hcodes]

theorem iovmEncoding_range {c : Config} (hop : c.opIovm ≠ none) (hspace : c.iovmSpace ≠ none)
    {flen : U16} {prog : List Byte} (h : iovmOk flen prog ≠ true) :
    iovmEncoding c flen prog = .error .range := by
  obtain ⟨op, hop⟩ := Option.ne_none_iff_exists'.1 hop
  obtain ⟨space, hspace⟩ := Option.ne_none_iff_exists'.1 hspace
  have hcodes : iovmCodes c = some (op, space) := by rw [iovmCodes, hop, hspace]
  rw [iovmEncoding, hcodes]
  exact if_neg h

/-- Settles O17: operands outside their ranges fail the range check, and a fault writes nothing but
its registers and its event (rule R172). -/
theorem encodersFaultOutOfRange : Obligations.EncodersFaultOutOfRange := by
  intro s hp
  refine ⟨fun slots h => ?_, fun addr chunk count h => ?_, fun addr size h => ?_,
    fun flen prog h => ?_, fun flen prog hop hspace h => ?_⟩
  · rw [exec_encodeVget hp, vgetEncoding_range]
    · rfl
    · rw [ne_eq, slotsOk_iff]
      rintro ⟨hpos, hle, hslots⟩
      obtain h | h | ⟨p, hmem, h⟩ := h
      · omega
      · omega
      · have := hslots p hmem
        omega
  · rw [exec_encodeVgetContig hp, contigEncoding_range]
    · rfl
    · rw [ne_eq, contigOk_iff]
      omega
  · rw [exec_encodeGet hp, getEncoding_range]
    · rfl
    · rw [ne_eq, getOk_iff]
      omega
  · rw [exec_encodeIovm hp, iovmEncoding_unsupported h]
    rfl
  · rw [exec_encodeIovm hp, iovmEncoding_range hop hspace]
    · rfl
    · rw [ne_eq, iovmOk_iff]
      omega

/-! What an encoder reads. -/

/-- An encoder ends as its encoding under the configuration says (rule R113). -/
theorem encoder_endWith (c : Config) {i : Instr}
    (hi : (∃ slots, i = .encodeVget slots) ∨ (∃ a ch n, i = .encodeVgetContig a ch n) ∨
      (∃ a n, i = .encodeGet a n) ∨ (∃ f p, i = .encodeIovm f p)) :
    ∃ r : Encoding, ∀ s : State, s.cfg = c → s.perr = false → exec i s = .next (s.endWith r) := by
  obtain ⟨slots, rfl⟩ | ⟨addr, chunk, count, rfl⟩ | ⟨addr, size, rfl⟩ | ⟨flen, prog, rfl⟩ := hi
  · exact ⟨vgetEncoding c slots, fun s hs hp => hs ▸ exec_encodeVget hp slots⟩
  · exact ⟨contigEncoding c addr chunk count,
      fun s hs hp => hs ▸ exec_encodeVgetContig hp addr chunk count⟩
  · exact ⟨getEncoding c addr size, fun s hs hp => hs ▸ exec_encodeGet hp addr size⟩
  · exact ⟨iovmEncoding c flen prog, fun s hs hp => hs ▸ exec_encodeIovm hp flen prog⟩

/-- Settles O18: both states end by the same encoding, and a loaded frame reads the same whatever
`FRAME` held before. -/
theorem encodersReadOnlyTheirOperands : Obligations.EncodersReadOnlyTheirOperands := by
  intro s s' t t' i hcfg hi hp hp' hexec hexec'
  obtain ⟨r, hr⟩ := encoder_endWith s.cfg hi
  cases (hr s rfl hp).symm.trans hexec
  cases (hr s' hcfg.symm hp').symm.trans hexec'
  cases r with
  | error c => exact ⟨rfl, nofun⟩
  | ok bs =>
    refine ⟨hp.trans hp'.symm, fun _ => ⟨rfl, rfl, rfl, fun a ha => ?_⟩⟩
    have h : (s.loadFrame bs).frame.read a = some (byteAt bs a) :=
      (s.frame.read_write_zero bs).1 a ha
    have h' : (s'.loadFrame bs).frame.read a = some (byteAt bs a) :=
      (s'.frame.read_write_zero bs).1 a ha
    exact ⟨h.trans h'.symm, Option.isSome_of_eq_some h⟩

end Sys2Proof.Machine
end

section
/-! PROOFS. The frame decoder's verdict, branch by branch of `CHECK` (rule R116), the bytes
`ZERO_OK` examines (rule R117), the laws of `paddedSize` (rule R121), and `READ_FRAME` (rule
R122). -/

namespace Sys2Proof.Machine

/-! The verdict. -/

/-- A decode past the gate leaves the decode registers of its frame (rule R115). -/
theorem execDecodeFrame_dec {s t : State} {bs : List Byte} (hp : s.perr = false)
    (h : exec (.decodeFrame bs) s = .next t) : t.dec = decodedRegs s.cfg bs := by
  cases (execDecodeFrame_of_clear hp bs).symm.trans h
  rfl

theorem checkFrame_of_length {c : Config} {bs : List Byte}
    (hl : ¬ (bs.length = 64 ∨ bs.length = 512)) : checkFrame c bs = .badLength := by
  rw [checkFrame, if_pos (not_or.1 hl)]

theorem checkFrame_of_magic {c : Config} {bs : List Byte} (hl : bs.length = 64 ∨ bs.length = 512)
    (hm : bs.take 4 ≠ magic) : checkFrame c bs = .badMagic := by
  rw [checkFrame, if_neg (by omega), if_pos hm]

theorem checkFrame_of_vget {c : Config} {bs : List Byte} (hl : bs.length = 64 ∨ bs.length = 512)
    (hm : bs.take 4 = magic) (hv : byteAt bs 4 = c.opVget) :
    checkFrame c bs = if bs.length = 64 then .ok else .badLength := by
  rw [checkFrame, if_neg (by omega), if_neg (not_not.2 hm), if_pos hv]

theorem checkFrame_of_get {c : Config} {bs : List Byte} (hl : bs.length = 64 ∨ bs.length = 512)
    (hm : bs.take 4 = magic) (hv : byteAt bs 4 ≠ c.opVget)
    (hg : byteAt bs 4 = c.opGet) :
    checkFrame c bs = if bs.length = 512 then .ok else .badLength := by
  rw [checkFrame, if_neg (by omega), if_neg (not_not.2 hm), if_neg hv, if_pos hg]

theorem checkFrame_of_iovm {c : Config} {bs : List Byte} (hl : bs.length = 64 ∨ bs.length = 512)
    (hm : bs.take 4 = magic) (hv : byteAt bs 4 ≠ c.opVget)
    (hg : byteAt bs 4 ≠ c.opGet) (hi : c.opIovm = some (byteAt bs 4)) :
    checkFrame c bs = if 8 + (byteAt bs 7).toNat ≤ bs.length then .ok else .badProgramLength := by
  rw [checkFrame, if_neg (by omega), if_neg (not_not.2 hm), if_neg hv, if_neg hg, if_pos hi]
  exact if_congr (by omega) rfl rfl

theorem checkFrame_of_opcode {c : Config} {bs : List Byte} (hl : bs.length = 64 ∨ bs.length = 512)
    (hm : bs.take 4 = magic) (hv : byteAt bs 4 ≠ c.opVget)
    (hg : byteAt bs 4 ≠ c.opGet) (hi : c.opIovm ≠ some (byteAt bs 4)) :
    checkFrame c bs = .badOpcode := by
  rw [checkFrame, if_neg (by omega), if_neg (not_not.2 hm), if_neg hv, if_neg hg, if_neg hi]

/-- Settles O20, along the branches of `CHECK`; that its opcode branches exclude each other is
rule R8. -/
theorem decodeVerdictsInOrder : Obligations.DecodeVerdictsInOrder := by
  intro s t bs hc hp hexec
  obtain ⟨hgv, hiovm⟩ := Config.valid_opcodes hc
  have hmagic : ([0x55, 0x53, 0x42, 0x41] : List Byte) = magic := rfl
  rw [execDecodeFrame_dec hp hexec, decodedRegs_verdict, hmagic]
  by_cases hl : bs.length = 64 ∨ bs.length = 512
  case neg =>
    obtain ⟨h64, h512⟩ := not_or.1 hl
    simp [checkFrame_of_length hl, h64, h512]
  rw [getElem?_byteAt (by omega : 4 < bs.length), getElem?_byteAt (by omega : 7 < bs.length)]
  by_cases hm : bs.take 4 = magic
  case neg => simp [checkFrame_of_magic hl hm, hl, hm]
  by_cases hv : byteAt bs 4 = s.cfg.opVget
  case pos =>
    have hi : some s.cfg.opVget ≠ s.cfg.opIovm := fun h => (hiovm _ h.symm).2 rfl
    rw [checkFrame_of_vget hl hm hv, hv]
    rcases hl with hl | hl <;> simp [hl, hm, hgv.symm, hi]
  by_cases hg : byteAt bs 4 = s.cfg.opGet
  case pos =>
    have hi : some s.cfg.opGet ≠ s.cfg.opIovm := fun h => (hiovm _ h.symm).1 rfl
    rw [checkFrame_of_get hl hm hv hg, hg]
    rcases hl with hl | hl <;> simp [hl, hm, hgv, hi]
  by_cases hi : s.cfg.opIovm = some (byteAt bs 4)
  case neg => simp [checkFrame_of_opcode hl hm hv hg hi, hl, hm, hv, hg, Ne.symm hi]
  rw [checkFrame_of_iovm hl hm hv hg hi, hi]
  by_cases hn : 8 + (byteAt bs 7).toNat ≤ bs.length
  · simp [hl, hm, hv, hg, hn]
  · simp [hl, hm, hv, hg, hn, not_le.1 hn]

/-! `ZERO_OK`. -/

theorem allZero_slice_iff {bs : List Byte} {a b : Nat} (hb : b ≤ bs.length) :
    allZero (slice bs a b) = true ↔ ∀ i, a ≤ i → i < b → bs[i]? = some 0 := by
  refine ⟨fun h i ha hi => ?_, fun h => allZero_slice hb fun i ha hi => ?_⟩
  · have hsplit : slice bs a b = slice bs a i ++ byteAt bs i :: slice bs (i + 1) b := by
      rw [← slice_cons hi hb, slice_append_slice _ ha hi.le]
    rw [getElem?_byteAt (by omega), allZero_iff.1 h (byteAt bs i) (by simp [hsplit])]
  · have hbyte := h i ha hi
    rw [getElem?_byteAt (by omega)] at hbyte
    exact Option.some.inj hbyte

/-- A slot's check: its address bytes are zero when its size is (rule R117). -/
theorem slotZeroOk_iff {bs : List Byte} {i : Nat} (h : 36 + 4 * i ≤ bs.length) :
    slotZeroOk bs i = true ↔ (bs[32 + 4 * i]? = some 0 → bs[33 + 4 * i]? = some 0 ∧
      bs[34 + 4 * i]? = some 0 ∧ bs[35 + 4 * i]? = some 0) := by
  rw [slotZeroOk, Bool.or_eq_true, bne_iff_ne, ne_eq, ← Decidable.imp_iff_not_or,
    allZero_slice_iff h, getElem?_byteAt (by omega : 32 + 4 * i < bs.length), Option.some_inj]
  refine imp_congr_right fun _ => ⟨fun h => ⟨h _ (by omega) (by omega), h _ (by omega) (by omega),
    h _ (by omega) (by omega)⟩, ?_⟩
  rintro ⟨h0, h1, h2⟩ j hj hj'
  obtain rfl | rfl | rfl : j = 33 + 4 * i ∨ j = 34 + 4 * i ∨ j = 35 + 4 * i := by omega
  · exact h0
  · exact h1
  · exact h2

theorem zeroOk_vget_iff {c : Config} {bs : List Byte} (hv : byteAt bs 4 = c.opVget)
    (hl : bs.length = 64) : zeroOk c bs = true ↔
      (∀ a, 7 ≤ a → a < 32 → bs[a]? = some 0) ∧
      ∀ i, i < 8 → bs[32 + 4 * i]? = some 0 → bs[33 + 4 * i]? = some 0 ∧
        bs[34 + 4 * i]? = some 0 ∧ bs[35 + 4 * i]? = some 0 := by
  rw [zeroOk, if_pos hv, Bool.and_eq_true, allZero_slice_iff (by omega), List.all_eq_true]
  simp only [List.mem_range]
  exact and_congr_right fun _ => forall_congr' fun i => forall_congr' fun hi =>
    slotZeroOk_iff (by omega)

theorem zeroOk_get_iff {c : Config} {bs : List Byte} (hv : byteAt bs 4 ≠ c.opVget)
    (hg : byteAt bs 4 = c.opGet) (hl : bs.length = 512) : zeroOk c bs = true ↔
      (∀ a, 7 ≤ a → a < 252 → bs[a]? = some 0) ∧ bs[256]? = some 0 ∧
      ∀ a, 260 ≤ a → a < 512 → bs[a]? = some 0 := by
  rw [zeroOk, if_neg hv, if_pos hg, Bool.and_eq_true, Bool.and_eq_true, beq_iff_eq, and_assoc,
    allZero_slice_iff (by omega), allZero_slice_iff hl.ge,
    getElem?_byteAt (by omega : 256 < bs.length), Option.some_inj]

theorem zeroOk_iovm_iff {c : Config} {bs : List Byte} (hv : byteAt bs 4 ≠ c.opVget)
    (hg : byteAt bs 4 ≠ c.opGet) : zeroOk c bs = true ↔
      ∀ a, 8 + (byteAt bs 7).toNat ≤ a → a < bs.length → bs[a]? = some 0 := by
  rw [zeroOk, if_neg hv, if_neg hg, ← slice_drop_all, allZero_slice_iff le_rfl]

/-- Settles O22, by the bytes that `ZERO_OK` examines for each opcode. -/
theorem zeroOkExaminesTheUnusedBytes : Obligations.ZeroOkExaminesTheUnusedBytes := by
  intro s t bs hc hp hexec hok
  obtain ⟨hgv, hiovm⟩ := Config.valid_opcodes hc
  rw [execDecodeFrame_dec hp hexec] at hok ⊢
  rw [decodedRegs_verdict] at hok
  obtain ⟨-, -, -, hzero⟩ := decodedRegs_header hok
  have hl := checkFrame_ok_length hok
  rw [hzero, Option.some_inj, getElem?_byteAt (by omega : 4 < bs.length), Option.some_inj,
    Option.some_inj]
  refine ⟨rfl, fun hv => zeroOk_vget_iff hv (checkFrame_ok_vget hok hv), fun hg => ?_,
    fun hi => ?_⟩
  · have hv : byteAt bs 4 ≠ s.cfg.opVget := hg ▸ hgv
    exact zeroOk_get_iff hv hg (checkFrame_ok_get hok hv hg)
  · obtain ⟨hg, hv⟩ := hiovm _ hi.symm
    rw [zeroOk_iovm_iff hv hg, getElem?_byteAt (by omega : 7 < bs.length)]
    simp only [Option.some_inj]
    exact ⟨fun h n a hn => hn ▸ h a, fun h a => h _ a rfl⟩

/-! Padded sizes. -/

/-- A padded size is the size itself exactly at a multiple (rule R121 (d)). -/
theorem paddedSize_eq_self_iff {size b : Nat} (hb : 0 < b) :
    paddedSize size b = size ↔ size % b = 0 := by
  refine ⟨fun h => ?_, fun h => ?_⟩
  · exact Nat.mod_eq_zero_of_dvd (h ▸ paddedSize_dvd size b)
  · exact Nat.le_antisymm (paddedSize_le_of_dvd hb (Nat.dvd_of_mod_eq_zero h) le_rfl)
      (le_paddedSize size b hb)

/-- The ceiling form (rule R121 (c)): both are the multiple of `b` from the size on, and less than
one block above it. -/
theorem paddedSize_eq_ceil (size : Nat) {b : Nat} (hb : 0 < b) :
    paddedSize size b = (size + b - 1) / b * b := by
  have hdiv := Nat.div_add_mod (size + b - 1) b
  have hmod := Nat.mod_lt (size + b - 1) hb
  rw [Nat.mul_comm] at hdiv
  refine Nat.le_antisymm (paddedSize_le_of_dvd hb (Nat.dvd_mul_left _ _) (by omega)) ?_
  have hle := le_paddedSize size b hb
  exact Nat.le_of_lt_add_of_dvd (by omega) (Nat.dvd_mul_left _ _) (paddedSize_dvd size b)

/-- A padded size reaches the next multiple, so a larger size or a larger block that it divides
gives no smaller one (rule R121 (f), (g)). -/
theorem paddedSize_mono {size size' b b' : Nat} (hb : 0 < b) (hb' : 0 < b') (hd : b ∣ b')
    (hle : size ≤ size') : paddedSize size b ≤ paddedSize size' b' :=
  paddedSize_le_of_dvd hb (hd.trans (paddedSize_dvd size' b'))
    (hle.trans (le_paddedSize size' b' hb'))

/-- Settles O27: a padded size is the least multiple of the block that is at least the size. -/
theorem paddedSizeLaws : Obligations.PaddedSizeLaws := by
  intro b hb size
  have hpos : 0 < b := by omega
  have hle := le_paddedSize size b hpos
  have hlt := paddedSize_lt size b hpos
  have htop : b ∣ 2 ^ 32 := by rcases hb with rfl | rfl <;> decide
  refine ⟨Nat.mod_eq_zero_of_dvd (paddedSize_dvd size b), ⟨hle, by omega⟩,
    ⟨paddedSize_eq_ceil size hpos, fun q hd hq => paddedSize_le_of_dvd hpos hd hq⟩,
    paddedSize_eq_self_iff hpos, ⟨fun h => paddedSize_le_of_dvd hpos htop h.le, ?_⟩,
    paddedSize_mono (by decide) (by decide) (by decide) le_rfl,
    fun size' h => paddedSize_mono hpos hpos dvd_rfl h⟩
  rcases hb with rfl | rfl <;> rfl

/-! `READ_FRAME`. -/

/-- Settles O28: the frame's bytes are all there to read. -/
theorem readFrameReturnsTheUnsentFrame : Obligations.ReadFrameReturnsTheUnsentFrame := by
  intro s hp
  refine ⟨fun hv bs hle hl hbytes => ?_, fun hv => ?_⟩
  · have hread : s.memRead .frame 0 s.flen = .ok bs :=
      (State.memRead_ok_iff _ _ _ _ _).2
        ⟨by rwa [Nat.zero_add], hl, fun i hi => by rw [Nat.zero_add]; exact hbytes i hi⟩
    rw [exec, execReadFrame, State.command_run hp, if_pos hv, hread]
    rfl
  · rw [exec, execReadFrame, State.command_run hp, if_neg (Bool.eq_false_iff.1 hv)]
    rfl

end Sys2Proof.Machine
end

section
/-! PROOFS. The faults of `WRITE_FRAME` and of `READ_RESPONSE` in their order (rules R130, R140,
R172), what `READ_EXACT` can do on any stream (rule R135), and what every `READ_RESPONSE` is bound
by: the bytes and calls it takes from the stream (rules R144, R157) and what it leaves alone
(rule R142). -/

namespace Sys2Proof.Machine

/-! The faults of `WRITE_FRAME`. -/

theorem writeFrame_noFrame {s : State} (hpend : s.st.pending = false) (hv : s.fvalid = false) :
    writeFrame s = .next (s.progFault .noFrame) := by
  rw [writeFrame, hpend, if_neg Bool.false_ne_true, if_pos hv]

theorem State.memRead_of_read {s : State} {b : Buffer} {a : Nat} {x : Byte}
    (ha : a < s.bufferSize b) (h : (s.buffer b).read a = some x) : s.memRead b a 1 = .ok [x] := by
  refine (State.memRead_ok_iff _ _ _ _ _).2 ⟨ha, rfl, fun i hi => ?_⟩
  obtain rfl : i = 0 := by omega
  exact h

theorem writeFrame_unsupported {s : State} {op : Byte} (hpend : s.st.pending = false)
    (hv : s.fvalid = true) (hop : s.frame.read 4 = some op) (hget : op ≠ s.cfg.opGet)
    (hvget : op ≠ s.cfg.opVget) : writeFrame s = .next (s.progFault .unsupported) := by
  have hhead : s.memRead .frame 4 1 = .ok [op] :=
    State.memRead_of_read (by simp [State.bufferSize]) hop
  rw [writeFrame, hpend, if_neg Bool.false_ne_true, hv, if_neg (by simp), hhead]
  exact if_pos ⟨hget, hvget⟩

/-- Settles O32: each check of `WRITE_FRAME` comes before any change. -/
theorem writeFrameFaultsInOrder : Obligations.WriteFrameFaultsInOrder := by
  intro s hp
  have runs : exec .writeFrame s = writeFrame s := State.command_run hp _
  refine ⟨fun hpend => ?_, fun hack hblocks => ?_⟩
  · exact runs.trans (writeFrame_busy ((Phase.pending_iff _).2 hpend))
  · have hpend := Phase.pending_eq_false hack hblocks
    exact ⟨fun hv => runs.trans (writeFrame_noFrame hpend hv),
      fun hv op hop hget hvget => runs.trans (writeFrame_unsupported hpend hv hop hget hvget)⟩

/-! The faults of `READ_RESPONSE`. -/

/-- The two sizes that an operand admits are block sizes (rule R7). -/
theorem exists_blockBytes {n : Nat} (h : n = 64 ∨ n = 512) : ∃ b, n = blockBytes b :=
  h.elim (⟨.b64, ·⟩) (⟨.b512, ·⟩)

theorem readResponse_notPending {s : State} (hpend : s.st.pending = false) (e : U32) (bsz : U16) :
    readResponse e bsz s = .next (s.progFault .notPending) := if_pos hpend

theorem readResponse_range {s : State} {e : U32} {bsz : U16} (hpend : s.st.pending = true)
    (h : blockSize bsz = none ∨ e.toNat < 1) :
    readResponse e bsz s = .next (s.progFault .range) := by
  rw [readResponse, hpend, if_neg (by simp)]
  cases hb : blockSize bsz with
  | none => rfl
  | some b => exact if_pos (h.resolve_left (by simp [hb]))

theorem readResponse_capacity {s : State} {e : U32} {bsz : U16} {b : BlockSize}
    (hpend : s.st.pending = true) (hb : blockSize bsz = some b) (he : 1 ≤ e.toNat)
    (hcap : s.cfg.accCap < paddedSize e.toNat (blockBytes b)) :
    readResponse e bsz s = .next (s.progFault .capacity) := by
  rw [readResponse, hpend, if_neg (by simp), hb]
  dsimp only
  rw [if_neg (by omega), if_pos hcap]

/-- Settles O42: each check of `READ_RESPONSE` comes before its first read. -/
theorem readResponseFaultsInOrder : Obligations.ReadResponseFaultsInOrder := by
  intro s e bsz hp
  have runs : exec (.readResponse e bsz) s = readResponse e bsz s := State.command_run hp _
  refine ⟨fun hack hblocks => ?_, fun hst => ⟨fun hbad => ?_, fun hbsz he hcap => ?_⟩⟩
  · exact runs.trans (readResponse_notPending (Phase.pending_eq_false hack hblocks) e bsz)
  · refine runs.trans (readResponse_range ((Phase.pending_iff _).2 hst) (hbad.imp_left ?_))
    rintro ⟨h64, h512⟩
    simp [blockSize, h64, h512]
  · obtain ⟨b, hb⟩ := exists_blockBytes hbsz
    exact runs.trans (readResponse_capacity ((Phase.pending_iff _).2 hst)
      (blockSize_blockBytes b hb) he (hb ▸ hcap))

/-! `READ_EXACT` on any stream. -/

theorem streamCalls_le_length (es : List Event) : streamCalls es ≤ es.length :=
  List.length_filter_le _ _

/-- Settles O35, by what the loop of `READ_EXACT` does from an empty block. -/
theorem readExactOutcomes : Obligations.ReadExactOutcomes := by
  intro s b hp
  obtain ⟨es, ds, hf⟩ := readExact_spec (blockBytes b) s
  rcases hrun : readExact (blockBytes b) s with ⟨r, u⟩
  rw [hrun] at hf
  dsimp only at hf
  obtain rfl := hf.got
  have hfill : u.bfill = (received es).length := hf.fill.trans (Nat.zero_add _)
  have hread : ∀ a, u.blk.read a = if a < u.bfill then (received es)[a]? else s.blk.read a := by
    intro a
    rw [hf.read, hfill]
    simp
  refine ⟨u.returns (.exact r), es, ?_, ?_, hf.calls, ?_, fun pre m bytes err post he => ?_,
    hf.gave, hfill, hf.bound, fun a ha => ?_, fun a ha => ?_, ?_⟩
  · rw [execReadExact_of_clear hp, hrun]
  · have hhist : u.hist = s.hist ++ es := hf.hist
    rw [← hhist, hf.frame]
    rfl
  · exact (streamCalls_le_length es).trans hf.count
  · rw [hf.asks pre m bytes err post he, Nat.zero_add]
  · exact (hread a).trans (if_pos ha)
  · exact (hread a).trans (if_neg (Nat.not_lt.2 ha))
  · have hend := hf.outcome
    cases r with
    | full => exact .inl ⟨rfl, hend⟩
    | timeout => exact .inr (.inl ⟨rfl, hend⟩)
    | readErr => exact .inr (.inr ⟨rfl, hend⟩)

/-! What `READ_RESPONSE` takes from the stream. -/

/-- The answers of `READ_RESPONSE`: a fault, or the response to a pending request in blocks of the
size its operand names (rule R140). -/
theorem readResponse_fault_or_responds {e : U32} {bsz : U16} {s t : State}
    (h : readResponse e bsz s = .next t) :
    (∃ c, t = s.progFault c) ∨
    (s.st.pending = true ∧ ∃ b ack data tail, bsz.toNat = blockBytes b ∧
      Responded e (blockBytes b) (paddedSize e.toNat (blockBytes b)) s t ack data tail) := by
  rcases readResponse_cases e bsz s with ⟨-, hr⟩ | ⟨-, -, hr⟩ | ⟨-, -, _, -, -, hr⟩ |
    ⟨hpend, he, b, hb, hcap, -⟩
  · exact .inl ⟨_, Host.Outcome.next.inj (h.symm.trans hr)⟩
  · exact .inl ⟨_, Host.Outcome.next.inj (h.symm.trans hr)⟩
  · exact .inl ⟨_, Host.Outcome.next.inj (h.symm.trans hr)⟩
  · obtain ⟨u, ack, data, tail, hr, hresp⟩ := readResponse_responds hpend hb he hcap
    obtain rfl : t = u := Host.Outcome.next.inj (h.symm.trans hr)
    exact .inr ⟨hpend, b, ack, data, tail, blockSize_some hb, hresp⟩

/-- A run of reads that each bring bytes makes at most as many calls as it receives bytes. -/
theorem delivering.streamCalls_le {es : List Event} (h : delivering es) :
    streamCalls es ≤ bytesRead es := by
  induction es with
  | nil => exact le_rfl
  | cons x es ih =>
    obtain ⟨⟨m, bytes, rfl, hne⟩, hes⟩ := List.forall_mem_cons.1 h
    have hpos := List.length_pos_of_ne_nil hne
    have hcalls : streamCalls (.read m bytes .ok :: es) = streamCalls es + 1 := rfl
    have := ih hes
    rw [hcalls, bytesRead_read_ok]
    omega

/-- The read that ends such a run without bytes is one call more (rule R59). -/
theorem delivering.streamCalls_concat_le {pre : List Event} (h : delivering pre) (m : Nat)
    (bytes : List Byte) (err : IoStatus) :
    streamCalls (pre ++ [.read m bytes err]) ≤ bytesRead (pre ++ [.read m bytes err]) + 1 := by
  rw [streamCalls_append, bytesRead_append]
  exact Nat.add_le_add_right (h.streamCalls_le.trans (Nat.le_add_right _ _)) 1

/-- The events take at most `n` bytes from the stream, in at most `n` calls. -/
def TakesAtMost (n : Nat) (es : List Event) : Prop := bytesRead es ≤ n ∧ streamCalls es ≤ n

theorem TakesAtMost.append {m n : Nat} {xs ys : List Event} (hx : TakesAtMost m xs)
    (hy : TakesAtMost n ys) : TakesAtMost (m + n) (xs ++ ys) := by
  rw [TakesAtMost, bytesRead_append, streamCalls_append]
  exact ⟨Nat.add_le_add hx.1 hy.1, Nat.add_le_add hx.2 hy.2⟩

theorem takesAtMost_of_delivering {n : Nat} {es : List Event} (h : delivering es)
    (hn : bytesRead es ≤ n) : TakesAtMost n es := ⟨hn, h.streamCalls_le.trans hn⟩

/-- A run cut short of `n` bytes has made its last call within the bound. -/
theorem takesAtMost_of_cut {n : Nat} {es : List Event} (h : timedOut es ∨ readFailed es)
    (hn : bytesRead es < n) : TakesAtMost n es := by
  have hcalls : streamCalls es ≤ bytesRead es + 1 := by
    rcases h with ⟨pre, m, rfl, hpre⟩ | ⟨pre, m, bytes, rfl, hpre⟩
    · exact hpre.streamCalls_concat_le m [] .ok
    · exact hpre.streamCalls_concat_le m bytes .error
  exact ⟨hn.le, hcalls.trans hn⟩

theorem takesAtMost_progFault (n : Nat) (c : ProgCause) : TakesAtMost n [.progFault c] :=
  ⟨Nat.zero_le n, Nat.zero_le n⟩

/-- The data blocks take at most the padded response, and the end of a request takes nothing
(rules R142, R144). -/
theorem DataOutcome.takesAtMost {e : U32} {b p : Nat} {s t : State} {data tail : List Event}
    (h : DataOutcome e b p s t data tail) (he : e.toNat ≤ p) :
    TakesAtMost p data ∧ TakesAtMost 0 tail := by
  rcases h with ⟨-, hdel, hlen, hp, -, -, -, rfl⟩ | ⟨-, hto, hlen, -, hlt, -, -, -, -, rfl⟩ |
    ⟨-, -, hto, hlen, -, hlt, -, -, -, rfl⟩ | ⟨-, -, hto, hlen, hlt, -, -, rfl⟩ |
    ⟨-, -, hfail, hlt, -, -, -, rfl⟩
  · exact ⟨takesAtMost_of_delivering hdel (by omega), le_rfl, le_rfl⟩
  · exact ⟨takesAtMost_of_cut (.inl hto) (by omega), le_rfl, le_rfl⟩
  · exact ⟨takesAtMost_of_cut (.inl hto) (by omega), le_rfl, le_rfl⟩
  · exact ⟨takesAtMost_of_cut (.inl hto) (by omega), le_rfl, le_rfl⟩
  · exact ⟨takesAtMost_of_cut (.inr hfail) hlt, le_rfl, le_rfl⟩

/-- A whole response takes at most the ack block of a GET and the padded response (rule R144). -/
theorem Responded.takesAtMost {e : U32} {b p : Nat} {s t : State} {ack data tail : List Event}
    (h : Responded e b p s t ack data tail) (hpend : s.st.pending = true) (he : e.toNat ≤ p) :
    TakesAtMost (ackBytes s.st b + p) (ack ++ data ++ tail) := by
  have hbytes : s.st = .awaitingAck → ackBytes s.st b = b := fun hst => if_pos hst
  rcases h.outcome with ⟨hack, ho⟩ | ⟨hst, rfl, hlt, -, -, -, -, rfl, hcut⟩
  · obtain ⟨hdata, htail⟩ := ho.takesAtMost he
    have htake : TakesAtMost (ackBytes s.st b) ack := by
      rcases (Phase.pending_iff _).1 hpend with hst | hst
      · obtain ⟨hdel, hb⟩ := hack hst
        exact takesAtMost_of_delivering hdel (by rw [hbytes hst, hb])
      · rw [h.vget hst]
        exact ⟨Nat.zero_le _, Nat.zero_le _⟩
    exact (htake.append hdata).append htail
  · have htake : TakesAtMost (ackBytes s.st b) ack :=
      takesAtMost_of_cut (hcut.imp (·.2.1) (·.2)) (by rwa [hbytes hst])
    have hnone : TakesAtMost p [] := ⟨Nat.zero_le p, Nat.zero_le p⟩
    exact (htake.append hnone).append (n := 0) ⟨le_rfl, le_rfl⟩

/-- Settles O41: a fault takes nothing from the stream, and a response what its reads bring, with
one more call at most for the read that cuts it short. -/
theorem readResponseNeverOverreads : Obligations.ReadResponseNeverOverreads := by
  intro s t e bsz hp hexec
  have hr : readResponse e bsz s = .next t := (State.command_run hp _).symm.trans hexec
  rcases readResponse_fault_or_responds hr with ⟨c, rfl⟩ | ⟨hpend, b, ack, data, tail, hb, h⟩
  · exact ⟨[.progFault c], rfl, takesAtMost_progFault _ c⟩
  · rw [hb]
    exact ⟨ack ++ data ++ tail, by rw [h.hist, List.append_assoc],
      h.takesAtMost hpend (le_paddedSize _ _ (blockBytes_pos b))⟩

/-! What `READ_RESPONSE` leaves alone. -/

/-- `BLK` from `b` on and `ACC` from `p` on are the same (rule R142). -/
def KeepsBeyond (b p : Nat) (s t : State) : Prop :=
  (∀ a, b ≤ a → t.blk.read a = s.blk.read a) ∧ ∀ a, p ≤ a → t.acc.read a = s.acc.read a

theorem KeepsBeyond.trans {b p : Nat} {s t u : State} (h : KeepsBeyond b p s t)
    (h' : KeepsBeyond b p t u) : KeepsBeyond b p s u :=
  ⟨fun a ha => (h'.1 a ha).trans (h.1 a ha), fun a ha => (h'.2 a ha).trans (h.2 a ha)⟩

theorem keepsBeyond_of_same {s t : State} (hblk : t.blk = s.blk) (hacc : t.acc = s.acc)
    (b p : Nat) : KeepsBeyond b p s t :=
  ⟨fun _ _ => by rw [hblk], fun _ _ => by rw [hacc]⟩

theorem State.EndsAs.keepsBeyond {s t : State} (h : s.EndsAs t) (b p : Nat) :
    KeepsBeyond b p s t :=
  keepsBeyond_of_same (congrArg State.blk h) (congrArg State.acc h) b p

theorem Filled.keepsBeyond {b : Nat} {s t : State} {r : ExactOutcome} {es : List Event}
    {ds : List Byte} (h : Filled b { s with bfill := 0 } r t es ds) (p : Nat) :
    KeepsBeyond b p s t := by
  have hfill : t.bfill = 0 + ds.length := h.fill
  have hbound := h.bound
  refine ⟨fun a ha => ?_, fun a _ => by rw [h.frame]⟩
  rw [h.read, if_neg (by dsimp only; omega)]

theorem Collected.keepsBeyond {b p : Nat} {s t : State} {x : Assembly} {es : List Event}
    {ds : List Byte} (h : Collected b p s x t es ds) : KeepsBeyond b p s t := by
  have hfill := h.fill
  have hbound := h.bound
  exact ⟨h.blkRest, fun a ha => by rw [h.read, if_neg (by omega)]⟩

theorem receiveData_keepsBeyond {e : U32} {b : BlockSize} {p : Nat} {s t : State}
    (ha : s.alen = 0) (hdvd : blockBytes b ∣ p) (h : receiveData e (blockBytes b) p s = .next t) :
    KeepsBeyond (blockBytes b) p s t := by
  obtain ⟨x, u, es, ds, -, hc, hr⟩ := receiveData_spec e b p s ha hdvd
  cases x with
  | readFailed =>
    cases hr.symm.trans h
    exact hc.keepsBeyond.trans ((u.endsAs_fail _).keepsBeyond _ _)
  | ended =>
    cases hr.symm.trans h
    exact hc.keepsBeyond.trans ((u.endsAs_finishResponse e p).keepsBeyond _ _)

theorem receiveAck_keepsBeyond {e : U32} {b : BlockSize} {p : Nat} {s t : State}
    (ha : s.alen = 0) (hdvd : blockBytes b ∣ p) (h : receiveAck e (blockBytes b) p s = .next t) :
    KeepsBeyond (blockBytes b) p s t := by
  obtain ⟨es, ds, hf, hr⟩ := receiveAck_spec e (blockBytes b) p s
  rcases hru : readExact (blockBytes b) s with ⟨r, u⟩
  rw [hru] at hf hr
  dsimp only at hf hr
  cases r with
  | full =>
    have halen : u.alen = 0 := by rw [hf.frame]; exact ha
    exact (hf.keepsBeyond p).trans (receiveData_keepsBeyond
      (s := { u with st := .receivingBlocks }) halen hdvd (hr.symm.trans h))
  | timeout =>
    cases hr.symm.trans h
    exact (hf.keepsBeyond p).trans ((u.endsAs_fail _).keepsBeyond _ _)
  | readErr =>
    cases hr.symm.trans h
    exact (hf.keepsBeyond p).trans ((u.endsAs_fail _).keepsBeyond _ _)

theorem readResponse_keepsBeyond {e : U32} {bsz : U16} {s t : State}
    (h : readResponse e bsz s = .next t) :
    KeepsBeyond bsz.toNat (paddedSize e.toNat bsz.toNat) s t := by
  rcases readResponse_cases e bsz s with ⟨-, hr⟩ | ⟨-, -, hr⟩ | ⟨-, -, _, -, -, hr⟩ |
    ⟨-, -, b, hb, -, hr⟩ <;> have h := hr.symm.trans h
  · cases h
    exact keepsBeyond_of_same rfl rfl _ _
  · cases h
    exact keepsBeyond_of_same rfl rfl _ _
  · cases h
    exact keepsBeyond_of_same rfl rfl _ _
  · have hdvd := paddedSize_dvd e.toNat (blockBytes b)
    rw [blockSize_some hb]
    refine (keepsBeyond_of_same rfl rfl _ _).trans
      (t := s.openResponse e (blockBytes b) (paddedSize e.toNat (blockBytes b))) ?_
    dsimp only at h
    split at h
    · exact receiveAck_keepsBeyond rfl hdvd h
    · exact receiveData_keepsBeyond rfl hdvd h

/-- Settles O43: the gate and the faults touch no buffer, and a response writes within one block
and within the padded size. -/
theorem readResponseFrame : Obligations.ReadResponseFrame := by
  intro s t e bsz hexec
  have hwrites : t.stream.writes = s.stream.writes :=
    (WritesNothing.of_command hexec readResponse_recorded).writes
  rcases State.command_next.1 hexec with ⟨-, rfl⟩ | ⟨-, hr⟩
  · exact ⟨rfl, fun _ _ => rfl, fun _ _ => rfl, hwrites⟩
  · obtain ⟨hblk, hacc⟩ := readResponse_keepsBeyond hr
    refine ⟨?_, hblk, hacc, hwrites⟩
    rcases readResponse_fault_or_responds hr with ⟨c, rfl⟩ | ⟨-, b, ack, data, tail, -, h⟩
    · rfl
    · rw [h.frame]
      rfl

end Sys2Proof.Machine
end

section
/-! PROOFS. `READ_RESPONSE` on given answers: a stream that delivers the whole response (rule R145),
and one that stops before, by a timeout or an error, in the ack block or in the data blocks (rules
R140 to R142, R171, R187). -/

namespace Sys2Proof.Machine

/-! The whole response. -/

/-- Settles O36: a delivered response completes the request with `ACC` holding its bytes, so the
result can be read back. -/
theorem readResponseDeliversTheRequest : Obligations.ReadResponseDeliversTheRequest := by
  intro s e bsz hp hwarn hst hbsz he hcap ack p ds hd
  obtain ⟨b, hb⟩ := exists_blockBytes hbsz
  obtain ⟨t, es, hr, h⟩ := readResponse_delivers ((Phase.pending_iff _).2 hst)
    (blockSize_blockBytes b hb) he (hb ▸ hcap) (hb ▸ hd)
  rw [← hb] at h
  have hreqP : t.reqP.toNat = p := by
    rw [h.frame]
    exact (hb ▸ paddedSize_fits e b :)
  have hle : e.toNat ≤ p := le_paddedSize _ _ (hb ▸ blockBytes_pos b)
  exact ⟨t, es, (State.command_run hp _).trans hr, congrArg State.st h.frame,
    congrArg State.rlen h.frame, (congrArg State.warn h.frame).trans hwarn,
    (congrArg State.err h.frame).trans rfl, (congrArg State.perr h.frame).trans hp,
    congrArg State.alen h.frame, congrArg State.reqE h.frame, congrArg State.reqB h.frame, hreqP,
    congrArg State.out h.frame, congrArg State.hist h.frame, h.calls,
    h.readResult hp hcap hle hd, h.rest⟩

/-! The data blocks cut short. -/

/-- `READ_RESPONSE`, past the first `skip` bytes that the stream of `s` delivers, met the
answer `a`, which brings no bytes, in the state `u`: the reads `es` recorded, the data it keeps
before such an answer in `ACC`, and the answers `rest` still to come. -/
structure Stopped (a : ReadAnswer) (rest : List ReadAnswer) (b skip : Nat) (s u : State)
    (es : List Event) : Prop where
  frame : u = { s with
    st := u.st, blk := u.blk, bfill := u.bfill, acc := u.acc, alen := u.alen
    hist := s.hist ++ es, stream := u.stream }
  kept : u.alen = keptOf a b ((deliverable s.stream.reads).length - skip)
  held : ∀ x, x < u.alen → u.acc.read x = (deliverable s.stream.reads)[skip + x]?
  reads : u.stream.reads = rest
  calls : ∀ x ∈ es, blockRead b x
  last : ∃ pre m bytes, es = pre ++ [.read m bytes a.err] ∧ delivering pre

/-- How the request ends when the data loop stopped in `u` on the answer `a` (rules R141, R142). -/
def stoppedEnd (a : ReadAnswer) (e : U32) (p : Nat) (u : State) : State :=
  if a.err = .ok then finishResponse e p u else u.fail .readError

theorem stoppedEnd_timeout (e : U32) (p : Nat) (u : State) :
    stoppedEnd { bytes := [], err := .ok } e p u = finishResponse e p u := rfl

theorem stoppedEnd_error (bytes : List Byte) (e : U32) (p : Nat) (u : State) :
    stoppedEnd { bytes := bytes, err := .error } e p u = u.fail .readError := rfl

theorem keptOf_le (a : ReadAnswer) (b n : Nat) : keptOf a b n ≤ n := by
  unfold keptOf
  split
  · exact le_rfl
  · exact Nat.div_mul_le_self n b

/-- An assembly that stopped short of the padded size ended on the read that stopped it. -/
theorem Collected.last {a : ReadAnswer} {b p : Nat} {s u : State} {es : List Event}
    {ds : List Byte} (hc : Collected b p s (assemblyOf a) u es ds) (hlt : u.alen < p) :
    ∃ pre m bytes, es = pre ++ [.read m bytes a.err] ∧ delivering pre := by
  have hend := hc.outcome
  obtain ⟨bytes, _ | _⟩ := a
  · obtain ⟨-, hfull | ⟨-, pre, m, hes, hpre⟩⟩ := hend
    · omega
    · exact ⟨pre, m, [], hes, hpre⟩
  · obtain ⟨-, -, -, hes⟩ := hend
    exact hes

/-- The data blocks from a stream that stops before they are all there (rule R141). -/
theorem receiveData_stops {e : U32} {b : BlockSize} {p : Nat} {s : State} {a : ReadAnswer}
    {rest : List ReadAnswer} (ha : s.alen = 0) (hdvd : blockBytes b ∣ p)
    (hd : (deliverable s.stream.reads).length < p) (hu : undelivered s.stream.reads = a :: rest) :
    ∃ u es, receiveData e (blockBytes b) p s = .next (stoppedEnd a e p u) ∧
      Stopped a rest (blockBytes b) 0 s u es := by
  obtain ⟨x, u, es, ds, hrun, hc, hr⟩ := receiveData_spec e b p s ha hdvd
  obtain ⟨u', hrun', hkept, hacc, hreads⟩ := collectBlocks_stops (p / blockBytes b)
    (blockBytes b) p s a rest (blockBytes_pos b) (blockBytes_le b) (by omega) (by rwa [ha])
    (by rw [ha, Nat.div_mul_cancel hdvd]; omega) (by omega) hu
  obtain ⟨rfl, rfl⟩ : x = assemblyOf a ∧ u = u' := by
    rw [hrun] at hrun'
    exact Prod.mk.inj (Except.ok.inj hrun')
  rw [ha, Nat.zero_add] at hkept
  have hle := keptOf_le a (blockBytes b) (deliverable s.stream.reads).length
  refine ⟨u, es, ?_, ?_, hkept, fun x hx => ?_, hreads, hc.calls, hc.last (by omega)⟩
  · rw [hr]
    obtain ⟨bytes, _ | _⟩ := a <;> rfl
  · rw [← hc.hist, hc.frame]
  · rw [hacc, ha, Nat.zero_add, if_pos ⟨Nat.zero_le x, hkept ▸ hx⟩, Nat.sub_zero, Nat.zero_add]

/-- The response to a GET from a stream that delivers its ack block and stops among the data. -/
theorem receiveAck_stops {e : U32} {b : BlockSize} {p : Nat} {s : State} {a : ReadAnswer}
    {rest : List ReadAnswer} (ha : s.alen = 0) (hdvd : blockBytes b ∣ p)
    (hack : blockBytes b ≤ (deliverable s.stream.reads).length)
    (hd : (deliverable s.stream.reads).length < blockBytes b + p)
    (hu : undelivered s.stream.reads = a :: rest) :
    ∃ u es, receiveAck e (blockBytes b) p s = .next (stoppedEnd a e p u) ∧
      Stopped a rest (blockBytes b) (blockBytes b) s u es := by
  obtain ⟨v, ack, hrun, hf, hdel, hund⟩ := readExact_delivers (blockBytes b) s hack
  have halen : v.alen = 0 := by rw [hf.frame]; exact ha
  obtain ⟨u, es, hr, h⟩ := receiveData_stops (e := e) (b := b) (a := a) (rest := rest)
    (s := { v with st := .receivingBlocks }) halen hdvd
    (by rw [hdel, List.length_drop]; omega) (hund.trans hu)
  refine ⟨u, ack ++ es, by simp only [receiveAck, hrun, hr], ?_, ?_, fun x hx => ?_, h.reads,
    List.forall_mem_append.2 ⟨hf.calls, h.calls⟩, ?_⟩
  · have hhist : v.hist = s.hist ++ ack := hf.hist
    rw [← List.append_assoc, ← hhist, h.frame, hf.frame]
  · rw [h.kept, Nat.sub_zero]
    show keptOf a _ (deliverable v.stream.reads).length = _
    rw [hdel, List.length_drop]
  · rw [h.held x hx, Nat.zero_add]
    show (deliverable v.stream.reads)[x]? = _
    rw [hdel, List.getElem?_drop]
  · obtain ⟨pre, m, bytes, rfl, hpre⟩ := h.last
    exact ⟨ack ++ pre, m, bytes, (List.append_assoc _ _ _).symm,
      delivering_append hf.outcome.2 hpre⟩

/-- `READ_RESPONSE` past its checks, on a stream that delivers the ack block, if there is one, and
stops among the data. -/
theorem readResponse_stops {s : State} {e : U32} {bsz : U16} {b : BlockSize} {a : ReadAnswer}
    {rest : List ReadAnswer} (hpend : s.st.pending = true) (hb : blockSize bsz = some b)
    (he : 1 ≤ e.toNat) (hcap : paddedSize e.toNat (blockBytes b) ≤ s.cfg.accCap)
    (hack : ackBytes s.st (blockBytes b) ≤ (deliverable s.stream.reads).length)
    (hd : (deliverable s.stream.reads).length <
      ackBytes s.st (blockBytes b) + paddedSize e.toNat (blockBytes b))
    (hu : undelivered s.stream.reads = a :: rest) :
    ∃ u es, readResponse e bsz s =
        .next (stoppedEnd a e (paddedSize e.toNat (blockBytes b)) u) ∧
      Stopped a rest (blockBytes b) (ackBytes s.st (blockBytes b))
        (s.openResponse e (blockBytes b) (paddedSize e.toNat (blockBytes b))) u es := by
  have hdvd := paddedSize_dvd e.toNat (blockBytes b)
  rw [readResponse_runs hpend hb he hcap]
  unfold ackBytes at hack hd ⊢
  dsimp only
  split
  · rw [if_pos ‹_›] at hack hd
    exact receiveAck_stops rfl hdvd hack hd hu
  · rw [if_neg ‹_›, Nat.zero_add] at hd
    exact receiveData_stops rfl hdvd hd hu

theorem finishResponse_short {e : U32} {p : Nat} {s : State} (h : s.alen < e.toNat) :
    finishResponse e p s = s.fail .shortResponse := if_pos h

theorem finishResponse_warned {e : U32} {p : Nat} {s : State} (h : e.toNat ≤ s.alen)
    (hp : s.alen ≠ p) (hcfg : s.cfg.mismatchIsError = false) : finishResponse e p s =
      completeRequest e ({ s with warn := true }.emit (.mismatch s.alen p)) := by
  rw [finishResponse, if_neg (Nat.not_lt.2 h), if_pos hp]
  simp [hcfg]

theorem finishResponse_mismatch {e : U32} {p : Nat} {s : State} (h : e.toNat ≤ s.alen)
    (hp : s.alen ≠ p) (hcfg : s.cfg.mismatchIsError = true) : finishResponse e p s =
      ({ s with warn := true }.emit (.mismatch s.alen p)).fail .mismatch := by
  rw [finishResponse, if_neg (Nat.not_lt.2 h), if_pos hp]
  simp [hcfg]

/-- Settles O37: the data loop ended on the timeout with all `n` bytes, and by their count the
request ends. -/
theorem readResponseEndsByTimeout : Obligations.ReadResponseEndsByTimeout := by
  intro s e bsz n rest hp hst hbsz he hcap ack p ds hn hlt hu
  obtain ⟨b, hb⟩ := exists_blockBytes hbsz
  have hack : ackBytes s.st (blockBytes b) = ack := by rw [← hb]; rfl
  have hpad : paddedSize e.toNat (blockBytes b) = p := by rw [← hb]
  obtain ⟨u, es, hr, h⟩ := readResponse_stops ((Phase.pending_iff _).2 hst)
    (blockSize_blockBytes b hb) he (hpad ▸ hcap) (by rw [hack]; exact hn ▸ Nat.le_add_right _ _)
    (by rw [hack, hpad]; exact hn ▸ Nat.add_lt_add_left hlt _) hu
  rw [hack, hpad, ← hb] at h
  rw [stoppedEnd_timeout, hpad] at hr
  have halen : u.alen = n := h.kept.trans (Nat.sub_eq_of_eq_add' hn)
  have hhist : u.hist = s.hist ++ es := congrArg State.hist h.frame
  have hwarn : u.warn = s.warn := (congrArg State.warn h.frame).trans rfl
  have herr : u.err = s.err := (congrArg State.err h.frame).trans rfl
  have hcfg : u.cfg = s.cfg := (congrArg State.cfg h.frame).trans rfl
  have hend := u.endsAs_finishResponse e p
  refine ⟨finishResponse e p u, es, (State.command_run hp _).trans hr,
    (congrArg State.alen hend).trans halen, (congrArg (·.stream.reads) hend).trans h.reads,
    fun a ha => ?_, h.calls, fun hshort => ?_, fun hle hcfg' => ?_, fun hle hcfg' => ?_⟩
  · exact (congrArg (·.acc.read a) hend).trans (h.held a (halen ▸ ha))
  · rw [finishResponse_short (halen ▸ hshort)]
    exact ⟨rfl, rfl, hwarn, by rw [State.fail_hist, hhist]⟩
  · rw [finishResponse_warned (halen ▸ hle) (by omega) (hcfg ▸ hcfg'), halen]
    exact ⟨rfl, rfl, rfl, herr, by simp [completeRequest, hhist]⟩
  · rw [finishResponse_mismatch (halen ▸ hle) (by omega) (hcfg ▸ hcfg'), halen]
    exact ⟨rfl, rfl, rfl, by simp [hhist]⟩

/-! The ack block cut short. -/

/-- The cause of a request that fails in its ack block on the answer `a` (rule R140). -/
def ackError (a : ReadAnswer) : ErrCode := if a.err = .ok then .ackTimeout else .readError

/-- `READ_RESPONSE` past its checks, on a stream that stops within the ack block (rule R140). -/
theorem readResponse_cutInAck {s : State} {e : U32} {bsz : U16} {b : BlockSize} {a : ReadAnswer}
    {rest : List ReadAnswer} (hst : s.st = .awaitingAck) (hb : blockSize bsz = some b)
    (he : 1 ≤ e.toNat) (hcap : paddedSize e.toNat (blockBytes b) ≤ s.cfg.accCap)
    (hd : (deliverable s.stream.reads).length < blockBytes b)
    (hu : undelivered s.stream.reads = a :: rest) :
    ∃ u es, readResponse e bsz s = .next (u.fail (ackError a)) ∧
      Filled (blockBytes b) { s.openResponse e (blockBytes b)
          (paddedSize e.toNat (blockBytes b)) with bfill := 0 }
        (endingOf a) u es (deliverable s.stream.reads) ∧
      u.stream.reads = rest := by
  obtain ⟨u, es, hrun, hf, hreads⟩ := readExact_stops (blockBytes b)
    (s.openResponse e (blockBytes b) (paddedSize e.toNat (blockBytes b))) a rest hd hu
  refine ⟨u, es, ?_, hf, hreads⟩
  rw [readResponse_runs ((Phase.pending_iff _).2 (.inl hst)) hb he hcap]
  dsimp only
  rw [if_pos hst, receiveAck, hrun]
  obtain ⟨bytes, _ | _⟩ := a <;> rfl

/-- Settles O38: the ack block's reads are all there were, the last of them the timeout. -/
theorem readResponseEndsByAckTimeout : Obligations.ReadResponseEndsByAckTimeout := by
  intro s e bsz rest hp hst hbsz he hcap ds hd hu
  obtain ⟨b, hb⟩ := exists_blockBytes hbsz
  rw [hb] at hcap hd ⊢
  obtain ⟨u, es, hr, hf, hreads⟩ := readResponse_cutInAck hst (blockSize_blockBytes b hb) he hcap
    hd hu
  obtain ⟨-, pre, rfl, hpre⟩ := hf.outcome
  have hfill : u.bfill = ds.length := hf.fill.trans (Nat.zero_add _)
  have hgot : received pre = ds := by
    have := hf.got
    rwa [received_append, show received [.read _ [] .ok] = [] from rfl, List.append_nil] at this
  have hhist : u.hist = s.hist ++ (pre ++ [.read (blockBytes b - ds.length) [] .ok]) :=
    hfill ▸ hf.hist
  refine ⟨u.fail .ackTimeout, pre, (State.command_run hp _).trans hr, rfl, rfl,
    (congrArg State.warn hf.frame).trans rfl, (congrArg State.rlen hf.frame).trans rfl,
    (congrArg State.perr hf.frame).trans hp, rfl, (congrArg State.alen hf.frame).trans rfl,
    (congrArg State.acc hf.frame).trans rfl, hfill, fun a ha => ?_, hreads, hpre,
    fun x hx => hf.calls x (List.mem_append_left _ hx), hgot, ?_⟩
  · have ha : a < ds.length := hfill ▸ ha
    show u.blk.read a = _
    rw [hf.read, if_pos ⟨Nat.zero_le a, (Nat.zero_add _).symm ▸ ha⟩]
    rfl
  · rw [State.fail_hist, hhist]
    simp

/-! A failed read. -/

/-- An ack block cut short keeps no data. -/
theorem Filled.stoppedInAck {a : ReadAnswer} {rest : List ReadAnswer} {b : Nat} {s u : State}
    {es : List Event} (hf : Filled b { s with bfill := 0 } (endingOf a) u es
      (deliverable s.stream.reads)) (ha : s.alen = 0)
    (hd : (deliverable s.stream.reads).length < b) (hreads : u.stream.reads = rest) :
    Stopped a rest b b s u es := by
  have halen : u.alen = 0 := by rw [hf.frame]; exact ha
  have hnone : keptOf a b 0 = 0 := Nat.le_zero.1 (keptOf_le a b 0)
  refine ⟨?_, ?_, fun x hx => absurd (halen ▸ hx) (Nat.not_lt_zero x), hreads, hf.calls, ?_⟩
  · have hhist : u.hist = s.hist ++ es := hf.hist
    rw [← hhist, hf.frame]
  · rw [halen, Nat.sub_eq_zero_of_le hd.le, hnone]
  · have hend := hf.outcome
    obtain ⟨bytes, _ | _⟩ := a
    · obtain ⟨-, pre, hes, hpre⟩ := hend
      exact ⟨pre, _, [], hes, hpre⟩
    · obtain ⟨-, pre, bytes, hes, hpre⟩ := hend
      exact ⟨pre, _, bytes, hes, hpre⟩

/-- A read that fails before the whole response is there fails the request, in the ack block as in
the data (rules R140, R141). -/
theorem readResponse_readError {s : State} {e : U32} {bsz : U16} {b : BlockSize}
    {bytes : List Byte} {rest : List ReadAnswer} (hpend : s.st.pending = true)
    (hb : blockSize bsz = some b) (he : 1 ≤ e.toNat)
    (hcap : paddedSize e.toNat (blockBytes b) ≤ s.cfg.accCap)
    (hd : (deliverable s.stream.reads).length <
      ackBytes s.st (blockBytes b) + paddedSize e.toNat (blockBytes b))
    (hu : undelivered s.stream.reads = { bytes := bytes, err := .error } :: rest) :
    ∃ u es, readResponse e bsz s = .next (u.fail .readError) ∧
      Stopped { bytes := bytes, err := .error } rest (blockBytes b)
        (ackBytes s.st (blockBytes b))
        (s.openResponse e (blockBytes b) (paddedSize e.toNat (blockBytes b))) u es := by
  by_cases hack : ackBytes s.st (blockBytes b) ≤ (deliverable s.stream.reads).length
  · simpa only [stoppedEnd_error] using readResponse_stops hpend hb he hcap hack hd hu
  · have hst : s.st = .awaitingAck := by
      by_contra hst
      exact hack (by rw [ackBytes, if_neg hst]; exact Nat.zero_le _)
    have hbytes : ackBytes s.st (blockBytes b) = blockBytes b := if_pos hst
    rw [hbytes] at hack ⊢
    obtain ⟨u, es, hr, hf, hreads⟩ := readResponse_cutInAck hst hb he hcap (by omega) hu
    exact ⟨u, es, hr, hf.stoppedInAck rfl (Nat.not_le.1 hack) hreads⟩

/-- Settles O39: the failed read is the last one, and only whole data blocks precede it in `ACC`. -/
theorem readResponseEndsByReadError : Obligations.ReadResponseEndsByReadError := by
  intro s e bsz bytes rest hp hst hbsz he hcap ack ds hd hu
  obtain ⟨b, hb⟩ := exists_blockBytes hbsz
  obtain ⟨u, es, hr, h⟩ := readResponse_readError ((Phase.pending_iff _).2 hst)
    (blockSize_blockBytes b hb) he (hb ▸ hcap) (hb ▸ hd) hu
  rw [← hb] at h
  obtain ⟨pre, m, x, rfl, hpre⟩ := h.last
  have hhist : u.hist = s.hist ++ (pre ++ [.read m x .error]) := congrArg State.hist h.frame
  refine ⟨u.fail .readError, pre, m, x, (State.command_run hp _).trans hr, rfl, rfl,
    (congrArg State.warn h.frame).trans rfl, (congrArg State.rlen h.frame).trans rfl,
    (congrArg State.perr h.frame).trans hp, rfl, h.kept, h.held, h.reads, hpre,
    fun y hy => h.calls y (List.mem_append_left _ hy), ?_⟩
  rw [State.fail_hist, hhist]
  simp

end Sys2Proof.Machine
end

section
/-! PROOFS. What a fault bars (rule R172): `READ_STATUS` is the one instruction outside the gate, so
a faulted block does nothing else. -/

namespace Sys2Proof.Machine

/-- The gate of rule R172, closed. -/
theorem State.command_barred {s : State} (h : s.perr = true)
    (body : State → Host.Outcome State Fault Refusal) : s.command body = .next s.returnsNothing :=
  if_pos h

/-- Every instruction but `READ_STATUS` runs its body behind the gate of rule R172. That this holds
of the wire frames and of `READ_EXACT` too is the model's choice (log entries 8 and 14). -/
theorem exec_gated {i : Instr} (hi : i ≠ .readStatus) :
    ∃ body, ∀ s, exec i s = s.command body := by
  cases i with
  | readStatus => exact absurd rfl hi
  | _ => exact ⟨_, fun _ => rfl⟩

/-- Settles O50: `READ_STATUS` alone is not gated, and the closed gate lets nothing past it. -/
theorem faultBarsEveryOtherCommand : Obligations.FaultBarsEveryOtherCommand := by
  intro s i hp hi
  obtain ⟨body, hexec⟩ := exec_gated hi
  calc exec i s = s.command body := hexec s
    _ = .next s.returnsNothing := State.command_barred hp body

end Sys2Proof.Machine
end

section
/-! PROOFS. Reset (rules R195, R197): the reset input, and a reset that cuts a command after some of
the stream calls it makes. The key fact is that every instruction records its stream calls, so the
history it adds says which stream each cut leaves. -/

namespace Sys2Proof.Machine

/-! What an instruction records. -/

/-- A command that the gate bars records nothing (rule R172), so only its body matters. -/
theorem recorded_of_command {s t : State} {body : State → Host.Outcome State Fault Refusal}
    (h : s.command body = .next t) (hb : body s = .next t → ∃ es, Recorded s t es) :
    ∃ es, Recorded s t es := by
  rcases State.command_next.1 h with ⟨-, rfl⟩ | ⟨-, h⟩
  · exact ⟨[], .silent rfl rfl⟩
  · exact hb h

/-- A transaction records what its encode does, a fault or nothing, and then its transport calls
(rules R94, R155, R156). -/
theorem transaction_recorded {s t : State} {e : U32} {bsz : U16} {build : State → State}
    (h : (s.command fun s => transact e bsz (build s)) = .next t) (hb : Encoded s (build s)) :
    ∃ es, Recorded s t es := by
  refine recorded_of_command h fun h => ?_
  obtain ⟨es, hrec, -⟩ := hb.writesNothing
  obtain ⟨es', hrec'⟩ := transact_recorded h
  exact ⟨es ++ es', hrec.trans hrec'⟩

/-- Every instruction appends events to the history, and the stream calls among them are the ones
it made (rules R36, R58, R59). -/
theorem exec_recorded {s t : State} {i : Instr} (h : exec i s = .next t) :
    ∃ es, Recorded s t es := by
  rcases exec_writesNothing_or_writer h with hw | ⟨es, hrec, -⟩
  · rcases hw with rfl | ⟨addr, size, rfl⟩ | ⟨slots, rfl⟩
    · exact recorded_of_command h writeFrame_recorded
    · exact transaction_recorded h (encoded_buildGet addr size s)
    · exact transaction_recorded h (encoded_buildVget slots s)
  · exact ⟨es, hrec⟩

/-- A code outside the table makes no stream call, be it barred or a fault (rules R92, R172). -/
theorem runCommand_illegalCode {s : State} {record : List Byte} {code : Byte}
    (h : decodeCommand record = .error (.illegalCode code)) :
    ∃ t es, runCommand record s = .next t ∧ Recorded s t es ∧ t.stream = s.stream ∧
      streamCalls es = 0 := by
  have hrun : runCommand record s = s.command fun s => .next (s.progFault .illegalCmd) := by
    rw [runCommand, decode, h]
  rw [hrun]
  cases hp : s.perr with
  | true => exact ⟨_, [], State.command_barred hp _, .silent rfl rfl, rfl, rfl⟩
  | false => exact ⟨_, _, State.command_run hp _, recorded_progFault s .illegalCmd, rfl, rfl⟩

/-! Steps that reset. -/

theorem Stream.replay_zero (es : List Event) (t : Stream) : Stream.replay 0 es t = t := by
  rw [Stream.replay]

/-- A cut of a command that runs to its end replays the first of its recorded calls on the stream,
from the reset state (log entry 13). -/
theorem step_cutCommand {s t : State} {record : List Byte} {k : Nat} {rest : List HostInput}
    {es : List Event} (hin : s.inbox = .cutCommand record k :: rest)
    (hrun : runCommand record { s with inbox := rest } = .next t)
    (hrec : Recorded { s with inbox := rest } t es) :
    step s = .next { State.resetWith s.cfg with
      stream := s.stream.replay k es, inbox := rest } := by
  rw [step_of_inbox hin, runInput, hrun]
  exact congrArg Host.Outcome.next (hrec.cutBy k)

/-- Settles O4: the input's meaning is the hard reset. -/
theorem resetInputLeavesOnlyTheStream : Obligations.ResetInputLeavesOnlyTheStream :=
  fun _ _ hin => step_of_inbox hin

/-- Settles O5: the cut replays the recorded calls, and the whole command's stream is all of them
replayed; a code outside the table records no call to replay. -/
theorem cutCommandLeavesOnlyItsStreamCalls :
    Obligations.CutCommandLeavesOnlyItsStreamCalls := by
  intro s record k rest hin
  refine ⟨fun i t hdec hexec => ?_, fun code hdec => ?_⟩
  · obtain ⟨es, hrec⟩ := exec_recorded hexec
    have hrun : runCommand record { s with inbox := rest } = .next t :=
      (runCommand_of_decode (s := { s with inbox := rest }) hdec).trans hexec
    refine ⟨es, hrec.hist, step_cutCommand hin hrun hrec, ?_, hrec.replay_all⟩
    rintro rfl
    exact Stream.replay_zero es s.stream
  · obtain ⟨t, es, hrun, hrec, hstream, hcalls⟩ :=
      runCommand_illegalCode (s := { s with inbox := rest }) hdec
    have hreplay : s.stream.replay k es = s.stream :=
      (hrec.replay_all (hcalls ▸ Nat.zero_le k)).trans hstream
    rw [step_cutCommand hin hrun hrec, hreplay]

end Sys2Proof.Machine
end
